-- ==== Sys2Proof/Word.lean ====
section
/-! DEFINITION. The plain word types of the core (00_scope.md R10, R11). -/

namespace Sys2Proof

/-- One byte of the shared memory (20_memory.md R71). -/
abbrev Byte := BitVec 8

/-- A 32-bit word: the only width of the core's accesses and of its registers (R75, 10_state.md R31). -/
abbrev Word := BitVec 32

/-- An `f32`: a 32-bit pattern read as IEEE 754 binary32 (00_scope.md R11). -/
abbrev F32 := BitVec 32

end Sys2Proof
end

