-- ==== Sys2Proof/Config.lean ====
section
/-! DEFINITION. The implementation parameters (00_scope.md R6, R7) and the free values: constants without a body
that stand for what the spec leaves unspecified. -/

namespace Sys2Proof

/-- The three operations of `NUM` that can generate a NaN (00_scope.md R19). -/
inductive NumOp where
  | add | sub | mul
  deriving DecidableEq, Repr

namespace Config

/-- `LOG2N_MIN`, the smallest `log2 N` the core accepts (00_scope.md R6). -/
def log2NMin : Nat := 4

/-- `LOG2N_MAX`, the largest `log2 N` the core accepts (00_scope.md R7; log 18). -/
def log2NMax : Nat := 24

/-- `NSTG`, the depth of the sequencer's stage tables (00_scope.md R7). -/
abbrev stageDepth : Nat := 12

/-- `NVR`, the number of vector registers (00_scope.md R7). -/
abbrev vectorRegisters : Nat := 32

/-- FREE VALUE: sign (bit 22) and payload (bits 21:0) of the quiet NaN that an operation of `NUM` generates
(00_scope.md R19, 93_implementation_defined.md U6; log 6). -/
opaque nanBits : NumOp → F32 → F32 → BitVec 23

/-- FREE VALUE: what a byte of memory that nobody has written reads as (20_memory.md R92; log 4). -/
opaque unwrittenByte : Nat → Byte

/-- FREE VALUE: the contents of a vector register after a uop, by draw number and register number
(10_state.md R55; log 3). -/
opaque vectorAfterUop : Nat → Nat → BitVec 128

/-- FREE VALUE: what a host reads at an address of the running call's working regions, by draw number and address
(70_reset_and_hazards.md R236; log 16). -/
opaque busyReadByte : Nat → Nat → Byte

end Config
end Sys2Proof
end

