-- ==== Sys2Proof/Machine/Float.lean ====
section
/-! DEFINITION. The numerics `NUM` at the spec's default (00_scope.md R8, R17 to R20): binary32 addition, subtraction and
multiplication, each rounded once to nearest, ties to even, subnormals kept, no flag and no trap. A finite value
is an integer multiple of `2^−149`; the exact sum or product is an integer multiple of `2^−298`, rounded once. -/

namespace Sys2Proof.Machine

/-- The sign bit, bit 31 (00_scope.md R11). -/
def f32Sign (a : F32) : Bool := a.msb

/-- The exponent field, bits 30:23. -/
def f32Exp (a : F32) : Nat := (a.extractLsb' 23 8).toNat

/-- The fraction field, bits 22:0. -/
def f32Frac (a : F32) : Nat := (a.extractLsb' 0 23).toNat

/-- A NaN: exponent field all ones, fraction not zero. -/
def f32IsNaN (a : F32) : Bool := f32Exp a == 255 && f32Frac a != 0

/-- An infinity: exponent field all ones, fraction zero. -/
def f32IsInf (a : F32) : Bool := f32Exp a == 255 && f32Frac a == 0

/-- A zero of either sign. -/
def f32IsZero (a : F32) : Bool := f32Exp a == 0 && f32Frac a == 0

/-- The magnitude of a finite value in units of `2^−149`, subnormals included. -/
def f32Mag (a : F32) : Nat :=
  if f32Exp a = 0 then f32Frac a else (2 ^ 23 + f32Frac a) * 2 ^ (f32Exp a - 1)

/-- A finite value as an integer multiple of `2^−149`. -/
def f32Int (a : F32) : Int := if f32Sign a then -(f32Mag a : Int) else f32Mag a

/-- `n / 2^k` rounded to the nearest integer, ties to even (`k ≥ 1`). -/
def roundShift (n k : Nat) : Nat :=
  let q := n / 2 ^ k
  let r := n % 2 ^ k
  if 2 ^ (k - 1) < r ∨ (r = 2 ^ (k - 1) ∧ q % 2 = 1) then q + 1 else q

/-- Exponent and fraction fields (as one number below `2^31`) of the binary32 nearest to `n · 2^−298`. The exponent of
the result is at least that of the subnormals; a carry out of the significand runs into the exponent; overflow
gives infinity (00_scope.md R17). -/
def roundMag (n : Nat) : Nat :=
  let e := max (Nat.log2 n - 171) 1
  min ((e - 1) * 2 ^ 23 + roundShift n (e + 148)) 0x7F800000

/-- The pattern with the given sign and magnitude bits. -/
def f32Pack (neg : Bool) (bits : Nat) : F32 := BitVec.ofBool neg ++ BitVec.ofNat 31 bits

/-- The infinity of the given sign. -/
def f32Inf (neg : Bool) : F32 := f32Pack neg 0x7F800000

/-- The zero of the given sign. -/
def f32Zero (neg : Bool) : F32 := f32Pack neg 0

/-- The quiet NaN an operation generates; sign and payload are free (00_scope.md R19; log 6). -/
def nanResult (op : NumOp) (a b : F32) : F32 :=
  let free := Config.nanBits op a b
  free.extractLsb' 22 1 ++ 0xFF#8 ++ 1#1 ++ free.extractLsb' 0 22

/-- `fneg(a) = a XOR 0x80000000` (00_scope.md R18). -/
def fneg (a : F32) : F32 := a ^^^ 0x80000000#32

/-- The sum of two finite values, rounded once; an exact zero is `−0.0` only when both operands are
(00_scope.md R17). -/
def addFinite (a b : F32) : F32 :=
  let t := f32Int a + f32Int b
  if t = 0 then f32Zero (f32Sign a && f32Sign b)
  else f32Pack (decide (t < 0)) (roundMag (t.natAbs * 2 ^ 149))

/-- `NUM.fadd` (00_scope.md R17, R19). -/
def fadd (a b : F32) : F32 :=
  if f32IsNaN a || f32IsNaN b then nanResult .add a b
  else if f32IsInf a then
    if f32IsInf b && f32Sign a != f32Sign b then nanResult .add a b else a
  else if f32IsInf b then b
  else addFinite a b

/-- `NUM.fsub` (00_scope.md R17, R19). -/
def fsub (a b : F32) : F32 :=
  if f32IsNaN a || f32IsNaN b then nanResult .sub a b
  else if f32IsInf a then
    if f32IsInf b && f32Sign a == f32Sign b then nanResult .sub a b else a
  else if f32IsInf b then fneg b
  else addFinite a (fneg b)

/-- `NUM.fmul` (00_scope.md R17, R19). -/
def fmul (a b : F32) : F32 :=
  if f32IsNaN a || f32IsNaN b then nanResult .mul a b
  else if f32IsInf a || f32IsInf b then
    if f32IsZero a || f32IsZero b then nanResult .mul a b else f32Inf (f32Sign a != f32Sign b)
  else f32Pack (f32Sign a != f32Sign b) (roundMag (f32Mag a * f32Mag b))

end Sys2Proof.Machine
end

