-- ==== Sys2Proof/Machine/Butterfly.lean ====
section
/-! DEFINITION. Complex values and the shared butterfly arithmetic of the kernels, each `f32` operation rounded
separately in the order written (00_scope.md R11, R21 to R24). -/

namespace Sys2Proof.Machine

/-- A complex value: an ordered pair of `f32` (00_scope.md R11). -/
structure Cplx where
  r : F32
  i : F32
  deriving DecidableEq, Repr

/-- Four values of one kind: the inputs or the outputs of a radix-4 tree. -/
structure Quad (α : Type) where
  x0 : α
  x1 : α
  x2 : α
  x3 : α
  deriving DecidableEq, Repr

/-- The four values of a function on 0..3. -/
def quadOf {α : Type} (g : Nat → α) : Quad α := ⟨g 0, g 1, g 2, g 3⟩

/-- Component `u` of a quad, `u = 0..3`. -/
def Quad.nth {α : Type} (t : Quad α) (u : Nat) : α :=
  match u with
  | 0 => t.x0
  | 1 => t.x1
  | 2 => t.x2
  | _ => t.x3

/-- `cadd` (R21). -/
def cadd (a b : Cplx) : Cplx := ⟨fadd a.r b.r, fadd a.i b.i⟩

/-- `csub` (R21). -/
def csub (a b : Cplx) : Cplx := ⟨fsub a.r b.r, fsub a.i b.i⟩

/-- `conj` (R21). -/
def conj (a : Cplx) : Cplx := ⟨a.r, fneg a.i⟩

/-- `cmul`: `a × w` (R21). -/
def cmul (a w : Cplx) : Cplx :=
  ⟨fsub (fmul a.r w.r) (fmul a.i w.i), fadd (fmul a.r w.i) (fmul a.i w.r)⟩

/-- `cmulc`: `a × conj(w)` (R21). -/
def cmulc (a w : Cplx) : Cplx :=
  ⟨fadd (fmul a.r w.r) (fmul a.i w.i), fsub (fmul a.i w.r) (fmul a.r w.i)⟩

/-- `bfly4_fwd`, the radix-4 add/subtract tree (R22). -/
def bfly4Fwd (t : Quad Cplx) : Quad Cplx :=
  let s0 := cadd t.x0 t.x2
  let s1 := csub t.x0 t.x2
  let s2 := cadd t.x1 t.x3
  let s3 := csub t.x1 t.x3
  { x0 := cadd s0 s2
    x1 := ⟨fadd s1.r s3.i, fsub s1.i s3.r⟩
    x2 := csub s0 s2
    x3 := ⟨fsub s1.r s3.i, fadd s1.i s3.r⟩ }

/-- `bfly4_inv`: the same tree with outputs 1 and 3 exchanged (R23). -/
def bfly4Inv (t : Quad Cplx) : Quad Cplx :=
  let o := bfly4Fwd t
  ⟨o.x0, o.x3, o.x2, o.x1⟩

/-- The hardwired constant `C8`, the binary32 nearest to `√(1/2)` (R24). -/
def c8 : F32 := 0x3F3504F3#32

/-- `rot8_1`: `z × W_8` (R24). -/
def rot8x1 (z : Cplx) : Cplx := ⟨fmul (fadd z.r z.i) c8, fmul (fsub z.i z.r) c8⟩

/-- `rot8_2`: `z × (−i)` (R24). -/
def rot8x2 (z : Cplx) : Cplx := ⟨z.i, fneg z.r⟩

/-- `rot8_3`: `z × W_8^3` (R24). -/
def rot8x3 (z : Cplx) : Cplx := ⟨fmul (fsub z.i z.r) c8, fneg (fmul (fadd z.r z.i) c8)⟩

/-- `rot8c_1`: `z × conj(W_8)` (R24). -/
def rot8c1 (z : Cplx) : Cplx := ⟨fmul (fsub z.r z.i) c8, fmul (fadd z.r z.i) c8⟩

/-- `rot8c_2`: `z × (+i)` (R24). -/
def rot8c2 (z : Cplx) : Cplx := ⟨fneg z.i, z.r⟩

/-- `rot8c_3`: `z × conj(W_8^3)` (R24). -/
def rot8c3 (z : Cplx) : Cplx := ⟨fneg (fmul (fadd z.r z.i) c8), fmul (fsub z.r z.i) c8⟩

end Sys2Proof.Machine
end

