-- ==== Sys2Proof/Syntax.lean ====
section
/-! DEFINITION. The instructions: one constructor per row of spec/opcode_table.json, in the table's order
(30_encoding.md R104). An index operand is the 24-bit `IDX` field as it is (R105). -/

namespace Sys2Proof

/-- The 23 micro-operations and the 2 host commands. -/
inductive Instr where
  /-- `SEQ.BEGIN.F` (43_sequencer.md R156). -/
  | seqBeginF
  /-- `SEQ.BEGIN.I` (R157). -/
  | seqBeginI
  /-- `SEQ.NEXT.F` (R159). -/
  | seqNextF
  /-- `SEQ.NEXT.I` (R160). -/
  | seqNextI
  /-- `SEQ.END.F` (R162). -/
  | seqEndF
  /-- `SEQ.END.I` (R163). -/
  | seqEndI
  /-- `R4F.F f` (40_r4f.md R120). -/
  | r4fF (f : BitVec 24)
  /-- `R4F.I f` (R121). -/
  | r4fI (f : BitVec 24)
  /-- `R4F.IS f` (R122). -/
  | r4fIS (f : BitVec 24)
  /-- `R4T.F b` (41_r4t.md R130). -/
  | r4tF (b : BitVec 24)
  /-- `R4T.I b` (R131). -/
  | r4tI (b : BitVec 24)
  /-- `R8.F f` (42_r8.md R140). -/
  | r8F (f : BitVec 24)
  /-- `R8.I f` (R141). -/
  | r8I (f : BitVec 24)
  /-- `R8.IS f` (R142). -/
  | r8IS (f : BitVec 24)
  /-- `FIN.EDGE.F` (44_finalizer.md R184). -/
  | finEdgeF
  /-- `FIN.EDGE.I` (R191). -/
  | finEdgeI
  /-- `FIN.SEC.F` (R185). -/
  | finSecF
  /-- `FIN.SEC.I` (R192). -/
  | finSecI
  /-- `FIN.INT.F i` (R186). -/
  | finIntF (i : BitVec 24)
  /-- `FIN.INT.I i` (R193). -/
  | finIntI (i : BitVec 24)
  /-- `PACK.F` (45_pack_scale.md R200). -/
  | packF
  /-- `UNPACK.I` (R201). -/
  | unpackI
  /-- `RESTORE.I` (R202). -/
  | restoreI
  /-- Host command `FWD` (43_sequencer.md R150). -/
  | fwd
  /-- Host command `INV` (R151). -/
  | inv
  deriving DecidableEq, Repr

/-- The `IDX` operand of an instruction, 0 where it has none (30_encoding.md R105). -/
def Instr.index : Instr → BitVec 24
  | .r4fF f | .r4fI f | .r4fIS f | .r8F f | .r8I f | .r8IS f => f
  | .r4tF b | .r4tI b => b
  | .finIntF i | .finIntI i => i
  | .seqBeginF | .seqBeginI | .seqNextF | .seqNextI | .seqEndF | .seqEndI
  | .finEdgeF | .finEdgeI | .finSecF | .finSecI | .packF | .unpackI | .restoreI
  | .fwd | .inv => 0

end Sys2Proof
end

