-- ==== Sys2Proof/Machine/State.lean ====
section
/-! DEFINITION. The state of the core (10_state.md), the host's actions as inputs, the reasons a step can stop, and
the state after reset (R58, R59, R230). -/

namespace Sys2Proof.Machine

/-! ### The host's side (R30, R31, R43, R44; log 8) -/

/-- The eleven control registers of the block (10_state.md R31). -/
inductive CtrlReg where
  | cmd | status | nfft | factors | twf | twb | stw | scratch | flags | src | dst
  deriving DecidableEq, Repr

/-- Width of a host access to the register block; only `word` is defined (10_state.md R44). -/
inductive AccessWidth where
  | byte | half | word | double
  deriving DecidableEq, Repr

/-- One action of the host. It lands wholly before or after a core step (60_exceptions.md R214; log 8). -/
inductive HostEvent where
  /-- The host does nothing: the core takes its step. -/
  | coreTurn
  /-- A write to the register block at a byte offset of its 64-byte window. -/
  | regWrite (offset : BitVec 6) (width : AccessWidth) (value : Word)
  /-- A read of the register block. -/
  | regRead (offset : BitVec 6) (width : AccessWidth)
  /-- A write of consecutive bytes to the shared memory (20_memory.md R71). -/
  | memWrite (addr : Word) (bytes : List Byte)
  /-- A read of `count` consecutive bytes of the shared memory. -/
  | memRead (addr : Word) (count : Nat)
  /-- The reset event (70_reset_and_hazards.md R230, R232). -/
  | reset
  deriving DecidableEq, Repr

/-! ### The core's state -/

/-- The control registers that hold state (10_state.md R31, R34 to R36); `CMD` and `STATUS` hold none (R32, R33). -/
structure Control where
  nfft : Word
  factors : Word
  twf : Word
  twb : Word
  stw : Word
  scratch : Word
  /-- Bits 31:1 are hardwired to zero (R36): see `Control.writeFlags`. -/
  flags : Word
  src : Word
  dst : Word
  deriving DecidableEq, Repr

/-- `SQ.DIR`: 0 forward, 1 inverse (10_state.md R45). -/
inductive Direction where
  | forward | inverse
  deriving DecidableEq, Repr

/-- The sequencer registers `SQ.*` (10_state.md R45). -/
structure Sequencer where
  busy : Bool
  done : Bool
  dir : Direction
  /-- The micro-program counter (R46). -/
  upc : BitVec 32
  n : Word
  k : BitVec 5
  m : Word
  l : BitVec 4
  r1 : BitVec 4
  scalef : Bool
  scale : F32
  /-- `SQ.ST_M[s]` at position `s − 1`, `s = 1..12`. -/
  stM : Vector Word Config.stageDepth
  /-- `SQ.ST_F[s]` at position `s − 1`, `s = 1..12`. -/
  stF : Vector Word Config.stageDepth
  /-- `SQ.ST_TW[s]` at position `s − 2`, `s = 2..12`. -/
  stTW : Vector Word (Config.stageDepth - 1)
  stage : BitVec 4
  srcsel : Word
  dstsel : Word
  save0i : Word
  deriving DecidableEq, Repr

/-- The shared memory: the bytes somebody has written, at strictly rising addresses (20_memory.md R70, R92). -/
abbrev Memory := List Host.Cell

/-- A set of byte addresses, strictly rising. -/
abbrev AddressSet := List Nat

/-- The whole machine. `hostWritten` is the model's record of what the launch contract asks (43_sequencer.md R153 (f);
log 12); `events`, `hostWord`, `hostBytes` and `draws` are the model's own (log 8, log 21); everything else is the
spec's. -/
structure State where
  cr : Control
  sq : Sequencer
  /-- `VR[0..31]` (10_state.md R54). -/
  vr : Vector (BitVec 128) Config.vectorRegisters
  mem : Memory
  /-- The bytes of memory the host has written, whatever a uop has stored there since (43_sequencer.md R153 (f);
  log 12). -/
  hostWritten : AddressSet
  /-- The host's coming actions, the next one first. -/
  events : List HostEvent
  /-- The word the host's last register read returned. -/
  hostWord : Word
  /-- The bytes the host's last memory read returned. -/
  hostBytes : List Byte
  /-- Numbers the draws of free values. -/
  draws : Nat
  deriving DecidableEq, Repr

/-- The core has no fault at all: "The set of exception causes is empty" (60_exceptions.md R210). -/
inductive Fault
  deriving DecidableEq, Repr

/-- Why a step has no meaning (60_exceptions.md R211). Every refusal is safe: the spec attaches no behaviour to the
step, and the model stops. -/
inductive Refusal where
  /-- Raised by a dispatch arm whose instruction has no meaning yet. Safe. -/
  | notModelled (mnemonic : String)
  /-- `CMD` written with a value other than 1 or 2 (10_state.md R32). Raised by the host's register write. Safe. -/
  | reservedCommand
  /-- A host write to a register of the block while `BUSY = 1` (10_state.md R43). Raised by the host's register write
  and by `FWD` and `INV`. Safe. -/
  | writeWhileBusy
  /-- A register access that is not one aligned 32-bit word (10_state.md R44). Raised by the host's register accesses.
  Safe. -/
  | badRegisterAccess
  /-- `WF` is false at the `CMD` write, for a reason without a name of its own (43_sequencer.md R153). Raised by `FWD`
  and `INV`. Safe. -/
  | contractViolation
  /-- A base register is not a multiple of 16 (20_memory.md R77). Raised by `FWD` and `INV`. Safe. -/
  | misalignedBase
  /-- A region crosses `2^32` (20_memory.md R84). Raised by `FWD` and `INV`. Safe. -/
  | regionWraps
  /-- Regions are not disjoint as required (20_memory.md R85). Raised by `FWD` and `INV`. Safe. -/
  | regionsOverlap
  /-- A host write to a region of the running call (70_reset_and_hazards.md R236). Raised by the host's memory write.
  Safe. -/
  | hostAccessWhileBusy
  /-- A word on the command bus that is no uop (30_encoding.md R106). Raised by the core's step. Safe. -/
  | illegalWord
  /-- A uop whose `D` bit differs from `SQ.DIR` (30_encoding.md R106). Raised by every uop. Safe. -/
  | wrongDirection
  /-- A uop whose `IDX` is outside the range of 30_encoding.md R105. Raised by the uops that take an index. Safe. -/
  | indexOutOfRange
  /-- A uop outside the pass its rule's "Legal only while" names (40_r4f.md R120 and the other unit rules).
  Raised by the uops of the units R4F, R4T, R8, FIN, PKU. Safe. -/
  | outsideItsPass
  /-- `SQ.UPC` is past the end of `uprog` (43_sequencer.md R158; log 23). Raised by the core's step. Safe. -/
  | pastEndOfProgram
  deriving DecidableEq, Repr

/-! ### Reset -/

/-- The control registers after reset (10_state.md R58). -/
def Control.reset : Control :=
  { nfft := 0, factors := 0, twf := 0, twb := 0, stw := 0, scratch := 0, flags := 0, src := 0, dst := 0 }

/-- The sequencer after reset: `BUSY`, `DONE`, `DIR`, `UPC` by 10_state.md R58, the latches at a named value
(R59: unspecified; DESIGN CHOICE zero, log 1). -/
def Sequencer.reset : Sequencer :=
  { busy := false, done := false, dir := .forward, upc := 0,
    n := 0, k := 0, m := 0, l := 0, r1 := 0, scalef := false, scale := 0,
    stM := Vector.replicate _ 0, stF := Vector.replicate _ 0, stTW := Vector.replicate _ 0,
    stage := 0, srcsel := 0, dstsel := 0, save0i := 0 }

/-- The machine right after reset (10_state.md R58, R59; 70_reset_and_hazards.md R230, R231): idle, nothing written to
memory, no action of the host pending. The values of `VR` are a DESIGN CHOICE (log 2). -/
def State.reset : State :=
  { cr := Control.reset, sq := Sequencer.reset, vr := Vector.replicate _ 0, mem := [], hostWritten := [],
    events := [], hostWord := 0, hostBytes := [], draws := 0 }

end Sys2Proof.Machine
end

