-- ==== Sys2Proof/Machine/Flags.lean ====
section
/-! DEFINITION. The core has no condition codes and no floating-point status flags (10_state.md R53); its only status
bits are `BUSY` and `DONE` of `STATUS` (R33). This file holds every computation of them. -/

namespace Sys2Proof.Machine

/-- What `STATUS` reads as: `BUSY` in bit 0, `DONE` in bit 1, bits 31:2 zero (R33). -/
def statusWord (q : Sequencer) : Word :=
  0#30 ++ BitVec.ofBool q.done ++ BitVec.ofBool q.busy

/-- A command is accepted: `BUSY` set, `DONE` cleared, the direction taken, the micro-program counter 0
(43_sequencer.md R150, R151). -/
def State.startCall (s : State) (dir : Direction) : State :=
  { s with sq := { s.sq with busy := true, done := false, dir := dir, upc := 0 } }

/-- `SEQ.END.*`: `BUSY` cleared, `DONE` set (43_sequencer.md R162, R163). -/
def State.finishCall (s : State) : State :=
  { s with sq := { s.sq with busy := false, done := true } }

/-- What `FLAGS` holds after a write of `v`: bits 31:1 are hardwired to zero (R36). -/
def flagsWritten (v : Word) : Word := v &&& 1#32

/-- What `FLAGS` reads as (R36). -/
def flagsRead (v : Word) : Word := v &&& 1#32

/-- `FLAGS` bit 0, `SCALE_INVERSE` (R36). -/
def scaleInverse (v : Word) : Bool := v.getLsbD 0

end Sys2Proof.Machine
end

