-- ==== Sys2Proof/Decode.lean ====
section
/-! DEFINITION. The encodings of 30_encoding.md: the fields of format U and format C, the total decoder, the encoder, the
listing syntax, and the host's `decodeTableWord`. -/

namespace Sys2Proof

/-- Why a word, or a sequence of bytes, is no instruction (30_encoding.md R106, R107). -/
inductive DecodeError where
  /-- Fewer bytes than one 32-bit word. -/
  | tooShort
  /-- `UNIT` is 0 or 7..15 (R103). -/
  | reservedUnit
  /-- The `OPC` byte is not in the table of R104 although its `UNIT` is (an unused `SUB`, `S` or `D` combination). -/
  | reservedOpcode
  /-- The opcode takes no index and `IDX` is not zero (R105). -/
  | nonzeroIndex
  /-- A `CMD` value other than 1 and 2 (R107). -/
  | reservedCommand
  deriving DecidableEq, Repr

/-! ### Fields of format U (R101) -/

/-- `UNIT`, bits 31:28. -/
def unitField (w : Word) : BitVec 4 := w.extractLsb' 28 4

/-- `OPC`, bits 31:24. -/
def opcodeField (w : Word) : BitVec 8 := w.extractLsb' 24 8

/-- `IDX`, bits 23:0. -/
def indexField (w : Word) : BitVec 24 := w.extractLsb' 0 24

/-- A uop without operand: its `IDX` must be zero (R105). -/
def withoutIndex (i : Instr) (idx : BitVec 24) : Except DecodeError Instr :=
  if idx = 0 then .ok i else .error .nonzeroIndex

/-- The uop with opcode `opc` and index field `idx`, by the table of R104. -/
def decodeFields (opc : BitVec 8) (idx : BitVec 24) : Except DecodeError Instr :=
  match opc with
  | 0x10#8 => withoutIndex .seqBeginF idx
  | 0x11#8 => withoutIndex .seqBeginI idx
  | 0x14#8 => withoutIndex .seqNextF idx
  | 0x15#8 => withoutIndex .seqNextI idx
  | 0x18#8 => withoutIndex .seqEndF idx
  | 0x19#8 => withoutIndex .seqEndI idx
  | 0x20#8 => .ok (.r4fF idx)
  | 0x21#8 => .ok (.r4fI idx)
  | 0x23#8 => .ok (.r4fIS idx)
  | 0x30#8 => .ok (.r4tF idx)
  | 0x31#8 => .ok (.r4tI idx)
  | 0x40#8 => .ok (.r8F idx)
  | 0x41#8 => .ok (.r8I idx)
  | 0x43#8 => .ok (.r8IS idx)
  | 0x50#8 => withoutIndex .finEdgeF idx
  | 0x51#8 => withoutIndex .finEdgeI idx
  | 0x54#8 => withoutIndex .finSecF idx
  | 0x55#8 => withoutIndex .finSecI idx
  | 0x58#8 => .ok (.finIntF idx)
  | 0x59#8 => .ok (.finIntI idx)
  | 0x60#8 => withoutIndex .packF idx
  | 0x61#8 => withoutIndex .unpackI idx
  | 0x65#8 => withoutIndex .restoreI idx
  | _ => .error .reservedOpcode

/-- Format U: the uop a word on the command bus stands for (R104, R106). -/
def decodeUop (w : Word) : Except DecodeError Instr :=
  if unitField w = 0 ∨ 7 ≤ (unitField w).toNat then .error .reservedUnit
  else decodeFields (opcodeField w) (indexField w)

/-- Format C: the host command a value written to `CMD` stands for (R102, R107). -/
def decodeCommand (w : Word) : Except DecodeError Instr :=
  if w = 0x00000001#32 then .ok .fwd
  else if w = 0x00000002#32 then .ok .inv
  else .error .reservedCommand

/-- A word of either format. The formats do not overlap: a command's bits 31:28 are zero, a reserved `UNIT`. -/
def decodeWord (w : Word) : Except DecodeError Instr :=
  match decodeCommand w with
  | .ok i => .ok i
  | .error _ => decodeUop w

/-- Byte `n` of a word, the least significant first (20_memory.md R71). -/
def byteOfWord (w : Word) (n : Nat) : Byte := w.extractLsb' (8 * n) 8

/-- The word whose bytes, the least significant first, are `b0` to `b3` (20_memory.md R71). -/
def wordOfBytes (b0 b1 b2 b3 : Byte) : Word := b3 ++ b2 ++ b1 ++ b0

/-- The decoder on bytes, total: one 32-bit word, least significant byte first, and the bytes that follow it. Every
instruction is one word (30_encoding.md R108). -/
def decode : List Byte → Except DecodeError (Instr × List Byte)
  | b0 :: b1 :: b2 :: b3 :: rest =>
    match decodeWord (wordOfBytes b0 b1 b2 b3) with
    | .ok i => .ok (i, rest)
    | .error e => .error e
  | _ => .error .tooShort

/-- The instruction the decoder reads from a row's word, laid out as bytes; bits at and above `nbits` are zero. -/
def decodeTableWord (nbits w : Nat) : Option Instr :=
  let v : Word := BitVec.ofNat 32 (w % 2 ^ nbits)
  match decode [byteOfWord v 0, byteOfWord v 1, byteOfWord v 2, byteOfWord v 3] with
  | .ok (i, _) => some i
  | .error _ => none

/-! ### The encoder -/

/-- `OPC = UNIT ++ SUB ++ S ++ D` (30_encoding.md R101). -/
def opcode (unit : BitVec 4) (sub : BitVec 2) (scaled dir : BitVec 1) : BitVec 8 :=
  unit ++ sub ++ scaled ++ dir

/-- A word of format U (R101). -/
def uopWord (opc : BitVec 8) (idx : BitVec 24) : Word := opc ++ idx

/-- The word of an instruction, field by field from the table of 30_encoding.md R104; the two commands from R102. -/
def encode : Instr → Word
  | .seqBeginF => uopWord (opcode 1 0 0 0) 0
  | .seqBeginI => uopWord (opcode 1 0 0 1) 0
  | .seqNextF => uopWord (opcode 1 1 0 0) 0
  | .seqNextI => uopWord (opcode 1 1 0 1) 0
  | .seqEndF => uopWord (opcode 1 2 0 0) 0
  | .seqEndI => uopWord (opcode 1 2 0 1) 0
  | .r4fF f => uopWord (opcode 2 0 0 0) f
  | .r4fI f => uopWord (opcode 2 0 0 1) f
  | .r4fIS f => uopWord (opcode 2 0 1 1) f
  | .r4tF b => uopWord (opcode 3 0 0 0) b
  | .r4tI b => uopWord (opcode 3 0 0 1) b
  | .r8F f => uopWord (opcode 4 0 0 0) f
  | .r8I f => uopWord (opcode 4 0 0 1) f
  | .r8IS f => uopWord (opcode 4 0 1 1) f
  | .finEdgeF => uopWord (opcode 5 0 0 0) 0
  | .finEdgeI => uopWord (opcode 5 0 0 1) 0
  | .finSecF => uopWord (opcode 5 1 0 0) 0
  | .finSecI => uopWord (opcode 5 1 0 1) 0
  | .finIntF i => uopWord (opcode 5 2 0 0) i
  | .finIntI i => uopWord (opcode 5 2 0 1) i
  | .packF => uopWord (opcode 6 0 0 0) 0
  | .unpackI => uopWord (opcode 6 0 0 1) 0
  | .restoreI => uopWord (opcode 6 1 0 1) 0
  | .fwd => 0x00000001#32
  | .inv => 0x00000002#32

/-! ### The listing syntax (30_encoding.md R109) -/

/-- The mnemonic of an instruction, as the table spells it. -/
def mnemonic : Instr → String
  | .seqBeginF => "SEQ.BEGIN.F"
  | .seqBeginI => "SEQ.BEGIN.I"
  | .seqNextF => "SEQ.NEXT.F"
  | .seqNextI => "SEQ.NEXT.I"
  | .seqEndF => "SEQ.END.F"
  | .seqEndI => "SEQ.END.I"
  | .r4fF _ => "R4F.F"
  | .r4fI _ => "R4F.I"
  | .r4fIS _ => "R4F.IS"
  | .r4tF _ => "R4T.F"
  | .r4tI _ => "R4T.I"
  | .r8F _ => "R8.F"
  | .r8I _ => "R8.I"
  | .r8IS _ => "R8.IS"
  | .finEdgeF => "FIN.EDGE.F"
  | .finEdgeI => "FIN.EDGE.I"
  | .finSecF => "FIN.SEC.F"
  | .finSecI => "FIN.SEC.I"
  | .finIntF _ => "FIN.INT.F"
  | .finIntI _ => "FIN.INT.I"
  | .packF => "PACK.F"
  | .unpackI => "UNPACK.I"
  | .restoreI => "RESTORE.I"
  | .fwd => "FWD"
  | .inv => "INV"

/-- Whether a listing line of the instruction carries an index. -/
def takesIndex : Instr → Bool
  | .r4fF _ | .r4fI _ | .r4fIS _ | .r4tF _ | .r4tI _ | .r8F _ | .r8I _ | .r8IS _ | .finIntF _ | .finIntI _ => true
  | .seqBeginF | .seqBeginI | .seqNextF | .seqNextI | .seqEndF | .seqEndI
  | .finEdgeF | .finEdgeI | .finSecF | .finSecI | .packF | .unpackI | .restoreI
  | .fwd | .inv => false

/-- One listing line: the mnemonic, then the index in decimal for the uops that take one (R109). -/
def listing (i : Instr) : String :=
  if takesIndex i then mnemonic i ++ " " ++ toString i.index.toNat else mnemonic i

end Sys2Proof
end

