-- ==== Sys2Proof/Machine/Memory.lean ====
section
/-! DEFINITION. The shared memory as data: bytes by address in one canonical form, and the 32-bit little-endian words
built from them in one place (20_memory.md R70, R71, R76, R84, R92). -/

namespace Sys2Proof.Machine

/-- The byte somebody wrote at an address, none where nobody has. -/
def Memory.byte? : Memory → Nat → Option Byte
  | [], _ => none
  | (k, b) :: m, a => if a = k then some b else Memory.byte? m a

/-- Writes one byte, keeping the addresses strictly rising. -/
def Memory.writeByte : Memory → Nat → Byte → Memory
  | [], a, b => [(a, b)]
  | (k, v) :: m, a, b =>
    if a < k then (a, b) :: (k, v) :: m
    else if a = k then (a, b) :: m
    else (k, v) :: Memory.writeByte m a b

/-- The canonical form from an address up: strictly rising and inside the `2^32` bytes of the space (R70). -/
def Memory.wfFrom : Nat → Memory → Bool
  | _, [] => true
  | lo, (k, _) :: m => decide (lo ≤ k) && decide (k < 2 ^ 32) && Memory.wfFrom (k + 1) m

/-- The canonical form of a memory. No listed byte equals what an unlisted address holds, because an unlisted address
holds no value. -/
def Memory.wf (m : Memory) : Bool := Memory.wfFrom 0 m

/-- What a read of one byte returns. A byte nobody has written is unspecified: a free value (R92; log 4). This is the
one definition of what an unlisted address reads as. -/
def Memory.byteAt (m : Memory) (a : Nat) : Byte := (Memory.byte? m a).getD (Config.unwrittenByte a)

/-- `MemRead(addr, 4)`: the word whose least significant byte is at `addr`; addresses are modulo `2^32`
(R71, R84; 00_scope.md R13). -/
def Memory.readWord (m : Memory) (a : Word) : Word :=
  wordOfBytes (Memory.byteAt m a.toNat) (Memory.byteAt m (a + 1).toNat)
    (Memory.byteAt m (a + 2).toNat) (Memory.byteAt m (a + 3).toNat)

/-- `MemWrite(addr, 4, v)` (00_scope.md R13; R71). -/
def Memory.writeWord (m : Memory) (a : Word) (v : Word) : Memory :=
  Memory.writeByte (Memory.writeByte (Memory.writeByte (Memory.writeByte m
    a.toNat (byteOfWord v 0)) (a + 1).toNat (byteOfWord v 1))
    (a + 2).toNat (byteOfWord v 2)) (a + 3).toNat (byteOfWord v 3)

/-- Writes consecutive bytes from `a` up, addresses modulo `2^32`: a host access of any width (R71). -/
def Memory.writeBytes (m : Memory) (a : Word) : List Byte → Memory
  | [] => m
  | b :: bs => Memory.writeBytes (Memory.writeByte m a.toNat b) (a + 1) bs

/-- One word a uop is about to store. -/
structure Store where
  addr : Word
  value : Word
  deriving DecidableEq, Repr

/-- Performs a list of word writes in order. -/
def Memory.storeWords (m : Memory) : List Store → Memory
  | [] => m
  | st :: l => Memory.storeWords (Memory.writeWord m st.addr st.value) l

/-- The word somebody wrote at `a`: none unless all four bytes have been written (R92). -/
def Memory.word? (m : Memory) (a : Word) : Option Word :=
  match Memory.byte? m a.toNat, Memory.byte? m (a + 1).toNat,
      Memory.byte? m (a + 2).toNat, Memory.byte? m (a + 3).toNat with
  | some b0, some b1, some b2, some b3 => some (wordOfBytes b0 b1 b2 b3)
  | _, _, _, _ => none

/-! ### Which bytes the host has written (43_sequencer.md R153 (f); log 12) -/

/-- Adds an address, keeping the set strictly rising. -/
def AddressSet.add : AddressSet → Nat → AddressSet
  | [], a => [a]
  | k :: l, a => if a < k then a :: k :: l else if a = k then k :: l else k :: AddressSet.add l a

/-- Adds `n` consecutive addresses from `a` up, modulo `2^32`. -/
def AddressSet.addBytes (l : AddressSet) (a : Word) : Nat → AddressSet
  | 0 => l
  | n + 1 => AddressSet.addBytes (AddressSet.add l a.toNat) (a + 1) n

/-- The canonical form: strictly rising and inside the `2^32` bytes of the space (R70). -/
def AddressSet.wfFrom : Nat → AddressSet → Bool
  | _, [] => true
  | lo, k :: l => decide (lo ≤ k) && decide (k < 2 ^ 32) && AddressSet.wfFrom (k + 1) l

/-- The canonical form of a set of addresses. -/
def AddressSet.wf (l : AddressSet) : Bool := AddressSet.wfFrom 0 l

/-- The address is in the set. -/
def AddressSet.has (l : AddressSet) (a : Word) : Bool := decide (a.toNat ∈ l)

/-- All four bytes of the word at `a` are in the set. -/
def AddressSet.hasWord (l : AddressSet) (a : Word) : Bool :=
  l.has a && l.has (a + 1) && l.has (a + 2) && l.has (a + 3)

end Sys2Proof.Machine
end

