-- ==== Sys2Proof/Machine/Ops.lean ====
section
/-! DEFINITION. The named operations over memory and registers that the meanings share. There is no operation for
taking an exception or returning from one: the core has neither (60_exceptions.md R210, R215, R216). -/

namespace Sys2Proof.Machine

/-! ### Memory (00_scope.md R13) -/

/-- `MemF(a)`, `MemRead(a, 4)`. -/
def State.word (s : State) (a : Word) : Word := Memory.readWord s.mem a

/-- One byte of memory as a read returns it. -/
def State.byteAt (s : State) (a : Word) : Byte := Memory.byteAt s.mem a.toNat

/-- Performs the word writes of a uop. All its reads have been made before (00_scope.md R16, 20_memory.md R76; log 7). -/
def State.storeWords (s : State) (l : List Store) : State :=
  { s with mem := Memory.storeWords s.mem l }

/-- A host write of consecutive bytes: memory takes them, and the bytes count as written by the host (20_memory.md R71;
43_sequencer.md R153 (f); log 12). -/
def State.hostWrite (s : State) (a : Word) (bytes : List Byte) : State :=
  { s with
    mem := Memory.writeBytes s.mem a bytes, hostWritten := AddressSet.addBytes s.hostWritten a bytes.length }

/-! ### The end of a uop -/

/-- The vector registers after a uop: unspecified, one draw for each uop (10_state.md R55; log 3). -/
@[irreducible] def vectorsAfterUop (draw : Nat) : Vector (BitVec 128) Config.vectorRegisters :=
  Vector.ofFn fun n => Config.vectorAfterUop draw n.val

/-- What every uop leaves in the vector registers (10_state.md R55). -/
def State.endUop (s : State) : State :=
  { s with vr := vectorsAfterUop s.draws, draws := s.draws + 1 }

/-- The end of every uop but `SEQ.END.*`: `upc <- upc + 1` (00_scope.md R12, R16; 10_state.md R46). -/
def State.advance (s : State) : State :=
  { s.endUop with sq := { s.sq with upc := s.sq.upc + 1 } }

/-! ### When a uop is legal -/

/-- A uop with direction bit `dir`: its effect where it is legal, otherwise no step. Illegal are a `D` bit that differs
from `SQ.DIR`, an index out of range (30_encoding.md R106; log 10), and a uop outside the pass its rule names. -/
def issue (dir : Direction) (inRange inPass : Bool) (s effect : State) : Host.Outcome State Fault Refusal :=
  if s.sq.dir ≠ dir then .refused .wrongDirection
  else if !inRange then .refused .indexOutOfRange
  else if !inPass then .refused .outsideItsPass
  else .next effect

/-! ### The register block (10_state.md R31 to R36, R43, R44) -/

/-- The register at a byte offset of the 64-byte window; none for the reserved offsets (R31, R44). -/
def regAt (offset : BitVec 6) : Option CtrlReg :=
  match offset.toNat with
  | 0x00 => some .cmd
  | 0x04 => some .status
  | 0x08 => some .nfft
  | 0x0C => some .factors
  | 0x10 => some .twf
  | 0x14 => some .twb
  | 0x18 => some .stw
  | 0x1C => some .scratch
  | 0x20 => some .flags
  | 0x24 => some .src
  | 0x28 => some .dst
  | _ => none

/-- What a host read of a register returns (R32 to R36). -/
def State.readReg (s : State) : CtrlReg → Word
  | .cmd => 0
  | .status => statusWord s.sq
  | .nfft => s.cr.nfft
  | .factors => s.cr.factors
  | .twf => s.cr.twf
  | .twb => s.cr.twb
  | .stw => s.cr.stw
  | .scratch => s.cr.scratch
  | .flags => flagsRead s.cr.flags
  | .src => s.cr.src
  | .dst => s.cr.dst

/-- A host write to a register that holds state; `STATUS` ignores it (R33), `CMD` is handled as a command. -/
def Control.write (c : Control) (r : CtrlReg) (v : Word) : Control :=
  match r with
  | .cmd | .status => c
  | .nfft => { c with nfft := v }
  | .factors => { c with factors := v }
  | .twf => { c with twf := v }
  | .twb => { c with twb := v }
  | .stw => { c with stw := v }
  | .scratch => { c with scratch := v }
  | .flags => { c with flags := flagsWritten v }
  | .src => { c with src := v }
  | .dst => { c with dst := v }

/-- Writes the register block. -/
def State.writeReg (s : State) (r : CtrlReg) (v : Word) : State :=
  { s with cr := s.cr.write r v }

/-- Hands a word to the host: the result of its register read. -/
def State.answerWord (s : State) (v : Word) : State := { s with hostWord := v }

/-- The reset event: every register at its value after reset, memory untouched (what the host wrote stays written,
log 12), the host goes on
(70_reset_and_hazards.md R230, R232; log 17). -/
def State.resetEvent (s : State) : State :=
  { State.reset with
    mem := s.mem, hostWritten := s.hostWritten, events := s.events, hostWord := s.hostWord, hostBytes := s.hostBytes, draws := s.draws }

end Sys2Proof.Machine
end

