-- ==== Sys2Proof/Machine/Operands.lean ====
section
/-! DEFINITION. Every operand form: the addresses of slots, elements and table entries, the loads and stores built on
them (00_scope.md R13, 20_memory.md R72, R73, R79, R80), the stage tables, and the ranges of `IDX` (30_encoding.md R105).
Indices are natural numbers; an address is taken modulo `2^32` at the end (00_scope.md R10, 20_memory.md R84). -/

namespace Sys2Proof.Machine

/-- The four lanes (00_scope.md R27). -/
def lanes : List Nat := [0, 1, 2, 3]

/-! ### Addresses -/

/-- `slot(base, n) = base + 8·n` (00_scope.md R13). -/
def slot (base : Word) (n : Nat) : Word := base + BitVec.ofNat 32 (8 * n)

/-- `ea(base, e, q) = base + 8·(4·e + q)` (00_scope.md R13). -/
def ea (base : Word) (e q : Nat) : Word := base + BitVec.ofNat 32 (8 * (4 * e + q))

/-- `ra(base, e, q) = base + 4·(4·e + q)` (00_scope.md R13). -/
def ra (base : Word) (e q : Nat) : Word := base + BitVec.ofNat 32 (4 * (4 * e + q))

/-- `STWslot(q, j)` (20_memory.md R80). -/
def stwSlot (q j : Nat) : Nat := 4 + 12 * (j / 4) + 4 * (q - 1) + j % 4

/-! ### Loads -/

/-- `MemC(a)` (00_scope.md R13). -/
def State.complexAt (s : State) (a : Word) : Cplx := ⟨s.word a, s.word (a + 4)⟩

/-- Lane `q` of `LdV(base, e)` (00_scope.md R13). -/
def State.loadV (s : State) (base : Word) (e q : Nat) : Cplx := s.complexAt (ea base e q)

/-- Lane `q` of `LdR(base, e)`: a real sample with imaginary part `+0.0` (00_scope.md R13). -/
def State.loadR (s : State) (base : Word) (e q : Nat) : Cplx := ⟨s.word (ra base e q), 0⟩

/-- Super-twiddle slot `n` (20_memory.md R80). -/
def State.superTwiddle (s : State) (n : Nat) : Cplx := s.complexAt (slot s.cr.stw n)

/-! ### Stores -/

/-- `MemC(a) <- c` (00_scope.md R13). -/
def storeC (a : Word) (c : Cplx) : List Store := [⟨a, c.r⟩, ⟨a + 4, c.i⟩]

/-- Lane `q` of `StV(base, e, ·)` (00_scope.md R13). -/
def storeV (base : Word) (e q : Nat) (c : Cplx) : List Store := storeC (ea base e q) c

/-- Lane `q` of `StR(base, e, ·)`: one real word (00_scope.md R13). -/
def storeR (base : Word) (e q : Nat) (v : F32) : List Store := [⟨ra base e q, v⟩]

/-! ### Sequencer operands -/

/-- `SQ.ST_M[s]` (10_state.md R45). -/
def Sequencer.stMAt (q : Sequencer) (s : Nat) : Word := (q.stM[s - 1]?).getD 0

/-- `SQ.ST_F[s]`. -/
def Sequencer.stFAt (q : Sequencer) (s : Nat) : Word := (q.stF[s - 1]?).getD 0

/-- `SQ.ST_TW[s]`. -/
def Sequencer.stTWAt (q : Sequencer) (s : Nat) : Word := (q.stTW[s - 2]?).getD 0

/-- The number of columns `M` of the call. -/
def State.columns (s : State) : Nat := s.sq.m.toNat

/-! ### Ranges of `IDX` (30_encoding.md R105) and passes -/

/-- `0 ≤ f < M/4`, the butterflies of a radix-4 stage. -/
def inRadix4Range (q : Sequencer) (f : BitVec 24) : Bool := decide (f.toNat < q.m.toNat / 4)

/-- `0 ≤ f < M/8`, the butterflies of a radix-8 stage 1. -/
def inRadix8Range (q : Sequencer) (f : BitVec 24) : Bool := decide (f.toNat < q.m.toNat / 8)

/-- `0 ≤ i < (M − 8)/8`, the interior iterations. -/
def inInteriorRange (q : Sequencer) (i : BitVec 24) : Bool := decide (i.toNat < (q.m.toNat - 8) / 8)

/-- Driver stage 1 with the given radix (40_r4f.md R120, 42_r8.md R140). -/
def inFirstStage (q : Sequencer) (radix : BitVec 4) : Bool := q.stage == 1#4 && q.r1 == radix

/-- Driver stages `2..L`, for which the stage tables have entries (41_r4t.md R130; log 26). -/
def inOuterStage (q : Sequencer) : Bool :=
  decide (2 ≤ q.stage.toNat) && decide (q.stage.toNat ≤ q.l.toNat) && decide (q.stage.toNat ≤ Config.stageDepth)

/-- The finalizer pass, `SQ.STAGE = SQ.L + 1` (44_finalizer.md R184). -/
def inFinalizerPass (q : Sequencer) : Bool := decide (q.stage.toNat = q.l.toNat + 1)

end Sys2Proof.Machine
end

