-- ==== Sys2Proof/Machine/Contract.lean ====
section
/-! DEFINITION. The launch contract: the canonical factor list (43_sequencer.md R154, R155), the regions of a call
(20_memory.md R78 to R83) and the predicate `WF` (43_sequencer.md R153), as the first reason it fails. -/

namespace Sys2Proof.Machine

/-! ### The canonical plan of `N = 2^k` -/

/-- `stage_count` of `canon(k)` (R154). -/
def canonStageCount (k : Nat) : Nat := if k % 2 = 0 then (k - 2) / 2 else (k - 1) / 2

/-- `fstride` of `canon(k)`: `M` divided by the radix of pair 0 (R154). -/
def canonFstride (k : Nat) : Nat := if k % 2 = 0 then 2 ^ (k - 4) else 2 ^ (k - 3)

/-- Pair `t` of `canon(k)`: `(mstride, radix)` (R154). -/
def canonPair (k t : Nat) : Nat × Nat :=
  if k % 2 = 0 then (4 ^ t, 4)
  else if t = 0 then (1, 2)
  else (2 * 4 ^ (t - 1), 4)

/-- `canon(k)` as words, in the image of 20_memory.md R78. -/
def canon (k : Nat) : List Nat :=
  canonStageCount k :: canonFstride k ::
    (List.range (canonStageCount k)).flatMap fun t => [(canonPair k t).1, (canonPair k t).2]

/-- `L = (k − 2) div 2`, the driver passes after fusion (R155). -/
def driverPasses (k : Nat) : Nat := (k - 2) / 2

/-- `r_1` (R155). -/
def firstRadix (k : Nat) : Nat := if k % 2 = 0 then 4 else 8

/-- `m_s`, the `mstride` of driver stage `s` (R155, 00_scope.md R9). -/
def driverMstride (k s : Nat) : Nat := if s = 1 then 1 else firstRadix k * 4 ^ (s - 2)

/-- `ST_TW[s]`: the twiddle slots of the stages `2..s−1`, `3·m` each (20_memory.md R79). -/
def twiddleOffset (k s : Nat) : Nat :=
  ((List.range (s - 2)).map fun t => 3 * driverMstride k (t + 2)).sum

/-! ### Regions -/

/-- A region of memory: its first byte and its size. -/
structure Region where
  base : Nat
  size : Nat
  deriving DecidableEq, Repr

/-- The region ends at or below `2^32` (20_memory.md R84). -/
def Region.fits (r : Region) : Bool := decide (r.base + r.size ≤ 2 ^ 32)

/-- Two regions share no byte (20_memory.md R85). -/
def Region.disjoint (a b : Region) : Bool :=
  a.size == 0 || b.size == 0 || decide (a.base + a.size ≤ b.base) || decide (b.base + b.size ≤ a.base)

/-- The address is a byte of the region. -/
def Region.holds (r : Region) (a : Nat) : Bool := decide (r.base ≤ a) && decide (a < r.base + r.size)

/-- Size of the twiddle table of either direction (20_memory.md R79). -/
def twiddleBytes (k : Nat) : Nat := 8 * twiddleOffset k (driverPasses k + 1)

/-- Size of the super-twiddle table, `4 + 12·max(1, M/8)` slots (20_memory.md R80). -/
def superTwiddleBytes (k : Nat) : Nat := 8 * (4 + 12 * max 1 (2 ^ (k - 2) / 8))

/-- Size of the region at `CR[SRC]` (20_memory.md R83). -/
def sourceBytes (dir : Direction) (k : Nat) : Nat :=
  match dir with
  | .forward => 4 * 2 ^ k
  | .inverse => 8 * (2 ^ k / 2 + 1)

/-- The region at `CR[SRC]`. -/
def sourceRegion (c : Control) (dir : Direction) (k : Nat) : Region := ⟨c.src.toNat, sourceBytes dir k⟩

/-- The region at `CR[DST]`: room for `N` complex slots (20_memory.md R83). -/
def destinationRegion (c : Control) (k : Nat) : Region := ⟨c.dst.toNat, 8 * 2 ^ k⟩

/-- The region at `CR[SCRATCH]`: room for `N` complex slots (20_memory.md R83). -/
def scratchRegion (c : Control) (k : Nat) : Region := ⟨c.scratch.toNat, 8 * 2 ^ k⟩

/-- The factor list and the three tables (20_memory.md R78 to R80). -/
def readOnlyRegions (c : Control) (k : Nat) : List Region :=
  [⟨c.factors.toNat, 8 + 8 * canonStageCount k⟩, ⟨c.twf.toNat, twiddleBytes k⟩,
   ⟨c.twb.toNat, twiddleBytes k⟩, ⟨c.stw.toNat, superTwiddleBytes k⟩]

/-- All seven regions of a call (log 11). -/
def callRegions (c : Control) (dir : Direction) (k : Nat) : List Region :=
  sourceRegion c dir k :: destinationRegion c k :: scratchRegion c k :: readOnlyRegions c k

/-- The disjointness of 20_memory.md R85: the three data regions pairwise, and each from the list and the tables. -/
def regionsDisjoint (c : Control) (dir : Direction) (k : Nat) : Bool :=
  let src := sourceRegion c dir k
  let dst := destinationRegion c k
  let scr := scratchRegion c k
  src.disjoint dst && src.disjoint scr && dst.disjoint scr &&
    (readOnlyRegions c k).all fun t => src.disjoint t && dst.disjoint t && scr.disjoint t

/-! ### What the host must have written (R153 (e), (f)) -/

/-- The host has written the word at `a`; a word that only a uop has written does not count (R153 (f), 20_memory.md R92;
log 12). -/
def wordWritten (w : AddressSet) (a : Word) : Bool := w.hasWord a

/-- The host has written the first `n` words of a region. -/
def wordsWritten (w : AddressSet) (base : Word) (n : Nat) : Bool :=
  (List.range n).all fun t => wordWritten w (base + BitVec.ofNat 32 (4 * t))

/-- The host has written both words of complex slot `n`. -/
def slotWritten (w : AddressSet) (base : Word) (n : Nat) : Bool :=
  wordsWritten w (base + BitVec.ofNat 32 (8 * n)) 2

/-- The factor list in memory is `canon(k)` (R153 (e)); that the host wrote it is part of `inputsWritten`. -/
def factorListCanonical (m : Memory) (base : Word) (k : Nat) : Bool :=
  (canon k).zipIdx.all fun p =>
    Memory.word? m (base + BitVec.ofNat 32 (4 * p.2)) == some (BitVec.ofNat 32 p.1)

/-- The host has written the super-twiddle slots the finalizer reads: 1 and 3, and those of the columns `1..M/2 − 1`
(20_memory.md R80, 44_finalizer.md R182, R183). -/
def superTwiddlesWritten (w : AddressSet) (base : Word) (k : Nat) : Bool :=
  slotWritten w base 1 && slotWritten w base 3 &&
    (List.range (2 ^ (k - 2) / 2 - 1)).all fun t =>
      [1, 2, 3].all fun q => slotWritten w base (stwSlot q (t + 1))

/-- The words of the input the call reads: `N` samples, or slots `0..N/2` without the last imaginary word
(R153 (f)). -/
def inputWords (dir : Direction) (k : Nat) : Nat :=
  match dir with
  | .forward => 2 ^ k
  | .inverse => 2 ^ k + 1

/-- The twiddle table of the direction. -/
def twiddleBase (c : Control) : Direction → Word
  | .forward => c.twf
  | .inverse => c.twb

/-- The host has written everything the call reads before writing it: the factor list, the twiddle blocks of the
direction, the super-twiddles and the input (R153 (f)). DESIGN CHOICE: the values in the tables are not looked at, so a call
with tables of another `N` runs by the uop rules, as R153 (f) says of any pattern; 70_reset_and_hazards.md R239 and
93_implementation_defined.md U1 put such a call outside `WF` (log 27). -/
def inputsWritten (c : Control) (w : AddressSet) (dir : Direction) (k : Nat) : Bool :=
  wordsWritten w c.factors (2 + 2 * canonStageCount k) &&
    wordsWritten w (twiddleBase c dir) (twiddleBytes k / 4) &&
    superTwiddlesWritten w c.stw k && wordsWritten w c.src (inputWords dir k)

/-! ### WF -/

/-- `N` is a power of two in the range the core accepts (R153 (b)). -/
def sizeAccepted (n : Word) : Bool :=
  let k := Nat.log2 n.toNat
  n.toNat == 2 ^ k && decide (Config.log2NMin ≤ k) && decide (k ≤ Config.log2NMax)

/-- The seven base registers are multiples of 16 (R153 (c), 20_memory.md R77). -/
def basesAligned (c : Control) : Bool :=
  [c.factors, c.twf, c.twb, c.stw, c.scratch, c.src, c.dst].all fun b => b.toNat % 16 == 0

/-- The first reason why `WF` (R153) fails for a command of direction `dir`, none where it holds. The order of the
reasons is the model's (log 11). Item (g) holds in every state: a partial access is refused when it is made. Table
values are no reason to fail (DESIGN CHOICE, R153 (f) before 70_reset_and_hazards.md R239; log 27). -/
def contractFailure (dir : Direction) (s : State) : Option Refusal :=
  let k := Nat.log2 s.cr.nfft.toNat
  if s.sq.busy then some .writeWhileBusy
  else if !sizeAccepted s.cr.nfft then some .contractViolation
  else if !basesAligned s.cr then some .misalignedBase
  else if !(callRegions s.cr dir k).all Region.fits then some .regionWraps
  else if !regionsDisjoint s.cr dir k then some .regionsOverlap
  else if !factorListCanonical s.mem s.cr.factors k then some .contractViolation
  else if !inputsWritten s.cr s.hostWritten dir k then some .contractViolation
  else none

/-- `WF(cmd)` (R153). -/
def launchable (dir : Direction) (s : State) : Bool := (contractFailure dir s).isNone

end Sys2Proof.Machine
end

