-- ==== Sys2Proof/Machine/Commands.lean ====
section
/-! DEFINITION. The host commands `FWD` and `INV` (43_sequencer.md R150, R151). -/

namespace Sys2Proof.Machine

/-- Accepts a command where its launch contract holds; otherwise the command has no meaning (R150, R151, R153). -/
def launch (dir : Direction) (s : State) : Host.Outcome State Fault Refusal :=
  match contractFailure dir s with
  | some r => .refused r
  | none => .next (s.startCall dir)

/-- `FWD` (R150). -/
def execFwd (s : State) : Host.Outcome State Fault Refusal := launch .forward s

/-- `INV` (R151). -/
def execInv (s : State) : Host.Outcome State Fault Refusal := launch .inverse s

end Sys2Proof.Machine
end

