-- ==== Sys2Proof/Machine/Finalizer.lean ====
section
/-! DEFINITION. The spectrum-edge finalizer: the column procedures `FZ`, `FH`, `FG`, `IZ`, `IH`, `IG` as the words they store
(44_finalizer.md R181 to R183, R187, R188, R190) and the six uops (R184 to R186, R191 to R193).
`S = SQ.SRCSEL`, `D = SQ.DSTSEL`, `M = SQ.M`. -/

namespace Sys2Proof.Machine

/-! ### Forward columns -/

/-- Real word of lane `q` of element `e` of the source (R181, R182). -/
def sourceReal (s : State) (e q : Nat) : F32 := s.word (ea s.sq.srcsel e q)

/-- `FZ`, the forward Z column (R181). -/
def finFZ (s : State) : List Store :=
  let a := sourceReal s 0
  let s02 := fadd (a 0) (a 2)
  let s13 := fadd (a 1) (a 3)
  storeC (slot s.sq.dstsel 0) ⟨fadd s02 s13, fsub s02 s13⟩ ++
    storeC (slot s.sq.dstsel s.columns) ⟨fsub (a 0) (a 2), fneg (fsub (a 1) (a 3))⟩

/-- `FH`, the forward H column `M/2` (R182). -/
def finFH (s : State) : List Store :=
  let b := sourceReal s (s.columns / 2)
  let w1 := s.superTwiddle 1
  let w3 := s.superTwiddle 3
  let t1 : Cplx := ⟨fmul (b 1) w1.r, fmul (b 1) w1.i⟩
  let t3 : Cplx := ⟨fmul (b 3) w3.r, fmul (b 3) w3.i⟩
  let s0 : Cplx := ⟨b 0, fneg (b 2)⟩
  let s1 : Cplx := ⟨b 0, b 2⟩
  let s2 := cadd t1 t3
  let s3 := csub t1 t3
  storeC (slot s.sq.dstsel (s.columns / 2)) (cadd s0 s2) ++
    storeC (slot s.sq.dstsel (3 * s.columns / 2)) ⟨fadd s1.r s3.i, fsub s1.i s3.r⟩

/-- The tree of a forward G column `j`: lane `q` rotated by `W_N^{qj}` (R183). -/
def finFGTree (s : State) (j : Nat) : Quad Cplx :=
  bfly4Fwd
    ⟨s.loadV s.sq.srcsel j 0,
     cmul (s.loadV s.sq.srcsel j 1) (s.superTwiddle (stwSlot 1 j)),
     cmul (s.loadV s.sq.srcsel j 2) (s.superTwiddle (stwSlot 2 j)),
     cmul (s.loadV s.sq.srcsel j 3) (s.superTwiddle (stwSlot 3 j))⟩

/-- `FG`, a forward G column `j` (R183). -/
def finFG (s : State) (j : Nat) : List Store :=
  let o := finFGTree s j
  storeC (slot s.sq.dstsel j) o.x0 ++
    storeC (slot s.sq.dstsel (s.columns + j)) o.x1 ++
    storeC (slot s.sq.dstsel (2 * s.columns - j)) (conj o.x2) ++
    storeC (slot s.sq.dstsel (s.columns - j)) (conj o.x3)

/-! ### Inverse columns -/

/-- Four real results stored as lanes of element `e` with imaginary part `+0.0` (R187, R188). -/
def storeRealLanes (base : Word) (e : Nat) (y : Quad F32) : List Store :=
  lanes.flatMap fun q => storeV base e q ⟨y.nth q, 0⟩

/-- The results of `IZ` (R187). -/
def finIZLanes (s : State) : Quad F32 :=
  let b0 := s.complexAt (slot s.sq.srcsel 0)
  let bm := s.complexAt (slot s.sq.srcsel s.columns)
  let p := fadd b0.r b0.i
  let mi := fsub b0.r b0.i
  let c2 := fadd bm.r bm.r
  let d2 := fadd bm.i bm.i
  ⟨fadd p c2, fsub mi d2, fsub p c2, fadd mi d2⟩

/-- `IZ`, the inverse Z column (R187). -/
def finIZ (s : State) : List Store := storeRealLanes s.sq.dstsel 0 (finIZLanes s)

/-- The results of `IH` (R188). -/
def finIHLanes (s : State) : Quad F32 :=
  let p := s.complexAt (slot s.sq.srcsel (s.columns / 2))
  let q := s.complexAt (slot s.sq.srcsel (3 * s.columns / 2))
  let w1 := s.superTwiddle 1
  let w3 := s.superTwiddle 3
  let u := fadd p.r q.r
  let v := fsub q.i p.i
  let g := fsub p.r q.r
  let h := fadd p.i q.i
  let e := fsub g h
  let k := fadd g h
  ⟨fadd u u, fadd (fmul e w1.r) (fmul (fneg e) w1.i), fadd v v, fadd (fmul k w3.r) (fmul k w3.i)⟩

/-- `IH`, the inverse H column `M/2` (R188). -/
def finIH (s : State) : List Store := storeRealLanes s.sq.dstsel (s.columns / 2) (finIHLanes s)

/-- The lanes `Y[0..3]` of an inverse G column `j`: the tree, then lane `q` rotated by `conj(W_N^{qj})` (R190). -/
def finIGLanes (s : State) (j : Nat) : Quad Cplx :=
  let d := bfly4Inv
    ⟨s.complexAt (slot s.sq.srcsel j),
     s.complexAt (slot s.sq.srcsel (s.columns + j)),
     conj (s.complexAt (slot s.sq.srcsel (2 * s.columns - j))),
     conj (s.complexAt (slot s.sq.srcsel (s.columns - j)))⟩
  ⟨d.x0,
   cmulc d.x1 (s.superTwiddle (stwSlot 1 j)),
   cmulc d.x2 (s.superTwiddle (stwSlot 2 j)),
   cmulc d.x3 (s.superTwiddle (stwSlot 3 j))⟩

/-- `IG`, an inverse G column `j`: element `j` and the conjugate at element `M − j` (R190). -/
def finIG (s : State) (j : Nat) : List Store :=
  lanes.flatMap fun q =>
    storeV s.sq.dstsel j q ((finIGLanes s j).nth q) ++
      storeV s.sq.dstsel (s.columns - j) q (conj ((finIGLanes s j).nth q))

/-! ### Columns of each uop (R180, R184 to R186) -/

/-- The G columns of the Edge butterfly: `1 .. min(3, M/2 − 1)` (R184, R191). -/
def edgeColumns (m : Nat) : List Nat := (List.range (min 3 (m / 2 - 1))).map (· + 1)

/-- The G columns of interior iteration `i`: `4 + 4i .. 7 + 4i` (R186, R193). -/
def interiorColumns (i : Nat) : List Nat := lanes.map (4 + 4 * i + ·)

/-- The words `FIN.EDGE.F` stores (R184). -/
def finEdgeForwardStores (s : State) : List Store :=
  finFZ s ++ (edgeColumns s.columns).flatMap (finFG s) ++ (if s.columns = 4 then finFH s else [])

/-- The words `FIN.INT.F i` stores (R186). -/
def finInteriorForwardStores (s : State) (i : Nat) : List Store := (interiorColumns i).flatMap (finFG s)

/-- The words `FIN.EDGE.I` stores (R191). -/
def finEdgeInverseStores (s : State) : List Store :=
  finIZ s ++ (edgeColumns s.columns).flatMap (finIG s) ++ (if s.columns = 4 then finIH s else [])

/-- The words `FIN.INT.I i` stores (R193). -/
def finInteriorInverseStores (s : State) (i : Nat) : List Store := (interiorColumns i).flatMap (finIG s)

/-! ### The uops -/

/-- `FIN.EDGE.F` (R184). -/
def execFinEdgeF (s : State) : Host.Outcome State Fault Refusal :=
  issue .forward true (inFinalizerPass s.sq) s (s.storeWords (finEdgeForwardStores s)).advance

/-- `FIN.SEC.F`, `M ≥ 8` (R185). -/
def execFinSecF (s : State) : Host.Outcome State Fault Refusal :=
  issue .forward true (inFinalizerPass s.sq && decide (8 ≤ s.columns)) s (s.storeWords (finFH s)).advance

/-- `FIN.INT.F i`, `M ≥ 16` (R186). -/
def execFinIntF (i : BitVec 24) (s : State) : Host.Outcome State Fault Refusal :=
  issue .forward (inInteriorRange s.sq i) (inFinalizerPass s.sq && decide (16 ≤ s.columns)) s
    (s.storeWords (finInteriorForwardStores s i.toNat)).advance

/-- `FIN.EDGE.I` (R191). -/
def execFinEdgeI (s : State) : Host.Outcome State Fault Refusal :=
  issue .inverse true (inFinalizerPass s.sq) s (s.storeWords (finEdgeInverseStores s)).advance

/-- `FIN.SEC.I`, `M ≥ 8` (R192). -/
def execFinSecI (s : State) : Host.Outcome State Fault Refusal :=
  issue .inverse true (inFinalizerPass s.sq && decide (8 ≤ s.columns)) s (s.storeWords (finIH s)).advance

/-- `FIN.INT.I i`, `M ≥ 16` (R193). -/
def execFinIntI (i : BitVec 24) (s : State) : Host.Outcome State Fault Refusal :=
  issue .inverse (inInteriorRange s.sq i) (inFinalizerPass s.sq && decide (16 ≤ s.columns)) s
    (s.storeWords (finInteriorInverseStores s i.toNat)).advance

end Sys2Proof.Machine
end

