-- ==== Sys2Proof/Machine/Uprog.lean ====
section
/-! DEFINITION. The uop list `uprog` of a call as a function of the latched sequencer registers (43_sequencer.md R158), the
word the sequencer puts on the command bus (30_encoding.md R100), and the placing of a given instruction where
the next step takes it. -/

namespace Sys2Proof.Machine

/-- The uops that take an index, as `REP` repeats them (30_encoding.md R109). -/
inductive Indexed where
  | r4fF | r4fI | r4fIS | r4tF | r4tI | r8F | r8I | r8IS | finIntF | finIntI
  deriving DecidableEq, Repr

/-- The uop with a given index. -/
def Indexed.uop : Indexed → BitVec 24 → Instr
  | .r4fF, f => .r4fF f
  | .r4fI, f => .r4fI f
  | .r4fIS, f => .r4fIS f
  | .r4tF, b => .r4tF b
  | .r4tI, b => .r4tI b
  | .r8F, f => .r8F f
  | .r8I, f => .r8I f
  | .r8IS, f => .r8IS f
  | .finIntF, i => .finIntF i
  | .finIntI, i => .finIntI i

/-- One line of the listing of `uprog`, with the value `SQ.STAGE` has while it runs: one uop, or `REP x, n`
(30_encoding.md R109, 43_sequencer.md R158). -/
inductive Line where
  | one (stage : Nat) (i : Instr)
  | rep (stage : Nat) (x : Indexed) (n : Nat)
  deriving DecidableEq, Repr

/-- How many uops a line stands for. -/
def Line.count : Line → Nat
  | .one _ _ => 1
  | .rep _ _ n => n

/-- `SQ.STAGE` while the line runs. -/
def Line.stage : Line → Nat
  | .one st _ => st
  | .rep st _ _ => st

/-- Uop `n` of a line. -/
def Line.uop : Line → Nat → Instr
  | .one _ i, _ => i
  | .rep _ x _, n => x.uop (BitVec.ofNat 24 n)

/-! ### `uprog` (R158) -/

/-- `nI = (M − 8) div 8`, 0 for `M < 8`. -/
def interiorCount (m : Nat) : Nat := (m - 8) / 8

/-- `K1F`. -/
def firstKernelForward (q : Sequencer) : Indexed := if q.r1 = 8#4 then .r8F else .r4fF

/-- `K1I`: the scaled form iff `SQ.SCALEF = 1`. -/
def firstKernelInverse (q : Sequencer) : Indexed :=
  if q.r1 = 8#4 then (if q.scalef then .r8IS else .r8I) else (if q.scalef then .r4fIS else .r4fI)

/-- `F1 = SQ.ST_F[1]`. -/
def firstCount (q : Sequencer) : Nat := ((q.stF[0]?).getD 0).toNat

/-- `uprog(forward)`. -/
def forwardLines (q : Sequencer) : List Line :=
  let m := q.m.toNat
  let l := q.l.toNat
  [.one 1 .seqBeginF, .rep 1 (firstKernelForward q) (firstCount q), .one 1 .seqNextF] ++
    ((List.range (l - 1)).flatMap fun t => [.rep (t + 2) .r4tF (m / 4), .one (t + 2) .seqNextF]) ++
    [.one (l + 1) .finEdgeF] ++ (if 8 ≤ m then [.one (l + 1) .finSecF] else []) ++
    [.rep (l + 1) .finIntF (interiorCount m), .one (l + 1) .packF, .one (l + 1) .seqEndF]

/-- `uprog(inverse)`. -/
def inverseLines (q : Sequencer) : List Line :=
  let m := q.m.toNat
  let l := q.l.toNat
  [.one (l + 1) .seqBeginI, .one (l + 1) .unpackI, .one (l + 1) .finEdgeI] ++
    (if 8 ≤ m then [.one (l + 1) .finSecI] else []) ++
    [.rep (l + 1) .finIntI (interiorCount m), .one (l + 1) .seqNextI] ++
    ((List.range (l - 1)).flatMap fun t => [.rep (l - t) .r4tI (m / 4), .one (l - t) .seqNextI]) ++
    [.rep 1 (firstKernelInverse q) (firstCount q), .one 1 .restoreI, .one 1 .seqEndI]

/-- The lines of `uprog` for the latched registers; the first depends on `SQ.DIR` only. -/
def uprogLines (q : Sequencer) : List Line :=
  match q.dir with
  | .forward => forwardLines q
  | .inverse => inverseLines q

/-- The uop at a position of a listing, counting each `REP` as its uops. -/
def uopAt : List Line → Nat → Option Instr
  | [], _ => none
  | ln :: rest, n => if n < ln.count then some (ln.uop n) else uopAt rest (n - ln.count)

/-- `len(uprog)` (R164). -/
def uprogLength (q : Sequencer) : Nat := ((uprogLines q).map Line.count).sum

/-- The word on the command bus: `uprog[SQ.UPC]` (R158, 30_encoding.md R100). -/
def State.busWord (s : State) : Option Word :=
  (uopAt (uprogLines s.sq) s.sq.upc.toNat).map encode

/-! ### Placing an instruction where the next step takes it (log 9) -/

/-- The position of a uop in a line. -/
def Line.find (ln : Line) (i : Instr) : Option Nat :=
  match ln with
  | .one _ j => if j = i then some 0 else none
  | .rep _ x n => if i.index.toNat < n ∧ x.uop i.index = i then some i.index.toNat else none

/-- The first position of a uop in a listing, and `SQ.STAGE` there. -/
def locate : List Line → Instr → Option (Nat × Nat)
  | [], _ => none
  | ln :: rest, i =>
    match ln.find i with
    | some n => some (n, ln.stage)
    | none => (locate rest i).map fun p => (p.1 + ln.count, p.2)

/-- The smallest `k` in `start, start + 2, ..., start + 26` that satisfies `ok`. -/
def smallestLog2 (start : Nat) (ok : Nat → Bool) : Nat :=
  (((List.range 14).map fun t => start + 2 * t).find? ok).getD 30

/-- The `log2 N` of a call that issues the uop. An index beyond the range of every call the core accepts gets a larger
`k`, so that the uop is issued all the same. -/
def homeLog2 : Instr → Nat
  | .r4fF f | .r4fI f | .r4fIS f => smallestLog2 4 fun k => decide (f.toNat < 2 ^ (k - 4))
  | .r4tF b | .r4tI b => smallestLog2 6 fun k => decide (b.toNat < 2 ^ (k - 4))
  | .r8F f | .r8I f | .r8IS f => smallestLog2 5 fun k => decide (f.toNat < 2 ^ (k - 5))
  | .finIntF i | .finIntI i => smallestLog2 6 fun k => decide (i.toNat < 2 ^ (k - 5) - 1)
  | .finSecF | .finSecI => 5
  | .seqBeginF | .seqBeginI | .seqNextF | .seqNextI | .seqEndF | .seqEndI
  | .finEdgeF | .finEdgeI | .packF | .unpackI | .restoreI | .fwd | .inv => 4

/-- The `D` bit of an instruction's word (30_encoding.md R101). -/
def uopDirection (i : Instr) : Direction :=
  if (encode i).getLsbD 24 then .inverse else .forward

/-- The `S` bit of an instruction's word (30_encoding.md R101). -/
def uopScaled (i : Instr) : Bool := (encode i).getLsbD 25

/-- The latches of a running call of size `2^k` (43_sequencer.md R154 to R157). -/
def latchedFor (q : Sequencer) (k : Nat) (dir : Direction) (scalef : Bool) : Sequencer :=
  { q with
    busy := true, done := false, dir := dir,
    n := BitVec.ofNat 32 (2 ^ k), k := BitVec.ofNat 5 k, m := BitVec.ofNat 32 (2 ^ (k - 2)),
    l := BitVec.ofNat 4 (min (driverPasses k) Config.stageDepth), r1 := BitVec.ofNat 4 (firstRadix k),
    scalef := scalef, scale := BitVec.ofNat 32 (127 - k) <<< 23,
    stM := Vector.ofFn fun t => BitVec.ofNat 32 (driverMstride k (t.val + 1)),
    stF := Vector.ofFn fun t => BitVec.ofNat 32 (2 ^ (k - 2) / firstRadix k / 4 ^ t.val),
    stTW := Vector.ofFn fun t => BitVec.ofNat 32 (twiddleOffset k (t.val + 2)) }

/-- The state in which the core's next step issues the uop `i`: the latches of a call that contains it and `SQ.UPC`,
`SQ.STAGE` at its place; the host leaves the core its turn. -/
def State.placeUop (s : State) (i : Instr) : State :=
  let q := latchedFor s.sq (homeLog2 i) (uopDirection i) (uopScaled i)
  match locate (uprogLines q) i with
  | some (n, st) =>
    { s with
      sq := { q with upc := BitVec.ofNat 32 n, stage := BitVec.ofNat 4 st }, events := .coreTurn :: s.events }
  | none => { s with sq := q, events := .coreTurn :: s.events }

/-- The state whose next step runs the word `w`: a uop is placed in a call that issues it; any other word is written to
`CMD` by the host, which runs a command and refuses the rest (30_encoding.md R100, R107). -/
def State.placeWord (s : State) (w : Word) : State :=
  match decodeUop w with
  | .ok i => s.placeUop i
  | .error _ => { s with events := .regWrite 0x00#6 .word w :: s.events }

end Sys2Proof.Machine
end

