-- ==== Sys2Proof/Machine/PackScale.lean ====
section
/-! DEFINITION. Pack and unpack of the Nyquist bin (45_pack_scale.md R200 to R202). They address `CR[DST]` and `CR[SRC]`
directly. -/

namespace Sys2Proof.Machine

/-- Address of complex slot `N/2` of a region, `base + 8·h` with `h = SQ.N >> 1` (R200, R201). -/
def nyquistSlot (base : Word) (q : Sequencer) : Word := slot base (q.n >>> 1).toNat

/-- The uop before `SEQ.END.*`: the position of `PACK.F` and of `RESTORE.I` (R200, R202, 43_sequencer.md R158; log 10). -/
def beforeTheEnd (q : Sequencer) : Bool := decide (q.upc.toNat + 2 = uprogLength q)

/-- The words `PACK.F` stores, in the order of R200. -/
def packStores (s : State) : List Store :=
  [⟨nyquistSlot s.cr.dst s.sq, s.word (s.cr.dst + 4)⟩, ⟨s.cr.dst + 4, 0⟩, ⟨nyquistSlot s.cr.dst s.sq + 4, 0⟩]

/-- `PACK.F`, after the finalizer pass (R200). -/
def execPackF (s : State) : Host.Outcome State Fault Refusal :=
  issue .forward true (inFinalizerPass s.sq && beforeTheEnd s.sq) s (s.storeWords (packStores s)).advance

/-- `SQ.SAVE0I <- v` (R201). -/
def State.saveWord (s : State) (v : Word) : State := { s with sq := { s.sq with save0i := v } }

/-- `UNPACK.I`, as `uprog[1]` (R201). -/
def execUnpackI (s : State) : Host.Outcome State Fault Refusal :=
  issue .inverse true (s.sq.upc == 1#32) s
    ((s.saveWord (s.word (s.cr.src + 4))).storeWords
      [⟨s.cr.src + 4, s.word (nyquistSlot s.cr.src s.sq)⟩]).advance

/-- `RESTORE.I`, as the uop before `SEQ.END.I` (R202). -/
def execRestoreI (s : State) : Host.Outcome State Fault Refusal :=
  issue .inverse true (beforeTheEnd s.sq) s
    (s.storeWords [⟨s.cr.src + 4, s.sq.save0i⟩]).advance

end Sys2Proof.Machine
end

