-- ==== Sys2Proof/Machine/R4f.lean ====
section
/-! DEFINITION. The radix-4 butterfly kernel, twiddle-free (40_r4f.md R120 to R122), driver stage 1 of a call whose
`SQ.R1` is 4. -/

namespace Sys2Proof.Machine

/-- Element `p` on the strided side of butterfly `f` of stage 1, of either radix: `f + p·F` with `F = SQ.ST_F[1]`
(R120, 42_r8.md R140; 43_sequencer.md R168 with `m = 1`). -/
def firstStrided (q : Sequencer) (f p : Nat) : Nat := f + p * (q.stFAt 1).toNat

/-- Element `u` on the contiguous side of butterfly `f` of stage 1 with radix `r`: `r·f + u` (R120, 42_r8.md R140;
43_sequencer.md R168 with `m = 1`). -/
def firstBlocked (r f u : Nat) : Nat := r * f + u

/-- Lane `q` of the four inputs of `R4F.F f`: real samples `F` elements apart (R120). -/
def r4fSamples (s : State) (f q : Nat) : Quad Cplx :=
  quadOf fun p => s.loadR s.sq.srcsel (firstStrided s.sq f p) q

/-- The words `R4F.F f` stores: output `u` at element `4·f + u` (R120). -/
def r4fForwardStores (s : State) (f : Nat) : List Store :=
  lanes.flatMap fun q =>
    lanes.flatMap fun u => storeV s.sq.dstsel (firstBlocked 4 f u) q ((bfly4Fwd (r4fSamples s f q)).nth u)

/-- Lane `q` of the tree's outputs of `R4F.I f` and `R4F.IS f` (R121). -/
def r4fInverseTree (s : State) (f q : Nat) : Quad Cplx :=
  bfly4Inv (quadOf fun u => s.loadV s.sq.srcsel (firstBlocked 4 f u) q)

/-- The words `R4F.I f` and `R4F.IS f` store: the real part of output `p` at element `f + p·F`, put through the
store path `g` (R121, R122). -/
def r4fInverseStores (s : State) (f : Nat) (g : F32 → F32) : List Store :=
  lanes.flatMap fun q =>
    lanes.flatMap fun p =>
      storeR s.sq.dstsel (firstStrided s.sq f p) q (g ((r4fInverseTree s f q).nth p).r)

/-- The inverse scaling unit: one `fmul` by `SQ.SCALE` on a word about to be stored (45_pack_scale.md R203). -/
def scaleUnit (q : Sequencer) (v : F32) : F32 := fmul v q.scale

/-- `R4F.F f` (R120). -/
def execR4fF (f : BitVec 24) (s : State) : Host.Outcome State Fault Refusal :=
  issue .forward (inRadix4Range s.sq f) (inFirstStage s.sq 4) s
    (s.storeWords (r4fForwardStores s f.toNat)).advance

/-- `R4F.I f`, only in a call without scaling (R121). -/
def execR4fI (f : BitVec 24) (s : State) : Host.Outcome State Fault Refusal :=
  issue .inverse (inRadix4Range s.sq f) (inFirstStage s.sq 4 && !s.sq.scalef) s
    (s.storeWords (r4fInverseStores s f.toNat id)).advance

/-- `R4F.IS f`, only in a call with scaling (R122). -/
def execR4fIS (f : BitVec 24) (s : State) : Host.Outcome State Fault Refusal :=
  issue .inverse (inRadix4Range s.sq f) (inFirstStage s.sq 4 && s.sq.scalef) s
    (s.storeWords (r4fInverseStores s f.toNat (scaleUnit s.sq))).advance

end Sys2Proof.Machine
end

