-- ==== Sys2Proof/Machine/R4t.lean ====
section
/-! DEFINITION. The radix-4 butterfly kernel, twiddle-applying (41_r4t.md R130, R131), driver stages `2..L`. -/

namespace Sys2Proof.Machine

/-- `m = SQ.ST_M[s]` of the current stage (R130). -/
def stageM (q : Sequencer) : Nat := (q.stMAt q.stage.toNat).toNat

/-- `F = SQ.ST_F[s]` of the current stage (R130). -/
def stageF (q : Sequencer) : Nat := (q.stFAt q.stage.toNat).toNat

/-- `tw = SQ.ST_TW[s]` of the current stage (R130). -/
def stageTW (q : Sequencer) : Nat := (q.stTWAt q.stage.toNat).toNat

/-- Element `p` on the strided side of butterfly `b`: `(f + p·F)·m + j` with `f = b div m`, `j = b mod m`
(R130, 43_sequencer.md R168). -/
def r4tStrided (q : Sequencer) (b p : Nat) : Nat :=
  (b / stageM q + p * stageF q) * stageM q + b % stageM q

/-- Element `u` on the contiguous side: `f·4m + j + u·m` (R130, 43_sequencer.md R168). -/
def r4tBlocked (q : Sequencer) (b u : Nat) : Nat :=
  b / stageM q * (4 * stageM q) + b % stageM q + u * stageM q

/-- `w[p]`, the twiddle of input `p ∈ 1..3` in the table at `table` (R130, 20_memory.md R79). -/
def r4tTwiddle (s : State) (table : Word) (b p : Nat) : Cplx :=
  s.complexAt (slot table (stageTW s.sq + (p - 1) * stageM s.sq + b % stageM s.sq))

/-- Multiplies components 1 to 3 by the twiddles; component 0 is not rotated (R130, R131). -/
def rotateQuad (t : Quad Cplx) (w : Nat → Cplx) : Quad Cplx :=
  ⟨t.x0, cmul t.x1 (w 1), cmul t.x2 (w 2), cmul t.x3 (w 3)⟩

/-- Lane `q` of the outputs of `R4T.F b`: rotation by `TWF`, then the tree (R130). -/
def r4tForwardTree (s : State) (b q : Nat) : Quad Cplx :=
  bfly4Fwd (rotateQuad (quadOf fun p => s.loadV s.sq.srcsel (r4tStrided s.sq b p) q)
    (r4tTwiddle s s.cr.twf b))

/-- The words `R4T.F b` stores (R130). -/
def r4tForwardStores (s : State) (b : Nat) : List Store :=
  lanes.flatMap fun q =>
    lanes.flatMap fun u => storeV s.sq.dstsel (r4tBlocked s.sq b u) q ((r4tForwardTree s b q).nth u)

/-- Lane `q` of the outputs of `R4T.I b`: the tree, then rotation by `TWB` (R131). -/
def r4tInverseTree (s : State) (b q : Nat) : Quad Cplx :=
  rotateQuad (bfly4Inv (quadOf fun u => s.loadV s.sq.srcsel (r4tBlocked s.sq b u) q))
    (r4tTwiddle s s.cr.twb b)

/-- The words `R4T.I b` stores (R131). -/
def r4tInverseStores (s : State) (b : Nat) : List Store :=
  lanes.flatMap fun q =>
    lanes.flatMap fun p => storeV s.sq.dstsel (r4tStrided s.sq b p) q ((r4tInverseTree s b q).nth p)

/-- `R4T.F b` (R130). -/
def execR4tF (b : BitVec 24) (s : State) : Host.Outcome State Fault Refusal :=
  issue .forward (inRadix4Range s.sq b) (inOuterStage s.sq) s
    (s.storeWords (r4tForwardStores s b.toNat)).advance

/-- `R4T.I b` (R131). -/
def execR4tI (b : BitVec 24) (s : State) : Host.Outcome State Fault Refusal :=
  issue .inverse (inRadix4Range s.sq b) (inOuterStage s.sq) s
    (s.storeWords (r4tInverseStores s b.toNat)).advance

end Sys2Proof.Machine
end

