-- ==== Sys2Proof/Machine/R8.lean ====
section
/-! DEFINITION. The radix-8 fused butterfly kernel (42_r8.md R140 to R142), driver stage 1 of a call whose `SQ.R1`
is 8. -/

namespace Sys2Proof.Machine

/-- The eight output positions of the radix-8 kernel. -/
def eightElements : List Nat := [0, 1, 2, 3, 4, 5, 6, 7]

/-- `rot8_p` on component `p` (R140, 00_scope.md R24). -/
def rot8Quad (t : Quad Cplx) : Quad Cplx := ⟨t.x0, rot8x1 t.x1, rot8x2 t.x2, rot8x3 t.x3⟩

/-- `rot8c_p` on component `p` (R141, 00_scope.md R24). -/
def rot8cQuad (t : Quad Cplx) : Quad Cplx := ⟨t.x0, rot8c1 t.x1, rot8c2 t.x2, rot8c3 t.x3⟩

/-- The forward radix-8 butterfly on one lane: the radix-2 level on inputs `p` and `p + 4`, then the two trees; output
`2u` is the even tree's `u`, output `2u + 1` the odd tree's (R140). -/
def bfly8Fwd (a : Nat → Cplx) (v : Nat) : Cplx :=
  let even := bfly4Fwd (quadOf fun p => cadd (a p) (a (p + 4)))
  let odd := bfly4Fwd (rot8Quad (quadOf fun p => csub (a p) (a (p + 4))))
  if v % 2 = 0 then even.nth (v / 2) else odd.nth (v / 2)

/-- The inverse radix-8 butterfly on one lane, real parts only: output `p < 4` is `lo[p]`, output `p + 4` is `hi[p]`
(R141). -/
def bfly8Inv (c : Nat → Cplx) (v : Nat) : F32 :=
  let d0 := bfly4Inv (quadOf fun u => c (2 * u))
  let d1 := rot8cQuad (bfly4Inv (quadOf fun u => c (2 * u + 1)))
  if v < 4 then fadd (d0.nth v).r (d1.nth v).r else fsub (d0.nth (v - 4)).r (d1.nth (v - 4)).r

/-- Lane `q`, output `v` of `R8.F f` (R140). -/
def r8ForwardOut (s : State) (f q v : Nat) : Cplx :=
  bfly8Fwd (fun p => s.loadR s.sq.srcsel (firstStrided s.sq f p) q) v

/-- The words `R8.F f` stores: output `v` at element `8·f + v` (R140). -/
def r8ForwardStores (s : State) (f : Nat) : List Store :=
  lanes.flatMap fun q =>
    eightElements.flatMap fun v => storeV s.sq.dstsel (firstBlocked 8 f v) q (r8ForwardOut s f q v)

/-- Lane `q`, output `v` of `R8.I f`, before the store path (R141). -/
def r8InverseOut (s : State) (f q v : Nat) : F32 :=
  bfly8Inv (fun u => s.loadV s.sq.srcsel (firstBlocked 8 f u) q) v

/-- The words `R8.I f` and `R8.IS f` store: output `v` at element `f + v·F`, put through the store path `g`
(R141, R142). -/
def r8InverseStores (s : State) (f : Nat) (g : F32 → F32) : List Store :=
  lanes.flatMap fun q =>
    eightElements.flatMap fun v =>
      storeR s.sq.dstsel (firstStrided s.sq f v) q (g (r8InverseOut s f q v))

/-- `R8.F f` (R140). -/
def execR8F (f : BitVec 24) (s : State) : Host.Outcome State Fault Refusal :=
  issue .forward (inRadix8Range s.sq f) (inFirstStage s.sq 8) s
    (s.storeWords (r8ForwardStores s f.toNat)).advance

/-- `R8.I f`, only in a call without scaling (R141). -/
def execR8I (f : BitVec 24) (s : State) : Host.Outcome State Fault Refusal :=
  issue .inverse (inRadix8Range s.sq f) (inFirstStage s.sq 8 && !s.sq.scalef) s
    (s.storeWords (r8InverseStores s f.toNat id)).advance

/-- `R8.IS f`, only in a call with scaling (R142). -/
def execR8IS (f : BitVec 24) (s : State) : Host.Outcome State Fault Refusal :=
  issue .inverse (inRadix8Range s.sq f) (inFirstStage s.sq 8 && s.sq.scalef) s
    (s.storeWords (r8InverseStores s f.toNat (scaleUnit s.sq))).advance

end Sys2Proof.Machine
end

