-- ==== Sys2Proof/Machine/Sequencer.lean ====
section
/-! DEFINITION. The six `SEQ.*` uops (43_sequencer.md R156, R157, R159, R160, R162, R163). -/

namespace Sys2Proof.Machine

/-! ### Reading the factor list (20_memory.md R78, 43_sequencer.md R155, R156) -/

/-- Word `n` of the factor list at `CR[FACTORS]` (20_memory.md R78). -/
def factorWord (s : State) (n : Nat) : Word := s.word (s.cr.factors + BitVec.ofNat 32 (4 * n))

/-- `rx[0] = 2`: the radix-2 factor is present and fused (R155). -/
def fused (s : State) : Bool := factorWord s 3 == 2#32

/-- `L`, the driver passes after fusion (R155, R156). -/
def passCount (s : State) : Word := if fused s then factorWord s 0 - 1 else factorWord s 0

/-- `R1` (R155, R156). -/
def radixOne (s : State) : BitVec 4 := if fused s then 8#4 else 4#4

/-- `F1` (R155, R156). -/
def strideOne (s : State) : Word := if fused s then factorWord s 1 >>> 2 else factorWord s 1

/-- `ms[first + s − 2]`, the `mstride` of driver stage `s ≥ 2` (R156). -/
def listMstride (s : State) (stage : Nat) : Word :=
  factorWord s (2 + 2 * ((if fused s then 2 else 1) + stage - 2))

/-- `ST_F[n + 1]`: `F1` shifted right by 2 once for each later stage (R156). -/
def listFstride (s : State) : Nat → Word
  | 0 => strideOne s
  | n + 1 => listFstride s n >>> 2

/-- `ST_TW[n + 2]`: 0, then `3·ST_M` more for each stage (R156). -/
def listTwiddle (s : State) : Nat → Word
  | 0 => 0
  | n + 1 => listTwiddle s n + 3 * listMstride s (n + 2)

/-- `SQ.SCALE`: the pattern `(127 − K) << 23` (10_state.md R49, 45_pack_scale.md R204). -/
def scaleConstant (k : BitVec 5) : F32 := (127#32 - k.setWidth 32) <<< 23

/-- Everything `SEQ.BEGIN.*` latches, common to both directions (R156, R157). The loop runs over the stages `2..L`
that the tables have entries for; entries above `L` keep what they hold (10_state.md R48; log 13). -/
def State.latchPlan (s : State) (scalef : Bool) (stage : BitVec 4) : State :=
  let n := s.cr.nfft
  let passes := (passCount s).toNat
  let k := BitVec.ofNat 5 (Nat.log2 n.toNat)
  { s with
    sq := { s.sq with
      n := n
      k := k
      m := n >>> 2
      l := (passCount s).setWidth 4
      r1 := radixOne s
      scalef := scalef
      scale := scaleConstant k
      stM := Vector.ofFn fun t =>
        if t.val = 0 then 1 else if t.val + 1 ≤ passes then listMstride s (t.val + 1) else s.sq.stM[t]
      stF := Vector.ofFn fun t =>
        if t.val = 0 ∨ t.val + 1 ≤ passes then listFstride s t.val else s.sq.stF[t]
      stTW := Vector.ofFn fun t =>
        if t.val + 2 ≤ passes then listTwiddle s t.val else s.sq.stTW[t]
      stage := stage
      srcsel := s.cr.src
      dstsel := if passes % 2 = 0 then s.cr.dst else s.cr.scratch } }

/-- `SEQ.BEGIN.F` (R156). -/
def execSeqBeginF (s : State) : Host.Outcome State Fault Refusal :=
  issue .forward true true s (s.latchPlan false 1).advance

/-- `SEQ.BEGIN.I` (R157). -/
def execSeqBeginI (s : State) : Host.Outcome State Fault Refusal :=
  issue .inverse true true s
    (s.latchPlan (scaleInverse s.cr.flags) ((passCount s).setWidth 4 + 1)).advance

/-! ### The end of a pass (R159, R160, R161) -/

/-- The buffers change roles: the destination becomes the source, the other working buffer the destination; `STAGE`
takes the given value (R159). -/
def State.swapBuffers (s : State) (stage : BitVec 4) : State :=
  { s with
    sq := { s.sq with
      srcsel := s.sq.dstsel
      dstsel := if s.sq.dstsel = s.cr.dst then s.cr.scratch else s.cr.dst
      stage := stage } }

/-- `SEQ.NEXT.F` (R159). -/
def execSeqNextF (s : State) : Host.Outcome State Fault Refusal :=
  issue .forward true true s (s.swapBuffers (s.sq.stage + 1)).advance

/-- `SEQ.NEXT.I` (R160). -/
def execSeqNextI (s : State) : Host.Outcome State Fault Refusal :=
  issue .inverse true true s (s.swapBuffers (s.sq.stage - 1)).advance

/-! ### The end of a call -/

/-- `SEQ.END.F`: `upc` is not changed (R162). -/
def execSeqEndF (s : State) : Host.Outcome State Fault Refusal :=
  issue .forward true true s s.finishCall.endUop

/-- `SEQ.END.I` (R163). -/
def execSeqEndI (s : State) : Host.Outcome State Fault Refusal :=
  issue .inverse true true s s.finishCall.endUop

end Sys2Proof.Machine
end

