-- ==== Sys2Proof/Machine/Dispatch.lean ====
section
/-! DEFINITION. The meaning of each instruction, one arm per constructor of Instr. -/

namespace Sys2Proof.Machine

def exec (i : Instr) (s : State) : Host.Outcome State Fault Refusal :=
  match i with
  | .seqBeginF => Sys2Proof.Machine.execSeqBeginF s
  | .seqBeginI => Sys2Proof.Machine.execSeqBeginI s
  | .seqNextF => Sys2Proof.Machine.execSeqNextF s
  | .seqNextI => Sys2Proof.Machine.execSeqNextI s
  | .seqEndF => Sys2Proof.Machine.execSeqEndF s
  | .seqEndI => Sys2Proof.Machine.execSeqEndI s
  | .r4fF f => Sys2Proof.Machine.execR4fF f s
  | .r4fI f => Sys2Proof.Machine.execR4fI f s
  | .r4fIS f => Sys2Proof.Machine.execR4fIS f s
  | .r4tF b => Sys2Proof.Machine.execR4tF b s
  | .r4tI b => Sys2Proof.Machine.execR4tI b s
  | .r8F f => Sys2Proof.Machine.execR8F f s
  | .r8I f => Sys2Proof.Machine.execR8I f s
  | .r8IS f => Sys2Proof.Machine.execR8IS f s
  | .finEdgeF => Sys2Proof.Machine.execFinEdgeF s
  | .finEdgeI => Sys2Proof.Machine.execFinEdgeI s
  | .finSecF => Sys2Proof.Machine.execFinSecF s
  | .finSecI => Sys2Proof.Machine.execFinSecI s
  | .finIntF n => Sys2Proof.Machine.execFinIntF n s
  | .finIntI n => Sys2Proof.Machine.execFinIntI n s
  | .packF => Sys2Proof.Machine.execPackF s
  | .unpackI => Sys2Proof.Machine.execUnpackI s
  | .restoreI => Sys2Proof.Machine.execRestoreI s
  | .fwd => Sys2Proof.Machine.execFwd s
  | .inv => Sys2Proof.Machine.execInv s

end Sys2Proof.Machine
end

