-- ==== Sys2Proof/Machine/HostPort.lean ====
section
/-! DEFINITION. What one action of the host does (10_state.md R31 to R36, R43, R44; 70_reset_and_hazards.md R230, R232,
R236), and the core's own step (00_scope.md R16, 43_sequencer.md R158, 60_exceptions.md R223). -/

namespace Sys2Proof.Machine

/-! ### The register block -/

/-- A host access is one aligned 32-bit word (R44; log 15). -/
def wholeWordAccess (offset : BitVec 6) (width : AccessWidth) : Bool :=
  width == .word && offset.toNat % 4 == 0

/-- A write of `v` to `CMD`: a command, or a reserved value (R32, 30_encoding.md R102, R107). -/
def commandWrite (v : Word) (s : State) : Host.Outcome State Fault Refusal :=
  match decodeCommand v with
  | .ok i => exec i s
  | .error _ => .refused .reservedCommand

/-- A host write to the block. Reserved offsets and `STATUS` ignore it (R33, R44). DESIGN CHOICE: a narrow or unaligned
write while `BUSY = 1` meets both reasons of 60_exceptions.md R211, `bad_register_access` (R44) and `write_while_busy`
(R43), and a write of a reserved value to `CMD` then meets `write_while_busy` and `reserved_command` (R32), pairs the
spec does not order: the form of the access is checked first, then the register, then `BUSY`, then
the value written to `CMD` (log 28). -/
def regWriteStep (offset : BitVec 6) (width : AccessWidth) (v : Word) (s : State) :
    Host.Outcome State Fault Refusal :=
  if !wholeWordAccess offset width then .refused .badRegisterAccess
  else
    match regAt offset with
    | none => .next s
    | some r =>
      if s.sq.busy then .refused .writeWhileBusy
      else if r = .cmd then commandWrite v s
      else .next (s.writeReg r v)

/-- A host read of the block, allowed at any time. Reserved offsets read zero (R43, R44). -/
def regReadStep (offset : BitVec 6) (width : AccessWidth) (s : State) : Host.Outcome State Fault Refusal :=
  if !wholeWordAccess offset width then .refused .badRegisterAccess
  else .next (s.answerWord (((regAt offset).map s.readReg).getD 0))

/-! ### The shared memory (R236; log 16) -/

/-- `log2 N` of the running call: the Plan registers cannot change while it runs (R43). -/
def callLog2 (s : State) : Nat := Nat.log2 s.cr.nfft.toNat

/-- The address belongs to a region of the running call. -/
def inRunningCall (s : State) (a : Word) : Bool :=
  (callRegions s.cr s.sq.dir (callLog2 s)).any fun r => r.holds a.toNat

/-- A host read there returns no defined data while the call runs: the two working regions, and the bin-0 slot of an
inverse call's input (R236). -/
def unsettledAddress (s : State) (a : Word) : Bool :=
  (destinationRegion s.cr (callLog2 s)).holds a.toNat || (scratchRegion s.cr (callLog2 s)).holds a.toNat ||
    (s.sq.dir == .inverse && (Region.mk s.cr.src.toNat 8).holds a.toNat)

/-- A host write of consecutive bytes: refused where it touches a region of the running call (R236). -/
def memWriteStep (addr : Word) (bytes : List Byte) (s : State) : Host.Outcome State Fault Refusal :=
  if s.sq.busy && (List.range bytes.length).any fun n => inRunningCall s (addr + BitVec.ofNat 32 n) then
    .refused .hostAccessWhileBusy
  else .next (s.hostWrite addr bytes)

/-- One byte of a host read: free where the running call leaves it unsettled (R236; log 16). -/
def hostReadByte (s : State) (a : Word) : Byte :=
  if s.sq.busy && unsettledAddress s a then Config.busyReadByte s.draws a.toNat else s.byteAt a

/-- A host read of consecutive bytes. -/
def memReadStep (addr : Word) (count : Nat) (s : State) : Host.Outcome State Fault Refusal :=
  .next { s with
    hostBytes := (List.range count).map fun n => hostReadByte s (addr + BitVec.ofNat 32 n), draws := s.draws + 1 }

/-! ### The core's step -/

/-- One step of the core: idle while `BUSY = 0` (60_exceptions.md R223), otherwise the uop on the command bus
(00_scope.md R16; 30_encoding.md R100, R106). -/
def coreStep (s : State) : Host.Outcome State Fault Refusal :=
  if s.sq.busy then
    match s.busWord with
    | none => .refused .pastEndOfProgram
    | some w =>
      match decodeUop w with
      | .ok i => exec i s
      | .error _ => .refused .illegalWord
  else .next s

/-- What one action of the host does. -/
def hostStep (e : HostEvent) (s : State) : Host.Outcome State Fault Refusal :=
  match e with
  | .coreTurn => coreStep s
  | .regWrite offset width v => regWriteStep offset width v s
  | .regRead offset width => regReadStep offset width s
  | .memWrite addr bytes => memWriteStep addr bytes s
  | .memRead addr count => memReadStep addr count s
  | .reset => .next s.resetEvent

/-- One step of the machine: the host's next action, or the core's step where none is pending (log 8). -/
def machineStep (s : State) : Host.Outcome State Fault Refusal :=
  match s.events with
  | [] => coreStep s
  | e :: rest => hostStep e { s with events := rest }

end Sys2Proof.Machine
end

