-- ==== Sys2Proof/Safety.lean ====
section
/-! DEFINITION. What counts as a safe run, in the terms the statements use: the invariant every step keeps, what a uop
leaves alone, and the regions of memory a statement speaks of. -/

namespace Sys2Proof.Machine

/-! ### The invariant -/

/-- `SQ.DSTSEL` by the ping-pong rule (43_sequencer.md R161): a pass with an even number of passes after it writes
`CR[DST]`, the others `CR[SCRATCH]`. The number of passes after the current one is `L + 1 − STAGE` forward and
`STAGE − 1` inverse. -/
def pingPong (s : State) : Bool :=
  let after : BitVec 4 :=
    match s.sq.dir with
    | .forward => s.sq.l + 1 - s.sq.stage
    | .inverse => s.sq.stage - 1
  s.sq.dstsel == (if after.getLsbD 0 then s.cr.scratch else s.cr.dst)

/-- The latches agree with the Plan registers they were computed from (10_state.md R48, R49, 43_sequencer.md R156,
R157). -/
structure Latched (s : State) : Prop where
  n_eq : s.sq.n = s.cr.nfft
  k_eq : s.sq.k = BitVec.ofNat 5 (Nat.log2 s.cr.nfft.toNat)
  m_eq : s.sq.m = s.cr.nfft >>> 2
  scale_eq : s.sq.scale = scaleConstant s.sq.k
  scalef_eq : s.sq.scalef = (s.sq.dir == .inverse && scaleInverse s.cr.flags)
  radix_eq : s.sq.r1 = 4 ∨ s.sq.r1 = 8
  buffers : pingPong s = true

/-- The invariant of the machine: the memory is canonical, the bytes the host has written are bytes of it (log 12), `FLAGS[31:1]` is zero (10_state.md R36), `BUSY` and `DONE` are
never both set (60_exceptions.md R214), and from the second uop of a call on the latches agree with the Plan (R48). -/
structure Invariant (s : State) : Prop where
  memory_wf : Memory.wf s.mem = true
  hostWritten_wf : AddressSet.wf s.hostWritten = true
  hostWritten_listed : ∀ a ∈ s.hostWritten, (Memory.byte? s.mem a).isSome = true
  flags_reserved : s.cr.flags &&& 0xFFFFFFFE#32 = 0
  status_exclusive : ¬ (s.sq.busy = true ∧ s.sq.done = true)
  latched : s.sq.busy = true → s.sq.upc ≠ 0 → Latched s

/-! ### What a uop leaves alone -/

/-- Everything but memory, the sequencer registers, the vector registers (unspecified after every uop, 10_state.md R55)
and the counter that numbers their draws is as before. -/
structure SameOutside (s t : State) : Prop where
  cr_eq : t.cr = s.cr
  hostWritten_eq : t.hostWritten = s.hostWritten
  events_eq : t.events = s.events
  hostWord_eq : t.hostWord = s.hostWord
  hostBytes_eq : t.hostBytes = s.hostBytes

/-- A uop that writes memory only: every register but `SQ.UPC`, which advances by one, is as before
(10_state.md R46). -/
structure OnlyMemoryAndUpc (s t : State) : Prop extends SameOutside s t where
  sq_eq : t.sq = { s.sq with upc := s.sq.upc + 1 }

/-- A uop that writes sequencer registers only: every byte of memory reads as before. -/
structure OnlySequencer (s t : State) : Prop extends SameOutside s t where
  mem_eq : t.mem = s.mem

/-- The byte at `x` is one of the `n` bytes from `base` up (addresses modulo `2^32`). -/
def inBytes (base : Word) (n : Nat) (x : Word) : Prop := (x - base).toNat < n

/-- Every byte of memory outside the set reads as before. -/
def SameMemoryOutside (stored : Word → Prop) (s t : State) : Prop :=
  ∀ x : Word, ¬ stored x → t.byteAt x = s.byteAt x

/-- The byte at `x` belongs to one of the complex slots `n` of the region at `base` for which `written n` holds. -/
def inSlots (base : Word) (written : Nat → Prop) (x : Word) : Prop :=
  ∃ n, written n ∧ inBytes (slot base n) 8 x

/-- The byte at `x` belongs to one of the vector-complex elements `e` of the region at `base` for which `written e`
holds. -/
def inElements (base : Word) (written : Nat → Prop) (x : Word) : Prop :=
  ∃ e, written e ∧ inBytes (ea base e 0) 32 x

/-! ### What the plan latch and the finalizer columns leave, read off the pseudocode -/

/-- Word `n` of the factor list (20_memory.md R78). -/
def listWord (s : State) (n : Nat) : Word := s.word (s.cr.factors + BitVec.ofNat 32 (4 * n))

/-- What `SEQ.BEGIN.*` latches (43_sequencer.md R156, R157): `L` is `sc − 1` and `R1` is 8 where `radix_0 = 2`, otherwise
`L = sc` and `R1 = 4`; the stage tables hold the list's `mstride`, the shifted `fstride` and the running twiddle
offset for the stages up to `L`, and keep what they hold above it. -/
structure PlanLatched (s t : State) (inverse : Bool) : Prop where
  n_eq : t.sq.n = s.cr.nfft
  k_eq : t.sq.k = BitVec.ofNat 5 (Nat.log2 s.cr.nfft.toNat)
  m_eq : t.sq.m = s.cr.nfft >>> 2
  l_eq : t.sq.l = (if listWord s 3 = 2 then listWord s 0 - 1 else listWord s 0).setWidth 4
  r1_eq : t.sq.r1 = if listWord s 3 = 2 then 8 else 4
  scale_eq : t.sq.scale = (127 - t.sq.k.setWidth 32) <<< 23
  scalef_eq : t.sq.scalef = (inverse && s.cr.flags.getLsbD 0)
  stage_eq : t.sq.stage = if inverse then t.sq.l + 1 else 1
  srcsel_eq : t.sq.srcsel = s.cr.src
  dstsel_eq : t.sq.dstsel = if t.sq.l.getLsbD 0 then s.cr.scratch else s.cr.dst
  upc_eq : t.sq.upc = s.sq.upc + 1
  kept : t.sq.busy = s.sq.busy ∧ t.sq.done = s.sq.done ∧ t.sq.dir = s.sq.dir ∧ t.sq.save0i = s.sq.save0i
  stage_one : t.sq.stMAt 1 = 1 ∧ t.sq.stFAt 1 = if listWord s 3 = 2 then listWord s 1 >>> 2 else listWord s 1
  stages : ∀ n, 2 ≤ n → n ≤ Config.stageDepth →
    n ≤ (if listWord s 3 = 2 then listWord s 0 - 1 else listWord s 0).toNat →
      t.sq.stMAt n = listWord s (if listWord s 3 = 2 then 2 + 2 * n else 2 * n) ∧
      t.sq.stFAt n = t.sq.stFAt (n - 1) >>> 2 ∧
      t.sq.stTWAt n = if n = 2 then 0 else t.sq.stTWAt (n - 1) + 3 * t.sq.stMAt (n - 1)
  above : ∀ n, 2 ≤ n → n ≤ Config.stageDepth →
    (if listWord s 3 = 2 then listWord s 0 - 1 else listWord s 0).toNat < n →
      t.sq.stMAt n = s.sq.stMAt n ∧ t.sq.stFAt n = s.sq.stFAt n ∧ t.sq.stTWAt n = s.sq.stTWAt n

/-- Column 0 after a forward finalizer uop (44_finalizer.md R181). -/
def ForwardZ (s t : State) : Prop :=
  let a := fun q => s.word (ea s.sq.srcsel 0 q)
  t.complexAt (slot s.sq.dstsel 0) =
      ⟨fadd (fadd (a 0) (a 2)) (fadd (a 1) (a 3)), fsub (fadd (a 0) (a 2)) (fadd (a 1) (a 3))⟩ ∧
    t.complexAt (slot s.sq.dstsel s.sq.m.toNat) = ⟨fsub (a 0) (a 2), fneg (fsub (a 1) (a 3))⟩

/-- Column `M/2` after a forward finalizer uop (44_finalizer.md R182). -/
def ForwardH (s t : State) : Prop :=
  let b := fun q => s.word (ea s.sq.srcsel (s.sq.m.toNat / 2) q)
  let w1 := s.complexAt (slot s.cr.stw 1)
  let w3 := s.complexAt (slot s.cr.stw 3)
  let s2 : Cplx := ⟨fadd (fmul (b 1) w1.r) (fmul (b 3) w3.r), fadd (fmul (b 1) w1.i) (fmul (b 3) w3.i)⟩
  let s3 : Cplx := ⟨fsub (fmul (b 1) w1.r) (fmul (b 3) w3.r), fsub (fmul (b 1) w1.i) (fmul (b 3) w3.i)⟩
  t.complexAt (slot s.sq.dstsel (s.sq.m.toNat / 2)) = ⟨fadd (b 0) s2.r, fadd (fneg (b 2)) s2.i⟩ ∧
    t.complexAt (slot s.sq.dstsel (3 * s.sq.m.toNat / 2)) = ⟨fadd (b 0) s3.i, fsub (b 2) s3.r⟩

/-- A G column `j` after a forward finalizer uop (44_finalizer.md R183). -/
def ForwardG (s t : State) (j : Nat) : Prop :=
  let y := fun q => s.complexAt (ea s.sq.srcsel j q)
  let w := fun q => s.complexAt (slot s.cr.stw (4 + 12 * (j / 4) + 4 * (q - 1) + j % 4))
  let o := bfly4Fwd ⟨y 0, cmul (y 1) (w 1), cmul (y 2) (w 2), cmul (y 3) (w 3)⟩
  let m := s.sq.m.toNat
  t.complexAt (slot s.sq.dstsel j) = o.x0 ∧ t.complexAt (slot s.sq.dstsel (m + j)) = o.x1 ∧
    t.complexAt (slot s.sq.dstsel (2 * m - j)) = ⟨o.x2.r, fneg o.x2.i⟩ ∧
    t.complexAt (slot s.sq.dstsel (m - j)) = ⟨o.x3.r, fneg o.x3.i⟩

/-- Element 0 after an inverse finalizer uop (44_finalizer.md R187). -/
def InverseZ (s t : State) : Prop :=
  let b := s.complexAt (slot s.sq.srcsel 0)
  let c := s.complexAt (slot s.sq.srcsel s.sq.m.toNat)
  t.complexAt (ea s.sq.dstsel 0 0) = ⟨fadd (fadd b.r b.i) (fadd c.r c.r), 0⟩ ∧
    t.complexAt (ea s.sq.dstsel 0 1) = ⟨fsub (fsub b.r b.i) (fadd c.i c.i), 0⟩ ∧
    t.complexAt (ea s.sq.dstsel 0 2) = ⟨fsub (fadd b.r b.i) (fadd c.r c.r), 0⟩ ∧
    t.complexAt (ea s.sq.dstsel 0 3) = ⟨fadd (fsub b.r b.i) (fadd c.i c.i), 0⟩

/-- Element `M/2` after an inverse finalizer uop (44_finalizer.md R188). -/
def InverseH (s t : State) : Prop :=
  let p := s.complexAt (slot s.sq.srcsel (s.sq.m.toNat / 2))
  let q := s.complexAt (slot s.sq.srcsel (3 * s.sq.m.toNat / 2))
  let w1 := s.complexAt (slot s.cr.stw 1)
  let w3 := s.complexAt (slot s.cr.stw 3)
  let u := fadd p.r q.r
  let v := fsub q.i p.i
  let e := fsub (fsub p.r q.r) (fadd p.i q.i)
  let k := fadd (fsub p.r q.r) (fadd p.i q.i)
  let h := s.sq.m.toNat / 2
  t.complexAt (ea s.sq.dstsel h 0) = ⟨fadd u u, 0⟩ ∧
    t.complexAt (ea s.sq.dstsel h 1) = ⟨fadd (fmul e w1.r) (fmul (fneg e) w1.i), 0⟩ ∧
    t.complexAt (ea s.sq.dstsel h 2) = ⟨fadd v v, 0⟩ ∧
    t.complexAt (ea s.sq.dstsel h 3) = ⟨fadd (fmul k w3.r) (fmul k w3.i), 0⟩

/-- Elements `j` and `M − j` after an inverse finalizer uop (44_finalizer.md R190). -/
def InverseG (s t : State) (j : Nat) : Prop :=
  let m := s.sq.m.toNat
  let w := fun q => s.complexAt (slot s.cr.stw (4 + 12 * (j / 4) + 4 * (q - 1) + j % 4))
  let d := bfly4Inv ⟨s.complexAt (slot s.sq.srcsel j), s.complexAt (slot s.sq.srcsel (m + j)),
    conj (s.complexAt (slot s.sq.srcsel (2 * m - j))), conj (s.complexAt (slot s.sq.srcsel (m - j)))⟩
  let y : Quad Cplx := ⟨d.x0, cmulc d.x1 (w 1), cmulc d.x2 (w 2), cmulc d.x3 (w 3)⟩
  ∀ q, q < 4 → t.complexAt (ea s.sq.dstsel j q) = y.nth q ∧
    t.complexAt (ea s.sq.dstsel (m - j) q) = ⟨(y.nth q).r, fneg (y.nth q).i⟩

/-! ### The length of a call -/

/-- `len(uprog)` of a call of size `2^k` by the formula of 43_sequencer.md R164. -/
def callLength (dir : Direction) (k : Nat) : Nat :=
  let m := 2 ^ (k - 2)
  let nf := 1 + (if 8 ≤ m then 1 else 0) + (m - 8) / 8
  (match dir with
    | .forward => 4
    | .inverse => 5) + m / firstRadix k + (driverPasses k - 1) * (m / 4 + 1) + nf

/-! ### Finite values -/

/-- A finite `f32`: neither a NaN nor an infinity. -/
def f32Finite (a : F32) : Bool := f32Exp a != 255

/-- `r` is the exact value `exact · 2^−(149 + u)` rounded to nearest, ties to even (00_scope.md R17): below the threshold
`2^128 − 2^103`, halfway between the largest finite value and `2^128`, a finite value that no finite value is nearer than and
whose pattern is even in a tie; from the threshold on the infinity of the exact sign. -/
def RoundsTo (r : F32) (exact : Int) (u : Nat) : Prop :=
  (|exact| < 2 ^ (277 + u) - 2 ^ (252 + u) → f32Finite r = true ∧
    ∀ c : F32, f32Finite c = true →
      |f32Int r * 2 ^ u - exact| ≤ |f32Int c * 2 ^ u - exact| ∧
      (|f32Int c * 2 ^ u - exact| = |f32Int r * 2 ^ u - exact| → f32Int c ≠ f32Int r → r.getLsbD 0 = false)) ∧
  (2 ^ (277 + u) - 2 ^ (252 + u) ≤ |exact| → r = if exact < 0 then 0xFF800000#32 else 0x7F800000#32)

/-! ### The items of the launch contract (43_sequencer.md R153) -/

/-- Item (c): the seven bases are multiples of 16. -/
def BasesAligned (c : Control) : Prop :=
  ∀ b ∈ [c.factors, c.twf, c.twb, c.stw, c.scratch, c.src, c.dst], b.toNat % 16 = 0

/-- Item (d), 20_memory.md R84: no region goes past `2^32`. -/
def RegionsFit (c : Control) (dir : Direction) (k : Nat) : Prop :=
  ∀ r ∈ callRegions c dir k, r.base + r.size ≤ 2 ^ 32

/-- Item (d), 20_memory.md R85: no byte is shared between two of the data regions, or between one of them and the factor
list or a table. -/
def NoByteShared (c : Control) (dir : Direction) (k : Nat) : Prop :=
  ∀ x : Nat,
    let inSrc := (sourceRegion c dir k).holds x = true
    let inDst := (destinationRegion c k).holds x = true
    let inScr := (scratchRegion c k).holds x = true
    let inTab := ∃ r ∈ readOnlyRegions c k, r.holds x = true
    ¬ (inSrc ∧ inDst) ∧ ¬ (inSrc ∧ inScr) ∧ ¬ (inDst ∧ inScr) ∧ ¬ ((inSrc ∨ inDst ∨ inScr) ∧ inTab)

/-- Item (e): memory holds `canon(k)` at `CR[FACTORS]`. -/
def CanonicalList (s : State) (k : Nat) : Prop :=
  ∀ n v, (canon k)[n]? = some v →
    Memory.word? s.mem (s.cr.factors + BitVec.ofNat 32 (4 * n)) = some (BitVec.ofNat 32 v)

/-- The host has written all four bytes of the word at `a` (log 12). -/
def FromHost (s : State) (a : Word) : Prop := ∀ n, n < 4 → (a + BitVec.ofNat 32 n).toNat ∈ s.hostWritten

/-- Item (f): the host has written the factor list, the twiddle blocks of the direction, the super-twiddle slots the
finalizer reads, and the input (for `INV` without the last imaginary word). -/
def InputsFromHost (s : State) (dir : Direction) (k : Nat) : Prop :=
  (∀ n, n < (canon k).length → FromHost s (s.cr.factors + BitVec.ofNat 32 (4 * n))) ∧
  (∀ n, n < 2 * twiddleOffset k (driverPasses k + 1) →
    FromHost s ((match dir with
      | .forward => s.cr.twf
      | .inverse => s.cr.twb) + BitVec.ofNat 32 (4 * n))) ∧
  (∀ n, (n = 1 ∨ n = 3 ∨ ∃ q j, 1 ≤ q ∧ q ≤ 3 ∧ 1 ≤ j ∧ j < 2 ^ (k - 2) / 2 ∧ n = stwSlot q j) →
    FromHost s (slot s.cr.stw n) ∧ FromHost s (slot s.cr.stw n + 4)) ∧
  (∀ n, n < (match dir with
      | .forward => 2 ^ k
      | .inverse => 2 ^ k + 1) →
    FromHost s (s.cr.src + BitVec.ofNat 32 (4 * n)))

/-! ### Which elements a butterfly touches -/

/-- Every word stored is the real or the imaginary word of a lane of one of the `count` vector-complex elements. -/
def StoresInElements (base : Word) (element : Nat → Nat) (count : Nat) (l : List Store) : Prop :=
  ∀ st ∈ l, ∃ u q, u < count ∧ q < 4 ∧
    (st.addr = ea base (element u) q ∨ st.addr = ea base (element u) q + 4)

/-- Every word stored is a lane of one of the `count` real-vector elements. -/
def StoresInRealElements (base : Word) (element : Nat → Nat) (count : Nat) (l : List Store) : Prop :=
  ∀ st ∈ l, ∃ u q, u < count ∧ q < 4 ∧ st.addr = ra base (element u) q

/-- Two states read the same in the `count` vector-complex elements. -/
def SameElements (base : Word) (element : Nat → Nat) (count : Nat) (s t : State) : Prop :=
  ∀ u q, u < count → q < 4 → t.complexAt (ea base (element u) q) = s.complexAt (ea base (element u) q)

/-- Two states read the same in the `count` real-vector elements. -/
def SameRealElements (base : Word) (element : Nat → Nat) (count : Nat) (s t : State) : Prop :=
  ∀ u q, u < count → q < 4 → t.word (ra base (element u) q) = s.word (ra base (element u) q)

end Sys2Proof.Machine
end

