-- ==== Sys2Proof/Certificates/Slice0/Obligations.lean ====
section
/-! DEFINITION. The statements for the provers. Each is about the machine, from the numbered rules of spec/. -/

open Sys2Proof Sys2Proof.Machine

/-! ### Encoding (30_encoding.md) -/

/-- Decoding the word of any instruction gives the instruction back, with every operand at every value, and so does
decoding its four bytes, whatever follows them. Fields of R101, R102, opcodes of R104. The byte order of the second clause,
byte 0 first, is the model's choice (log 19): uop words are not stored in memory (R100). -/
def Obligations.DecodeOfEncodeIsTheInstruction : Prop :=
  ∀ (i : Instr) (rest : List Byte),
    decodeWord (encode i) = .ok i ∧
    decode (byteOfWord (encode i) 0 :: byteOfWord (encode i) 1 :: byteOfWord (encode i) 2 ::
      byteOfWord (encode i) 3 :: rest) = .ok (i, rest)

/-- The decoder accepts no second word for an instruction: a word it reads as `i` is the word of `i`. -/
def Obligations.DecodedWordIsTheEncoding : Prop :=
  ∀ (w : Word) (i : Instr), decodeWord w = .ok i → encode i = w

/-- A word is a uop exactly when one row's match and mask accept it (R104, R106). -/
def Obligations.UopWordsAreThoseOfTheOpcodeTable : Prop :=
  ∀ w : Word, (∃ i, decodeUop w = .ok i) ↔
    (∃ row ∈ ([(0x10000000, 0xFFFFFFFF), (0x11000000, 0xFFFFFFFF), (0x14000000, 0xFFFFFFFF),
        (0x15000000, 0xFFFFFFFF), (0x18000000, 0xFFFFFFFF), (0x19000000, 0xFFFFFFFF),
        (0x20000000, 0xFF000000), (0x21000000, 0xFF000000), (0x23000000, 0xFF000000),
        (0x30000000, 0xFF000000), (0x31000000, 0xFF000000), (0x40000000, 0xFF000000),
        (0x41000000, 0xFF000000), (0x43000000, 0xFF000000), (0x50000000, 0xFFFFFFFF),
        (0x51000000, 0xFFFFFFFF), (0x54000000, 0xFFFFFFFF), (0x55000000, 0xFFFFFFFF),
        (0x58000000, 0xFF000000), (0x59000000, 0xFF000000), (0x60000000, 0xFFFFFFFF),
        (0x61000000, 0xFFFFFFFF), (0x65000000, 0xFFFFFFFF)] : List (Word × Word)),
      w &&& row.2 = row.1)

/-- Words written out from the encoding rules and the spec's vectors V90 to V100 decode as the spec says. -/
def Obligations.SampleWordsDecodeAsTheSpecSays : Prop :=
  decodeUop 0x10000000#32 = .ok .seqBeginF ∧ decodeUop 0x20000003#32 = .ok (.r4fF 3) ∧
  decodeUop 0x23000000#32 = .ok (.r4fIS 0) ∧ decodeUop 0x310FFFFF#32 = .ok (.r4tI 1048575) ∧
  decodeUop 0x43000001#32 = .ok (.r8IS 1) ∧ decodeUop 0x58000005#32 = .ok (.finIntF 5) ∧
  decodeUop 0x65000000#32 = .ok .restoreI ∧ decodeUop 0x22000000#32 = .error .reservedOpcode ∧
  decodeUop 0x50000001#32 = .error .nonzeroIndex ∧ decodeUop 0x70000000#32 = .error .reservedUnit ∧
  decodeUop 0x64000000#32 = .error .reservedOpcode ∧
  decodeCommand 0x00000001#32 = .ok .fwd ∧ decodeCommand 0x00000002#32 = .ok .inv ∧
  decodeCommand 0x00000003#32 = .error .reservedCommand

/-! ### The step -/

/-- While a call runs and it is the core's turn, the step is the meaning of the uop whose word is on the command bus.
The turns are the model's `events` (log 8). -/
def Obligations.StepRunsTheUopOnTheBus : Prop :=
  ∀ (s : State) (w : Word) (i : Instr), s.sq.busy = true → s.busWord = some w → decodeUop w = .ok i →
    (s.events = [] → step s = exec i s) ∧
    (∀ rest, s.events = .coreTurn :: rest → step s = exec i { s with events := rest })

/-- A host write of a command's code to `CMD` while the core is idle runs the command; any other value is refused. -/
def Obligations.CommandWriteRunsTheCommand : Prop :=
  ∀ (s : State) (v : Word) (rest : List HostEvent), s.events = .regWrite 0x00#6 .word v :: rest →
    s.sq.busy = false →
    (v = 1 → step s = exec .fwd { s with events := rest }) ∧
    (v = 2 → step s = exec .inv { s with events := rest }) ∧
    (v ≠ 1 → v ≠ 2 → step s = .refused .reservedCommand)

/-- A `CMD` value other than 1 and 2 is reserved: the host's write of it is refused (R107). -/
def Obligations.OtherCommandValuesAreReserved : Prop :=
  ∀ (s : State) (v : Word) (rest : List HostEvent), s.events = .regWrite 0x00#6 .word v :: rest →
    s.sq.busy = false → (step s = .refused .reservedCommand ↔ v ≠ 0x00000001#32 ∧ v ≠ 0x00000002#32)

/-- While `BUSY = 0` the core is idle (R223): its step changes no state, and no action of the host other than a `CMD` write
starts it; nothing but a memory write changes memory and nothing but a register write or a reset changes a register. -/
def Obligations.IdleCoreChangesNothing : Prop :=
  ∀ s : State, s.sq.busy = false →
    (s.events = [] → step s = .next s) ∧
    (∀ rest, s.events = .coreTurn :: rest → step s = .next { s with events := rest }) ∧
    (∀ e rest t, s.events = e :: rest → step s = .next t →
      (∀ v, e ≠ .regWrite 0x00#6 .word v) →
        t.sq.busy = false ∧
        ((∀ a bs, e ≠ .memWrite a bs) → t.mem = s.mem) ∧
        (e ≠ .reset → t.sq = s.sq ∧ t.vr = s.vr) ∧
        (e ≠ .reset → (∀ o w v, e ≠ .regWrite o w v) → t.cr = s.cr))

/-! ### The register block (10_state.md) -/

/-- After reset (R58): `BUSY`, `DONE`, `DIR`, `UPC` are 0, every register that holds state reads zero, and so does
`STATUS`. -/
def Obligations.ResetLeavesTheStatedValues : Prop :=
  let s := State.reset
  s.sq.busy = false ∧ s.sq.done = false ∧ s.sq.dir = .forward ∧ s.sq.upc = 0 ∧
  (∀ r ∈ ([.nfft, .factors, .twf, .twb, .stw, .scratch, .flags, .src, .dst] : List CtrlReg),
    s.readReg r = 0x00000000#32) ∧ s.readReg .status = 0x00000000#32

/-- The reset event at any time (R230): the state of R58 again, and memory untouched. -/
def Obligations.ResetEventClearsRegistersAndKeepsMemory : Prop :=
  ∀ (s : State) (rest : List HostEvent), s.events = .reset :: rest →
    ∃ t, step s = .next t ∧ t.sq.busy = false ∧ t.sq.done = false ∧ t.sq.dir = .forward ∧ t.sq.upc = 0 ∧
      (∀ r ∈ ([.nfft, .factors, .twf, .twb, .stw, .scratch, .flags, .src, .dst] : List CtrlReg),
        t.readReg r = 0x00000000#32) ∧ t.mem = s.mem

/-- The access rule of the block (R43), for the eleven registers at their offsets of R31: idle, every register may be
read, and written according to its access column (a plan register reads back what was written, `FLAGS` its bit 0,
`STATUS` ignores the write, `CMD` takes it as a command, refuses a reserved value and reads zero); busy, every register may
be read, and a write to any of them is refused as `write_while_busy`. That a busy write of a reserved value to `CMD`, to
which R32 applies too, gives this reason is the model's choice (log 28). -/
def Obligations.RegisterAccessRule : Prop :=
  ∀ (s : State) (o : BitVec 6) (r : CtrlReg) (v : Word) (rest : List HostEvent),
    (o, r) ∈ ([(0x00#6, .cmd), (0x04#6, .status), (0x08#6, .nfft), (0x0C#6, .factors), (0x10#6, .twf), (0x14#6, .twb),
      (0x18#6, .stw), (0x1C#6, .scratch), (0x20#6, .flags), (0x24#6, .src), (0x28#6, .dst)] :
        List (BitVec 6 × CtrlReg)) →
    (s.events = .regRead o .word :: rest →
      step s = .next { s with events := rest, hostWord := s.readReg r }) ∧
    (s.sq.busy = true → s.events = .regWrite o .word v :: rest → step s = .refused .writeWhileBusy) ∧
    (s.sq.busy = false → s.events = .regWrite o .word v :: rest → r ≠ .cmd → r ≠ .status →
      ∃ t, step s = .next t ∧ t.readReg r = (if r = .flags then v &&& 1 else v) ∧
        (∀ r', r' ≠ r → t.readReg r' = s.readReg r') ∧ t.sq = s.sq ∧ t.mem = s.mem) ∧
    (s.sq.busy = false → s.events = .regWrite o .word v :: rest → r = .status →
      step s = .next { s with events := rest }) ∧
    (s.sq.busy = false → s.events = .regWrite o .word v :: rest → r = .cmd →
      (v = 1 → step s = exec .fwd { s with events := rest }) ∧
      (v = 2 → step s = exec .inv { s with events := rest }) ∧
      (v ≠ 1 → v ≠ 2 → step s = .refused .reservedCommand)) ∧
    s.readReg .cmd = 0

/-- Reserved offsets read zero and, idle, ignore writes; an access narrower than 32 bits or not 4-byte aligned is refused
(R44). -/
def Obligations.ReservedOffsetsAndPartialAccesses : Prop :=
  ∀ (s : State) (o : BitVec 6) (w : AccessWidth) (v : Word) (rest : List HostEvent),
    (0x2C ≤ o.toNat → o.toNat % 4 = 0 →
      (s.events = .regRead o .word :: rest → step s = .next { s with events := rest, hostWord := 0 }) ∧
      (s.sq.busy = false → s.events = .regWrite o .word v :: rest → step s = .next { s with events := rest })) ∧
    (w = .byte ∨ w = .half ∨ o.toNat % 4 ≠ 0 →
      (s.events = .regRead o w :: rest → step s = .refused .badRegisterAccess) ∧
      (s.sq.busy = false → s.events = .regWrite o w v :: rest → step s = .refused .badRegisterAccess))

/-- `STATUS` shows `BUSY` in bit 0 and `DONE` in bit 1 and zero above (R33). -/
def Obligations.StatusShowsBusyAndDone : Prop :=
  ∀ s : State, (s.readReg .status).getLsbD 0 = s.sq.busy ∧ (s.readReg .status).getLsbD 1 = s.sq.done ∧
    ∀ n, 2 ≤ n → (s.readReg .status).getLsbD n = false

/-! ### Memory (20_memory.md) -/

/-- A word stored reads back, every byte outside it is as before, and the canonical form is kept; the byte order is
little-endian (R71, R76). -/
def Obligations.WordStoreReadsBackAndLeavesTheRest : Prop :=
  ∀ (m : Memory) (a v : Word),
    Memory.readWord (Memory.writeWord m a v) a = v ∧
    (∀ n, n < 4 → Memory.byteAt (Memory.writeWord m a v) (a + BitVec.ofNat 32 n).toNat = v.extractLsb' (8 * n) 8) ∧
    (∀ x : Word, 4 ≤ (x - a).toNat → Memory.byteAt (Memory.writeWord m a v) x.toNat = Memory.byteAt m x.toNat) ∧
    (Memory.wf m = true → Memory.wf (Memory.writeWord m a v) = true)

/-- A host write to a byte of a region of the running call is refused; a write that touches none of them, and any write
while the core is idle, is performed and makes that byte one the host has written, and a host read of a byte outside them
gives the byte in memory (R236). That all seven regions count, and that a write elsewhere is performed, are the model's
reading (log 16); what counts as written by the host is log 12. -/
def Obligations.HostMemoryAccessDuringACall : Prop :=
  ∀ (s : State) (a : Word) (b : Byte) (rest : List HostEvent),
    let k := Nat.log2 s.cr.nfft.toNat
    let touched := ∃ r ∈ callRegions s.cr s.sq.dir k, r.base ≤ a.toNat ∧ a.toNat < r.base + r.size
    (s.events = .memWrite a [b] :: rest → s.sq.busy = true → touched → step s = .refused .hostAccessWhileBusy) ∧
    (s.events = .memWrite a [b] :: rest → (s.sq.busy = true → ¬ touched) →
      ∃ t, step s = .next t ∧ t.byteAt a = b ∧ (∀ x, x ≠ a → t.byteAt x = s.byteAt x) ∧
        (∀ x, x ∈ t.hostWritten ↔ x = a.toNat ∨ x ∈ s.hostWritten) ∧ t.sq = s.sq ∧ t.cr = s.cr) ∧
    (s.events = .memRead a 1 :: rest → (s.sq.busy = true → ¬ touched) →
      ∃ t, step s = .next t ∧ t.hostBytes = [s.byteAt a] ∧ t.mem = s.mem ∧
        t.hostWritten = s.hostWritten ∧ t.sq = s.sq ∧ t.cr = s.cr)

/-! ### Arithmetic (00_scope.md) -/

/-- `fneg` inverts the sign bit and nothing else, for every pattern (R18). -/
def Obligations.NegationFlipsTheSignBitOnly : Prop :=
  ∀ a : F32, fneg a = a ^^^ 0x80000000#32 ∧ (fneg a).getLsbD 31 = !a.getLsbD 31 ∧
    (∀ n, n < 31 → (fneg a).getLsbD n = a.getLsbD n) ∧ fneg (fneg a) = a

/-- The sum and the difference of finite values, rounded once to nearest, ties to the even pattern (R17): finite exactly
when the exact value lies below `2^128 − 2^103`, then a nearest finite value; from there on the infinity of the exact sign.
Values are integers in units of `2^−149`. -/
def Obligations.FiniteSumIsCorrectlyRounded : Prop :=
  ∀ a b : F32, f32Finite a = true → f32Finite b = true →
    RoundsTo (fadd a b) (f32Int a + f32Int b) 0 ∧ RoundsTo (fsub a b) (f32Int a - f32Int b) 0

/-- The product of finite values, rounded once to nearest, ties to the even pattern (R17): finite exactly when the exact
value lies below `2^128 − 2^103`, then a nearest finite value; from there on the infinity of the exact sign. The exact product
is an integer in units of `2^−298`. -/
def Obligations.FiniteProductIsCorrectlyRounded : Prop :=
  ∀ a b : F32, f32Finite a = true → f32Finite b = true → RoundsTo (fmul a b) (f32Int a * f32Int b) 149

/-- Zeros, infinities and NaNs of `fadd`, `fsub` and `fmul` (R17, R19). Zeros: an exact zero sum or difference of finite
values is `+0.0`, so `x − x` is, but for `(−0.0) + (−0.0)` and `(−0.0) − (+0.0)`; a product has the sign of its factors, and
a zero factor of a finite one gives a zero. Infinities: an infinity absorbs a finite operand of a sum and a nonzero factor
of a product. A NaN operand or an invalid operation gives a quiet NaN, whatever its sign and payload. That bit 22 marks a
quiet NaN is PRESUMED (log 6). -/
def Obligations.ZerosAndNaNsOfTheArithmetic : Prop :=
  (∀ x : F32, f32Finite x = true → fsub x x = 0) ∧
  fadd 0x00000000#32 0x80000000#32 = 0 ∧ fadd 0x80000000#32 0x80000000#32 = 0x80000000#32 ∧
  (∀ a b : F32, f32Finite a = true → f32Finite b = true →
    (f32Int a + f32Int b = 0 → fadd a b = if f32Sign a && f32Sign b then 0x80000000#32 else 0x00000000#32) ∧
    (f32Int a - f32Int b = 0 → fsub a b = if f32Sign a && !f32Sign b then 0x80000000#32 else 0x00000000#32) ∧
    (f32Sign (fmul a b) = (f32Sign a != f32Sign b)) ∧
    (f32IsZero a = true ∨ f32IsZero b = true → f32IsZero (fmul a b) = true)) ∧
  (∀ a b : F32, f32IsInf a = true →
    (f32Finite b = true ∨ b = a → fadd a b = a ∧ fadd b a = a) ∧
    (f32Finite b = true ∨ b = fneg a → fsub a b = a ∧ fsub b a = fneg a) ∧
    (f32IsNaN b = false → f32IsZero b = false →
      let product := if f32Sign a = f32Sign b then 0x7F800000#32 else 0xFF800000#32
      fmul a b = product ∧ fmul b a = product)) ∧
  (∀ a b : F32, f32IsNaN a = true ∨ f32IsNaN b = true →
    ∀ r ∈ [fadd a b, fsub a b, fmul a b], f32IsNaN r = true ∧ r.getLsbD 22 = true) ∧
  (∀ a b : F32, f32IsInf a = true → f32IsInf b = true →
    (f32Sign a ≠ f32Sign b → f32IsNaN (fadd a b) = true ∧ (fadd a b).getLsbD 22 = true) ∧
    (f32Sign a = f32Sign b → f32IsNaN (fsub a b) = true ∧ (fsub a b).getLsbD 22 = true)) ∧
  (∀ a b : F32, f32IsInf a = true → f32IsZero b = true →
    f32IsNaN (fmul a b) = true ∧ (fmul a b).getLsbD 22 = true ∧
    f32IsNaN (fmul b a) = true ∧ (fmul b a).getLsbD 22 = true)

/-- `SQ.SCALE` is exactly `2^(−K)`: for every `K` the core accepts the pattern `(127 − K) << 23` is finite and `2^K` times
its value is 1 (`2^149` in units of `2^−149`); the values the rule lists (R204). -/
def Obligations.ScaleConstantIsTheReciprocalOfTheLength : Prop :=
  (∀ k, 4 ≤ k → k ≤ 24 → f32Finite (scaleConstant (BitVec.ofNat 5 k)) = true ∧
    f32Int (scaleConstant (BitVec.ofNat 5 k)) * 2 ^ k = 2 ^ 149) ∧
  scaleConstant 4 = 0x3D800000#32 ∧ scaleConstant 5 = 0x3D000000#32 ∧ scaleConstant 6 = 0x3C800000#32 ∧
  scaleConstant 7 = 0x3C000000#32 ∧ scaleConstant 8 = 0x3B800000#32 ∧ scaleConstant 10 = 0x3A800000#32 ∧
  scaleConstant 24 = 0x33800000#32

/-! ### Host commands (43_sequencer.md) -/

/-- What `WF` says, item by item (R153): idle, `N = 2^k` with `4 ≤ k ≤ 24`, aligned bases, no region past `2^32`, no byte
shared between the data regions or with the list and the tables, the canonical factor list, and every word the call
reads written by the host. Both twiddle tables count as regions in either direction (log 11), a word counts as the host's
whatever a uop stored there later (log 12), and the values in the tables are not looked at (log 27). -/
def Obligations.LaunchContractItemByItem : Prop :=
  ∀ (dir : Direction) (s : State), launchable dir s = true ↔
    ∃ k, 4 ≤ k ∧ k ≤ 24 ∧ s.cr.nfft.toNat = 2 ^ k ∧ s.sq.busy = false ∧ BasesAligned s.cr ∧ RegionsFit s.cr dir k ∧
      NoByteShared s.cr dir k ∧ CanonicalList s k ∧ InputsFromHost s dir k

/-- `FWD` and `INV` (R150, R151): busy, the command is refused as `write_while_busy`; outside the launch contract it is
refused as the general reason or one of its three particular cases; where the contract holds it completes with `BUSY` set,
`DONE` cleared, the direction taken, `UPC` 0, and nothing else changed. -/
def Obligations.CommandsStartACallWhereTheContractHolds : Prop :=
  decodeCommand 0x00000001#32 = .ok .fwd ∧ decodeCommand 0x00000002#32 = .ok .inv ∧
  ∀ (s : State) (dir : Direction),
    let command : Instr := match dir with
      | .forward => .fwd
      | .inverse => .inv
    (s.sq.busy = true → exec command s = .refused .writeWhileBusy) ∧
    (s.sq.busy = false → launchable dir s = false →
      ∃ r ∈ [Refusal.contractViolation, .misalignedBase, .regionWraps, .regionsOverlap], exec command s = .refused r) ∧
    (launchable dir s = true → exec command s =
      .next { s with sq := { s.sq with busy := true, done := false, dir := dir, upc := 0 } })

/-- Which reason a refused command gives (R211; the order of the reasons is the model's, log 11): an `N` out of range is the
general reason, whatever else fails; then a misaligned base; then a region that wraps; then any overlap, a byte that two data
regions share or a data region and the list or a table; then, as the general reason again, a list that is not canonical or
a word of the list, the tables or the input that the host has not written. -/
def Obligations.CommandsAreRefusedOutsideTheContract : Prop :=
  ∀ (s : State) (dir : Direction),
    let command : Instr := match dir with
      | .forward => .fwd
      | .inverse => .inv
    s.sq.busy = false →
      ((∀ k, 4 ≤ k → k ≤ 24 → s.cr.nfft.toNat ≠ 2 ^ k) → exec command s = .refused .contractViolation) ∧
      (∀ k, 4 ≤ k → k ≤ 24 → s.cr.nfft.toNat = 2 ^ k →
        (¬ BasesAligned s.cr → exec command s = .refused .misalignedBase) ∧
        (BasesAligned s.cr → ¬ RegionsFit s.cr dir k → exec command s = .refused .regionWraps) ∧
        (BasesAligned s.cr → RegionsFit s.cr dir k → ¬ NoByteShared s.cr dir k →
          exec command s = .refused .regionsOverlap) ∧
        (BasesAligned s.cr → RegionsFit s.cr dir k → NoByteShared s.cr dir k →
          ¬ CanonicalList s k ∨ ¬ InputsFromHost s dir k → exec command s = .refused .contractViolation))

/-! ### The sequencer (43_sequencer.md) -/

/-- `SEQ.BEGIN.F` and `SEQ.BEGIN.I` latch the Plan (R156, R157), and touch nothing but sequencer registers. For a list or an
`N` outside the contract the latched values are the model's reading (log 13, log 25). -/
def Obligations.SeqBeginLatchesThePlan : Prop :=
  ∀ s : State,
    (s.sq.dir = .forward →
      ∃ t, exec .seqBeginF s = .next t ∧ OnlySequencer s t ∧ PlanLatched s t false) ∧
    (s.sq.dir = .inverse →
      ∃ t, exec .seqBeginI s = .next t ∧ OnlySequencer s t ∧ PlanLatched s t true)

/-- On the canonical list of `N = 2^k` the latch gives the plan of R155: `L = (k − 2) div 2`, `r_1` by the parity of `k`,
`F_1 = M/r_1`, and for the later stages `m_s·F_s = M/4` with `F_L = 1`. -/
def Obligations.SeqBeginOnTheCanonicalList : Prop :=
  ∀ (s : State) (k : Nat), 4 ≤ k → k ≤ 24 → s.cr.nfft.toNat = 2 ^ k →
    (∀ n v, (canon k)[n]? = some v → s.word (s.cr.factors + BitVec.ofNat 32 (4 * n)) = BitVec.ofNat 32 v) →
    ∀ (i : Instr) (t : State), i = .seqBeginF ∨ i = .seqBeginI → exec i s = .next t →
      t.sq.k.toNat = k ∧ t.sq.m.toNat = 2 ^ (k - 2) ∧ t.sq.l.toNat = (k - 2) / 2 ∧
      t.sq.r1.toNat = (if k % 2 = 0 then 4 else 8) ∧ t.sq.stMAt 1 = 1 ∧
      (t.sq.stFAt 1).toNat * t.sq.r1.toNat = 2 ^ (k - 2) ∧
      (∀ n, 2 ≤ n → n ≤ (k - 2) / 2 → (t.sq.stMAt n).toNat = driverMstride k n ∧
        (t.sq.stMAt n).toNat * (t.sq.stFAt n).toNat = 2 ^ (k - 2) / 4 ∧
        (t.sq.stTWAt n).toNat = twiddleOffset k n) ∧
      (t.sq.stFAt ((k - 2) / 2)).toNat = 1

/-- `SEQ.NEXT.F` and `SEQ.NEXT.I` exchange the buffer roles and step the stage up or down; nothing else changes
(R159, R160). -/
def Obligations.SeqNextSwapsTheBuffers : Prop :=
  decodeUop 0x14000000#32 = .ok .seqNextF ∧ decodeUop 0x15000000#32 = .ok .seqNextI ∧
  ∀ s : State,
    (s.sq.dir = .forward → ∃ t, exec .seqNextF s = .next t ∧ OnlySequencer s t ∧
      t.sq = { s.sq with
        srcsel := s.sq.dstsel
        dstsel := if s.sq.dstsel = s.cr.dst then s.cr.scratch else s.cr.dst
        stage := s.sq.stage + 1
        upc := s.sq.upc + 1 }) ∧
    (s.sq.dir = .inverse → ∃ t, exec .seqNextI s = .next t ∧ OnlySequencer s t ∧
      t.sq = { s.sq with
        srcsel := s.sq.dstsel
        dstsel := if s.sq.dstsel = s.cr.dst then s.cr.scratch else s.cr.dst
        stage := s.sq.stage - 1
        upc := s.sq.upc + 1 })

/-- `SEQ.END.F` and `SEQ.END.I` clear `BUSY` and set `DONE`, leave `UPC` and memory alone, `STATUS` then reads 2, the core
executes no step after it until the host acts, and the host reads what the call wrote (R162, R163). -/
def Obligations.SeqEndFinishesTheCall : Prop :=
  ∀ (s : State) (i : Instr) (w : Word),
    (i = .seqEndF ∧ w = 0x18000000#32 ∧ s.sq.dir = .forward) ∨
      (i = .seqEndI ∧ w = 0x19000000#32 ∧ s.sq.dir = .inverse) →
    decodeUop w = .ok i ∧
    ∃ t, exec i s = .next t ∧ OnlySequencer s t ∧ t.sq = { s.sq with busy := false, done := true } ∧
      t.readReg .status = 0x00000002#32 ∧ (t.events = [] → step t = .next t) ∧
      (∀ a rest, t.events = .memRead a 1 :: rest →
        ∃ u, step t = .next u ∧ u.hostBytes = [s.byteAt a] ∧ u.sq = t.sq ∧ u.mem = s.mem)

/-- The length of `uprog` by its formula, for any latched registers with `L ≥ 1` (R164). -/
def Obligations.UprogHasTheStatedLength : Prop :=
  ∀ q : Sequencer, 1 ≤ q.l.toNat →
    let m := q.m.toNat
    let nf := 1 + (if 8 ≤ m then 1 else 0) + (if 8 ≤ m then (m - 8) / 8 else 0)
    uprogLength q =
      (match q.dir with
        | .forward => 4
        | .inverse => 5) + (q.stFAt 1).toNat + (q.l.toNat - 1) * (m / 4 + 1) + nf

/-- The rows of R164's table: the canonical list, `L`, `R1`, `F1` and the two lengths for `k = 4..11`. -/
def Obligations.UprogLengthTable : Prop :=
  ∀ row ∈ ([(4, [1, 1, 1, 4], 1, 4, 1, 6, 7), (5, [2, 4, 1, 2, 2, 4], 1, 8, 1, 7, 8),
      (6, [2, 4, 1, 4, 4, 4], 2, 4, 4, 16, 17), (7, [3, 16, 1, 2, 2, 4, 8, 4], 2, 8, 4, 22, 23),
      (8, [3, 16, 1, 4, 4, 4, 16, 4], 3, 4, 16, 63, 64),
      (9, [4, 64, 1, 2, 2, 4, 8, 4, 32, 4], 3, 8, 16, 103, 104),
      (10, [4, 64, 1, 4, 4, 4, 16, 4, 64, 4], 4, 4, 64, 296, 297),
      (11, [5, 256, 1, 2, 2, 4, 8, 4, 32, 4, 128, 4], 4, 8, 64, 520, 521)] :
        List (Nat × List Nat × Nat × Nat × Nat × Nat × Nat)),
    let k := row.1
    canon k = row.2.1 ∧ driverPasses k = row.2.2.1 ∧ firstRadix k = row.2.2.2.1 ∧
    2 ^ (k - 2) / firstRadix k = row.2.2.2.2.1 ∧
    callLength .forward k = row.2.2.2.2.2.1 ∧ callLength .inverse k = row.2.2.2.2.2.2

/-- `SQ.UPC` is set to 0 when a command is accepted, advances by 1 with every uop except `SEQ.END.*`, and is not changed by
those (R46, R165). -/
def Obligations.UpcAdvancesByOneExceptAtTheEnd : Prop :=
  ∀ (i : Instr) (s t : State), exec i s = .next t →
    t.sq.upc = (if i = .fwd ∨ i = .inv then 0 else if i = .seqEndF ∨ i = .seqEndI then s.sq.upc else s.sq.upc + 1)

/-- No uop and no command writes a control register, and none of them touches the host's side (R35, R91); `BUSY` changes
only at a command and at `SEQ.END.*` (R33). -/
def Obligations.NoInstructionWritesAControlRegister : Prop :=
  ∀ (i : Instr) (s t : State), exec i s = .next t →
    SameOutside s t ∧
    t.sq.busy = (if i = .fwd ∨ i = .inv then true else if i = .seqEndF ∨ i = .seqEndI then false else s.sq.busy) ∧
    ((i = .fwd ∨ i = .inv ∨ i = .seqBeginF ∨ i = .seqBeginI ∨ i = .seqNextF ∨ i = .seqNextI ∨ i = .seqEndF ∨
      i = .seqEndI) → t.mem = s.mem)

/-- The sequencer never puts an illegal opcode on the command bus (R106): whatever the latches hold, the word is that of
a uop of the table, and its `D` bit is `SQ.DIR`. -/
def Obligations.SequencerIssuesOnlyTableWords : Prop :=
  ∀ (s : State) (w : Word), s.busWord = some w →
    (∃ i, decodeUop w = .ok i ∧ encode i = w) ∧
    (w.getLsbD 24 = true ↔ s.sq.dir = .inverse)

/-- What a call does depends on no latch's value after reset (R59): `SEQ.BEGIN.*` gives the same next state whatever the
latches it writes held before, the ten scalar ones and the entries of the stage tables up to `L`; the entries above `L`, which
it keeps (log 13), are held equal. -/
def Obligations.BeginForgetsTheOldLatches : Prop :=
  ∀ (s : State) (n m : Word) (k : BitVec 5) (l r1 stage : BitVec 4) (scalef : Bool) (scale src dst : Word)
    (stM stF : Vector Word Config.stageDepth) (stTW : Vector Word (Config.stageDepth - 1)),
    let q : Sequencer := { s.sq with
      n := n, m := m, k := k, l := l, r1 := r1, stage := stage, scalef := scalef, scale := scale,
      srcsel := src, dstsel := dst, stM := stM, stF := stF, stTW := stTW }
    let passes := (if listWord s 3 = 2 then listWord s 0 - 1 else listWord s 0).toNat
    (∀ e, 2 ≤ e → e ≤ Config.stageDepth → passes < e →
      q.stMAt e = s.sq.stMAt e ∧ q.stFAt e = s.sq.stFAt e ∧ q.stTWAt e = s.sq.stTWAt e) →
    exec .seqBeginF { s with sq := q } = exec .seqBeginF s ∧ exec .seqBeginI { s with sq := q } = exec .seqBeginI s

/-- No uop reads a vector register that it has not written (R55): what a uop does is the same whatever `VR` holds. -/
def Obligations.UopsDoNotReadTheVectorRegisters : Prop :=
  ∀ (i : Instr) (s : State) (v : Vector (BitVec 128) Config.vectorRegisters), i ≠ .fwd → i ≠ .inv →
    exec i { s with vr := v } = exec i s

/-- A uop whose `D` bit differs from `SQ.DIR` has no step (R106); that the check comes first is the model's order
(log 10). -/
def Obligations.WrongDirectionIsRefused : Prop :=
  ∀ (i : Instr) (s : State), i ≠ .fwd → i ≠ .inv →
    (if (encode i).getLsbD 24 then Direction.inverse else .forward) ≠ s.sq.dir →
    exec i s = .refused .wrongDirection

/-- An index outside the range of R105 has no step (R106); that it is checked before the pass is the model's order
(log 10). -/
def Obligations.IndexOutOfRangeIsRefused : Prop :=
  ∀ (n : BitVec 24) (s : State),
    let m := s.sq.m.toNat
    (s.sq.dir = .forward → m / 4 ≤ n.toNat →
      exec (.r4fF n) s = .refused .indexOutOfRange ∧ exec (.r4tF n) s = .refused .indexOutOfRange) ∧
    (s.sq.dir = .inverse → m / 4 ≤ n.toNat →
      exec (.r4fI n) s = .refused .indexOutOfRange ∧ exec (.r4fIS n) s = .refused .indexOutOfRange ∧
      exec (.r4tI n) s = .refused .indexOutOfRange) ∧
    (s.sq.dir = .forward → m / 8 ≤ n.toNat → exec (.r8F n) s = .refused .indexOutOfRange) ∧
    (s.sq.dir = .inverse → m / 8 ≤ n.toNat →
      exec (.r8I n) s = .refused .indexOutOfRange ∧ exec (.r8IS n) s = .refused .indexOutOfRange) ∧
    (s.sq.dir = .forward → (m - 8) / 8 ≤ n.toNat → exec (.finIntF n) s = .refused .indexOutOfRange) ∧
    (s.sq.dir = .inverse → (m - 8) / 8 ≤ n.toNat → exec (.finIntI n) s = .refused .indexOutOfRange)

/-! ### The radix-4 kernel, twiddle-free (40_r4f.md) -/

/-- `R4F.F f`: the four outputs of the tree on the samples, contiguous at elements `4f + u`; every other byte and every
register but `UPC` is as before (R120). -/
def Obligations.R4fForwardResult : Prop :=
  ∀ (s : State) (f : BitVec 24), s.sq.dir = .forward → s.sq.stage = 1 → s.sq.r1 = 4 →
    f.toNat < s.sq.m.toNat / 4 →
    (encode (.r4fF f)).toNat = 0x20000000 + f.toNat ∧
    ∃ t, exec (.r4fF f) s = .next t ∧ OnlyMemoryAndUpc s t ∧
      (∀ u q, u < 4 → q < 4 →
        let a : Nat → Cplx := fun p => ⟨s.word (ra s.sq.srcsel (f.toNat + p * (s.sq.stFAt 1).toNat) q), 0⟩
        t.complexAt (ea s.sq.dstsel (4 * f.toNat + u) q) = (bfly4Fwd ⟨a 0, a 1, a 2, a 3⟩).nth u) ∧
      SameMemoryOutside (inBytes (ea s.sq.dstsel (4 * f.toNat) 0) 128) s t

/-- `R4F.I f` and `R4F.IS f`: the real parts of the inverse tree at elements `f + p·F` of the sample buffer, the scaled form
after one `fmul` by `SQ.SCALE`; every other byte and every register but `UPC` is as before (R121, R122). -/
def Obligations.R4fInverseResult : Prop :=
  ∀ (s : State) (f : BitVec 24) (scaled : Bool), s.sq.dir = .inverse → s.sq.stage = 1 → s.sq.r1 = 4 →
    s.sq.scalef = scaled → f.toNat < s.sq.m.toNat / 4 →
    (encode (if scaled then .r4fIS f else .r4fI f)).toNat =
      (if scaled then 0x23000000 else 0x21000000) + f.toNat ∧
    ∃ t, exec (if scaled then .r4fIS f else .r4fI f) s = .next t ∧ OnlyMemoryAndUpc s t ∧
      (1 ≤ (s.sq.stFAt 1).toNat → (s.sq.stFAt 1).toNat ≤ 2 ^ 20 → ∀ p q, p < 4 → q < 4 →
        let c : Nat → Cplx := fun u => s.complexAt (ea s.sq.srcsel (4 * f.toNat + u) q)
        let v := ((bfly4Inv ⟨c 0, c 1, c 2, c 3⟩).nth p).r
        t.word (ra s.sq.dstsel (f.toNat + p * (s.sq.stFAt 1).toNat) q) =
          if scaled then fmul v s.sq.scale else v) ∧
      SameMemoryOutside
        (fun x => ∃ p, p < 4 ∧ inBytes (ra s.sq.dstsel (f.toNat + p * (s.sq.stFAt 1).toNat) 0) 16 x) s t

/-! ### The radix-4 kernel, twiddle-applying (41_r4t.md) -/

/-- `R4T.F b`: inputs `(f + pF)m + j`, rotated by the three slots of `TWF`, through the tree, to elements `4fm + j + um`;
every other byte and every register but `UPC` is as before (R130). -/
def Obligations.R4tForwardResult : Prop :=
  ∀ (s : State) (b : BitVec 24), s.sq.dir = .forward → 2 ≤ s.sq.stage.toNat → s.sq.stage.toNat ≤ s.sq.l.toNat →
    s.sq.stage.toNat ≤ 12 → b.toNat < s.sq.m.toNat / 4 →
    let m := (s.sq.stMAt s.sq.stage.toNat).toNat
    let F := (s.sq.stFAt s.sq.stage.toNat).toNat
    let tw := (s.sq.stTWAt s.sq.stage.toNat).toNat
    let f := b.toNat / m
    let j := b.toNat % m
    (encode (.r4tF b)).toNat = 0x30000000 + b.toNat ∧
    ∃ t, exec (.r4tF b) s = .next t ∧ OnlyMemoryAndUpc s t ∧
      (1 ≤ m → m ≤ 2 ^ 20 → ∀ u q, u < 4 → q < 4 →
        let a : Nat → Cplx := fun p => s.complexAt (ea s.sq.srcsel ((f + p * F) * m + j) q)
        let w : Nat → Cplx := fun p => s.complexAt (slot s.cr.twf (tw + (p - 1) * m + j))
        t.complexAt (ea s.sq.dstsel (f * (4 * m) + j + u * m) q) =
          (bfly4Fwd ⟨a 0, cmul (a 1) (w 1), cmul (a 2) (w 2), cmul (a 3) (w 3)⟩).nth u) ∧
      SameMemoryOutside (fun x => ∃ u, u < 4 ∧ inBytes (ea s.sq.dstsel (f * (4 * m) + j + u * m) 0) 32 x) s t

/-- `R4T.I b`: the inverse tree on elements `4fm + j + um`, outputs 1 to 3 rotated by the three slots of `TWB`, to elements
`(f + pF)m + j`; every other byte and every register but `UPC` is as before (R131). -/
def Obligations.R4tInverseResult : Prop :=
  ∀ (s : State) (b : BitVec 24), s.sq.dir = .inverse → 2 ≤ s.sq.stage.toNat → s.sq.stage.toNat ≤ s.sq.l.toNat →
    s.sq.stage.toNat ≤ 12 → b.toNat < s.sq.m.toNat / 4 →
    let m := (s.sq.stMAt s.sq.stage.toNat).toNat
    let F := (s.sq.stFAt s.sq.stage.toNat).toNat
    let tw := (s.sq.stTWAt s.sq.stage.toNat).toNat
    let f := b.toNat / m
    let j := b.toNat % m
    (encode (.r4tI b)).toNat = 0x31000000 + b.toNat ∧
    ∃ t, exec (.r4tI b) s = .next t ∧ OnlyMemoryAndUpc s t ∧
      (1 ≤ m * F → m * F ≤ 2 ^ 20 → ∀ p q, p < 4 → q < 4 →
        let c : Nat → Cplx := fun u => s.complexAt (ea s.sq.srcsel (f * (4 * m) + j + u * m) q)
        let w : Nat → Cplx := fun p => s.complexAt (slot s.cr.twb (tw + (p - 1) * m + j))
        let d := bfly4Inv ⟨c 0, c 1, c 2, c 3⟩
        t.complexAt (ea s.sq.dstsel ((f + p * F) * m + j) q) =
          if p = 0 then d.x0 else cmul (d.nth p) (w p)) ∧
      SameMemoryOutside (fun x => ∃ p, p < 4 ∧ inBytes (ea s.sq.dstsel ((f + p * F) * m + j) 0) 32 x) s t

/-- The butterflies of one pass read and write pairwise disjoint element sets (R123, R132, R143). The element maps of R168
(`r4tStrided` and `r4tBlocked` for a stage with `m ≥ 1`, `firstStrided` and `firstBlocked` for stage 1 of radix 4 and 8) are
injective on butterfly and input and stay inside the buffer's elements; and what each kernel stores, and what its stores
depend on besides the registers and the twiddles, are the elements that its maps give. -/
def Obligations.ButterfliesOfAPassAreDisjoint : Prop :=
  (∀ (q : Sequencer) (b p b' p' : Nat), 1 ≤ stageM q → b < stageM q * stageF q → b' < stageM q * stageF q →
    p < 4 → p' < 4 →
      (r4tStrided q b p = r4tStrided q b' p' → b = b' ∧ p = p') ∧
      (r4tBlocked q b p = r4tBlocked q b' p' → b = b' ∧ p = p') ∧
      r4tStrided q b p < 4 * (stageM q * stageF q) ∧ r4tBlocked q b p < 4 * (stageM q * stageF q)) ∧
  (∀ (q : Sequencer) (r f p f' p' : Nat), r = 4 ∨ r = 8 →
    let F := (q.stFAt 1).toNat
    f < F → f' < F → p < r → p' < r →
      (firstStrided q f p = firstStrided q f' p' → f = f' ∧ p = p') ∧
      (firstBlocked r f p = firstBlocked r f' p' → f = f' ∧ p = p') ∧
      firstStrided q f p < r * F ∧ firstBlocked r f p < r * F) ∧
  (∀ (s : State) (b : Nat) (g : F32 → F32),
    let d := s.sq.dstsel
    StoresInElements d (r4tBlocked s.sq b) 4 (r4tForwardStores s b) ∧
    StoresInElements d (r4tStrided s.sq b) 4 (r4tInverseStores s b) ∧
    StoresInElements d (firstBlocked 4 b) 4 (r4fForwardStores s b) ∧
    StoresInRealElements d (firstStrided s.sq b) 4 (r4fInverseStores s b g) ∧
    StoresInElements d (firstBlocked 8 b) 8 (r8ForwardStores s b) ∧
    StoresInRealElements d (firstStrided s.sq b) 8 (r8InverseStores s b g)) ∧
  (∀ (s t : State) (b : Nat) (g : F32 → F32), t.sq = s.sq →
    let a := s.sq.srcsel
    (SameElements a (r4tStrided s.sq b) 4 s t → r4tTwiddle t t.cr.twf b = r4tTwiddle s s.cr.twf b →
      r4tForwardStores t b = r4tForwardStores s b) ∧
    (SameElements a (r4tBlocked s.sq b) 4 s t → r4tTwiddle t t.cr.twb b = r4tTwiddle s s.cr.twb b →
      r4tInverseStores t b = r4tInverseStores s b) ∧
    (SameRealElements a (firstStrided s.sq b) 4 s t → r4fForwardStores t b = r4fForwardStores s b) ∧
    (SameElements a (firstBlocked 4 b) 4 s t → r4fInverseStores t b g = r4fInverseStores s b g) ∧
    (SameRealElements a (firstStrided s.sq b) 8 s t → r8ForwardStores t b = r8ForwardStores s b) ∧
    (SameElements a (firstBlocked 8 b) 8 s t → r8InverseStores t b g = r8InverseStores s b g))

/-! ### The radix-8 kernel (42_r8.md) -/

/-- `R8.F f`: the radix-2 level, the two trees, the eight outputs contiguous at elements `8f + v` in natural order; every
other byte and every register but `UPC` is as before (R140). -/
def Obligations.R8ForwardResult : Prop :=
  ∀ (s : State) (f : BitVec 24), s.sq.dir = .forward → s.sq.stage = 1 → s.sq.r1 = 8 →
    f.toNat < s.sq.m.toNat / 8 →
    (encode (.r8F f)).toNat = 0x40000000 + f.toNat ∧
    ∃ t, exec (.r8F f) s = .next t ∧ OnlyMemoryAndUpc s t ∧
      (∀ q, q < 4 →
        let a : Nat → Cplx := fun p => ⟨s.word (ra s.sq.srcsel (f.toNat + p * (s.sq.stFAt 1).toNat) q), 0⟩
        let d0 := fun p => cadd (a p) (a (p + 4))
        let d1 := fun p => csub (a p) (a (p + 4))
        let e := bfly4Fwd ⟨d0 0, d0 1, d0 2, d0 3⟩
        let g := bfly4Fwd ⟨d1 0, rot8x1 (d1 1), rot8x2 (d1 2), rot8x3 (d1 3)⟩
        ∀ u, u < 4 → t.complexAt (ea s.sq.dstsel (8 * f.toNat + 2 * u) q) = e.nth u ∧
          t.complexAt (ea s.sq.dstsel (8 * f.toNat + (2 * u + 1)) q) = g.nth u) ∧
      SameMemoryOutside (inBytes (ea s.sq.dstsel (8 * f.toNat) 0) 256) s t

/-- `R8.I f` and `R8.IS f`: the two inverse trees, the conjugate rotations, the real sums at elements `f + pF` and the real
differences at `f + (p + 4)F`, the scaled form after one `fmul` by `SQ.SCALE`; every other byte and every register
but `UPC` is as before (R141, R142). -/
def Obligations.R8InverseResult : Prop :=
  ∀ (s : State) (f : BitVec 24) (scaled : Bool), s.sq.dir = .inverse → s.sq.stage = 1 → s.sq.r1 = 8 →
    s.sq.scalef = scaled → f.toNat < s.sq.m.toNat / 8 →
    let F := (s.sq.stFAt 1).toNat
    (encode (if scaled then .r8IS f else .r8I f)).toNat =
      (if scaled then 0x43000000 else 0x41000000) + f.toNat ∧
    ∃ t, exec (if scaled then .r8IS f else .r8I f) s = .next t ∧ OnlyMemoryAndUpc s t ∧
      (1 ≤ F → F ≤ 2 ^ 20 → ∀ p q, p < 4 → q < 4 →
        let c : Nat → Cplx := fun u => s.complexAt (ea s.sq.srcsel (8 * f.toNat + u) q)
        let d0 := bfly4Inv ⟨c 0, c 2, c 4, c 6⟩
        let h := bfly4Inv ⟨c 1, c 3, c 5, c 7⟩
        let d1 : Quad Cplx := ⟨h.x0, rot8c1 h.x1, rot8c2 h.x2, rot8c3 h.x3⟩
        let lo := fadd (d0.nth p).r (d1.nth p).r
        let hi := fsub (d0.nth p).r (d1.nth p).r
        t.word (ra s.sq.dstsel (f.toNat + p * F) q) = (if scaled then fmul lo s.sq.scale else lo) ∧
          t.word (ra s.sq.dstsel (f.toNat + (p + 4) * F) q) = if scaled then fmul hi s.sq.scale else hi) ∧
      SameMemoryOutside (fun x => ∃ p, p < 8 ∧ inBytes (ra s.sq.dstsel (f.toNat + p * F) 0) 16 x) s t

/-! ### The finalizer (44_finalizer.md) -/

/-- `FIN.EDGE.F`: column 0, the G columns 1 to `min(3, M/2 − 1)`, and column 2 where `M = 4`; it writes the slots of those
columns only (R181 to R184). With overlapping buffers, outside the contract, all reads come first (log 7). -/
def Obligations.FinEdgeForwardResult : Prop :=
  ∀ s : State, s.sq.dir = .forward → s.sq.stage.toNat = s.sq.l.toNat + 1 →
    let m := s.sq.m.toNat
    encode .finEdgeF = 0x50000000#32 ∧
    ∃ t, exec .finEdgeF s = .next t ∧ OnlyMemoryAndUpc s t ∧
      (m = 4 ∨ 8 ≤ m → m ≤ 2 ^ 22 → ForwardZ s t ∧
        (∀ j, 1 ≤ j → j ≤ min 3 (m / 2 - 1) → ForwardG s t j) ∧ (m = 4 → ForwardH s t) ∧
        SameMemoryOutside (inSlots s.sq.dstsel fun n =>
          if m = 4 then n ≤ 7 else n ≤ 3 ∨ (m - 3 ≤ n ∧ n ≤ m + 3) ∨ (2 * m - 3 ≤ n ∧ n ≤ 2 * m - 1)) s t)

/-- `FIN.SEC.F`: column `M/2`; it writes slots `M/2` and `3M/2` only (R182, R185). -/
def Obligations.FinSecondForwardResult : Prop :=
  ∀ s : State, s.sq.dir = .forward → s.sq.stage.toNat = s.sq.l.toNat + 1 → 8 ≤ s.sq.m.toNat →
    encode .finSecF = 0x54000000#32 ∧
    ∃ t, exec .finSecF s = .next t ∧ OnlyMemoryAndUpc s t ∧
      (s.sq.m.toNat ≤ 2 ^ 22 → ForwardH s t) ∧
      SameMemoryOutside
        (inSlots s.sq.dstsel fun n => n = s.sq.m.toNat / 2 ∨ n = 3 * s.sq.m.toNat / 2) s t

/-- `FIN.INT.F i`: the four G columns `4 + 4i` to `7 + 4i`; it writes their slots only (R183, R186). With overlapping buffers,
outside the contract, all reads come first (log 7). -/
def Obligations.FinInteriorForwardResult : Prop :=
  ∀ (s : State) (i : BitVec 24), s.sq.dir = .forward → s.sq.stage.toNat = s.sq.l.toNat + 1 →
    16 ≤ s.sq.m.toNat → i.toNat < (s.sq.m.toNat - 8) / 8 →
    let m := s.sq.m.toNat
    let c := 4 + 4 * i.toNat
    (encode (.finIntF i)).toNat = 0x58000000 + i.toNat ∧
    ∃ t, exec (.finIntF i) s = .next t ∧ OnlyMemoryAndUpc s t ∧
      (m ≤ 2 ^ 22 → ∀ l, l < 4 → ForwardG s t (c + l)) ∧
      SameMemoryOutside (inSlots s.sq.dstsel fun n => (c ≤ n ∧ n ≤ c + 3) ∨ (m + c ≤ n ∧ n ≤ m + c + 3) ∨
        (m - c - 3 ≤ n ∧ n ≤ m - c) ∨ (2 * m - c - 3 ≤ n ∧ n ≤ 2 * m - c)) s t

/-- `FIN.EDGE.I`: element 0, the G columns 1 to `min(3, M/2 − 1)` with their mirrors, and element 2 where `M = 4`; it writes
those elements only (R187 to R191). With overlapping buffers, outside the contract, all reads come first (log 7). -/
def Obligations.FinEdgeInverseResult : Prop :=
  ∀ s : State, s.sq.dir = .inverse → s.sq.stage.toNat = s.sq.l.toNat + 1 →
    let m := s.sq.m.toNat
    encode .finEdgeI = 0x51000000#32 ∧
    ∃ t, exec .finEdgeI s = .next t ∧ OnlyMemoryAndUpc s t ∧
      (m = 4 ∨ 8 ≤ m → m ≤ 2 ^ 22 → InverseZ s t ∧
        (∀ j, 1 ≤ j → j ≤ min 3 (m / 2 - 1) → InverseG s t j) ∧ (m = 4 → InverseH s t) ∧
        SameMemoryOutside (inElements s.sq.dstsel fun e => e ≤ 3 ∨ (m - 3 ≤ e ∧ e ≤ m - 1)) s t)

/-- `FIN.SEC.I`: element `M/2` and nothing else (R188, R192). -/
def Obligations.FinSecondInverseResult : Prop :=
  ∀ s : State, s.sq.dir = .inverse → s.sq.stage.toNat = s.sq.l.toNat + 1 → 8 ≤ s.sq.m.toNat →
    encode .finSecI = 0x55000000#32 ∧
    ∃ t, exec .finSecI s = .next t ∧ OnlyMemoryAndUpc s t ∧ InverseH s t ∧
      SameMemoryOutside (inElements s.sq.dstsel fun e => e = s.sq.m.toNat / 2) s t

/-- `FIN.INT.I i`: the G columns `4 + 4i` to `7 + 4i` and their mirrors, and no other element (R190, R193). With overlapping
buffers, outside the contract, all reads come first (log 7). -/
def Obligations.FinInteriorInverseResult : Prop :=
  ∀ (s : State) (i : BitVec 24), s.sq.dir = .inverse → s.sq.stage.toNat = s.sq.l.toNat + 1 →
    16 ≤ s.sq.m.toNat → i.toNat < (s.sq.m.toNat - 8) / 8 →
    let m := s.sq.m.toNat
    let c := 4 + 4 * i.toNat
    (encode (.finIntI i)).toNat = 0x59000000 + i.toNat ∧
    ∃ t, exec (.finIntI i) s = .next t ∧ OnlyMemoryAndUpc s t ∧
      (m ≤ 2 ^ 22 → ∀ l, l < 4 → InverseG s t (c + l)) ∧
      SameMemoryOutside (inElements s.sq.dstsel fun e => (c ≤ e ∧ e ≤ c + 3) ∨ (m - c - 3 ≤ e ∧ e ≤ m - c)) s t

/-- Every column `0..M/2` is processed exactly once (R180, R196): for `M = 2^n ≥ 4` the G columns of Edge and of the interior
iterations are `1..M/2 − 1`, each once, and what the finalizer uops of a pass store together, Edge, Second where `M ≥ 8` and
all Interior iterations, is column 0, the G columns and column `M/2`, each once, in either direction. -/
def Obligations.EveryColumnIsProcessedOnce : Prop :=
  ∀ n, 2 ≤ n →
    let m := 2 ^ n
    let gColumns := (List.range (m / 2 - 1)).map (· + 1)
    edgeColumns m ++ (List.range ((m - 8) / 8)).flatMap interiorColumns = gColumns ∧
    ∀ s : State, s.sq.m.toNat = m →
      (finEdgeForwardStores s ++ (if 8 ≤ m then finFH s else []) ++
          (List.range ((m - 8) / 8)).flatMap (finInteriorForwardStores s)).Perm
        (finFZ s ++ gColumns.flatMap (finFG s) ++ finFH s) ∧
      (finEdgeInverseStores s ++ (if 8 ≤ m then finIH s else []) ++
          (List.range ((m - 8) / 8)).flatMap (finInteriorInverseStores s)).Perm
        (finIZ s ++ gColumns.flatMap (finIG s) ++ finIH s)

/-! ### Pack and unpack (45_pack_scale.md) -/

/-- `PACK.F`: the word at `CR[DST] + 4` moves to the real word of slot `N/2`, and both imaginary words become `+0.0`; every
other byte and every register but `UPC` is as before (R200). -/
def Obligations.PackForwardResult : Prop :=
  ∀ s : State, s.sq.dir = .forward → s.sq.stage.toNat = s.sq.l.toNat + 1 → s.sq.upc.toNat + 2 = uprogLength s.sq →
    let h := (s.sq.n >>> 1).toNat
    let o := s.cr.dst
    encode .packF = 0x60000000#32 ∧
    ∃ t, exec .packF s = .next t ∧ OnlyMemoryAndUpc s t ∧
      (1 ≤ h → h ≤ 2 ^ 23 → t.word (slot o h) = s.word (o + 4) ∧ t.word (o + 4) = 0x00000000#32 ∧
        t.word (slot o h + 4) = 0x00000000#32) ∧
      SameMemoryOutside (fun x => inBytes (o + 4) 4 x ∨ inBytes (slot o h) 8 x) s t

/-- `UNPACK.I`, as `uprog[1]`: the word at `CR[SRC] + 4` is saved, and the real word of slot `N/2` takes its place; every other
byte and every other register but `UPC` is as before (R201). -/
def Obligations.UnpackInverseResult : Prop :=
  ∀ s : State, s.sq.dir = .inverse → s.sq.upc = 1 →
    let i := s.cr.src
    encode .unpackI = 0x61000000#32 ∧
    ∃ t, exec .unpackI s = .next t ∧ SameOutside s t ∧
      t.sq = { s.sq with save0i := s.word (i + 4), upc := s.sq.upc + 1 } ∧
      t.word (i + 4) = s.word (slot i (s.sq.n >>> 1).toNat) ∧
      SameMemoryOutside (inBytes (i + 4) 4) s t

/-- `RESTORE.I`, the uop before `SEQ.END.I`: the saved word is back at `CR[SRC] + 4`; every other byte and every register but
`UPC` is as before (R202). -/
def Obligations.RestoreInverseResult : Prop :=
  ∀ s : State, s.sq.dir = .inverse → s.sq.upc.toNat + 2 = uprogLength s.sq →
    encode .restoreI = 0x65000000#32 ∧
    ∃ t, exec .restoreI s = .next t ∧ OnlyMemoryAndUpc s t ∧ t.word (s.cr.src + 4) = s.sq.save0i ∧
      SameMemoryOutside (inBytes (s.cr.src + 4) 4) s t

/-- The pair property (R205): `UNPACK.I` on what `PACK.F` left restores slot 0's two words, and `RESTORE.I` after `UNPACK.I`
restores every byte of memory. -/
def Obligations.PackUnpackRestorePairs : Prop :=
  (∀ s t s' u : State, exec .packF s = .next t → 1 ≤ (s.sq.n >>> 1).toNat → (s.sq.n >>> 1).toNat ≤ 2 ^ 23 →
    s'.mem = t.mem → s'.cr.src = s.cr.dst → s'.sq.n = s.sq.n → exec .unpackI s' = .next u →
      u.complexAt s.cr.dst = s.complexAt s.cr.dst) ∧
  (∀ s t s' u : State, exec .unpackI s = .next t →
    s'.mem = t.mem → s'.cr.src = t.cr.src → s'.sq.save0i = t.sq.save0i → exec .restoreI s' = .next u →
      ∀ x : Word, u.byteAt x = s.byteAt x)

/-! ### Whole machine -/

/-- The invariant holds after reset. -/
def Obligations.InvariantHoldsAtReset : Prop := Invariant State.reset

/-- Every step of the machine, of the core or of the host, keeps the invariant: canonical memory, every byte the host has written
held by it (log 12), reserved bits of `FLAGS`
zero, `BUSY` and `DONE` never both set, and from the second uop of a call on latches that agree with the Plan and
buffers by the ping-pong rule (R36, R48, R161, R214). -/
def Obligations.EveryStepKeepsTheInvariant : Prop :=
  ∀ s t : State, Invariant s → step s = .next t → Invariant t

/-- The last pass of a call writes `CR[DST]` (R161): in a state of the invariant the forward finalizer pass and the inverse
driver stage 1 have `CR[DST]` as their destination. -/
def Obligations.LastPassWritesTheDestination : Prop :=
  ∀ s : State, Invariant s → s.sq.busy = true → s.sq.upc ≠ 0 →
    (s.sq.dir = .forward → s.sq.stage = s.sq.l + 1 → s.sq.dstsel = s.cr.dst) ∧
    (s.sq.dir = .inverse → s.sq.stage = 1 → s.sq.dstsel = s.cr.dst)

/-- A launched call runs to its end: from every state in which the command's contract holds, with the host leaving the core
its turn, the core runs exactly `len(uprog)` uops without a refusal, then `BUSY = 0` and `DONE = 1`, `UPC` is the index of
`SEQ.END.*` and the control registers are as before (R106, R158, R164, R210, R212). -/
def Obligations.LaunchedCallRunsToItsEnd : Prop :=
  ∀ (s : State) (dir : Direction), s.events = [] → launchable dir s = true →
    let len := callLength dir (Nat.log2 s.cr.nfft.toNat)
    ∃ t, Host.Core.run Sys2Proof.core len (s.startCall dir) = .next t ∧
      t.sq.busy = false ∧ t.sq.done = true ∧ t.sq.upc.toNat + 1 = len ∧ t.cr = s.cr ∧
      ∀ n u, n < len → Host.Core.run Sys2Proof.core n (s.startCall dir) = .next u → u.sq.busy = true

/-- A call writes only its working regions (R91, R238): from a launched command on, with the host leaving the core its turn,
every byte outside the `CR[DST]` and `CR[SCRATCH]` regions reads as before the command, but for the borrowed word at
`CR[SRC] + 4` of an inverse call, and when the call has ended the whole input region reads as before. -/
def Obligations.ACallWritesOnlyItsWorkingRegions : Prop :=
  ∀ (s : State) (dir : Direction), s.events = [] → launchable dir s = true →
    let k := Nat.log2 s.cr.nfft.toNat
    ∀ n u, Host.Core.run Sys2Proof.core n (s.startCall dir) = .next u →
      (∀ x : Word, (destinationRegion s.cr k).holds x.toNat = false → (scratchRegion s.cr k).holds x.toNat = false →
        (dir = .inverse → ¬ inBytes (s.cr.src + 4) 4 x) → State.byteAt u x = s.byteAt x) ∧
      (n = callLength dir k → ∀ x : Word, (sourceRegion s.cr dir k).holds x.toNat = true →
        State.byteAt u x = s.byteAt x)

/-- Which uop `uprog[upc]` is, position by position (R158), for whatever the latches hold: in each pass every index is issued
exactly once, in ascending order (R123, R132, R143), the passes stand in the order of the listing of the direction, and past
its end nothing is issued (log 23). -/
def Obligations.EachPositionOfTheListingIsTheStatedUop : Prop :=
  ∀ s : State,
    let m := s.sq.m.toNat
    let perPass := m / 4 + 1
    let later := s.sq.l.toNat - 1
    let first := (s.sq.stFAt 1).toNat
    let second := if 8 ≤ m then 1 else 0
    let interior := if 8 ≤ m then (m - 8) / 8 else 0
    let issues : Nat → Instr → Prop := fun n i => s.sq.upc.toNat = n → s.busWord = some (encode i)
    (s.sq.dir = .forward →
      let fin := first + 2 + later * perPass
      let pack := fin + 1 + second + interior
      issues 0 .seqBeginF ∧
      (∀ f, f < first → issues (1 + f) (if s.sq.r1 = 8 then .r8F (BitVec.ofNat 24 f) else .r4fF (BitVec.ofNat 24 f))) ∧
      issues (first + 1) .seqNextF ∧
      (∀ t, t < later →
        (∀ b, b < m / 4 → issues (first + 2 + t * perPass + b) (.r4tF (BitVec.ofNat 24 b))) ∧
        issues (first + 2 + t * perPass + m / 4) .seqNextF) ∧
      issues fin .finEdgeF ∧
      (8 ≤ m → issues (fin + 1) .finSecF) ∧
      (∀ i, i < interior → issues (fin + 1 + second + i) (.finIntF (BitVec.ofNat 24 i))) ∧
      issues pack .packF ∧ issues (pack + 1) .seqEndF ∧
      (pack + 2 ≤ s.sq.upc.toNat → s.busWord = none)) ∧
    (s.sq.dir = .inverse →
      let next := 3 + second + interior
      let last := next + 1 + later * perPass
      issues 0 .seqBeginI ∧ issues 1 .unpackI ∧ issues 2 .finEdgeI ∧
      (8 ≤ m → issues 3 .finSecI) ∧
      (∀ i, i < interior → issues (3 + second + i) (.finIntI (BitVec.ofNat 24 i))) ∧
      issues next .seqNextI ∧
      (∀ t, t < later →
        (∀ b, b < m / 4 → issues (next + 1 + t * perPass + b) (.r4tI (BitVec.ofNat 24 b))) ∧
        issues (next + 1 + t * perPass + m / 4) .seqNextI) ∧
      (∀ f, f < first → issues (last + f)
        (if s.sq.r1 = 8 then
          if s.sq.scalef then .r8IS (BitVec.ofNat 24 f) else .r8I (BitVec.ofNat 24 f)
        else if s.sq.scalef then .r4fIS (BitVec.ofNat 24 f) else .r4fI (BitVec.ofNat 24 f))) ∧
      issues (last + first) .restoreI ∧ issues (last + first + 1) .seqEndI ∧
      (last + first + 2 ≤ s.sq.upc.toNat → s.busWord = none))
end

