-- ==== Sys2Proof/Laws/Memory.lean ====
section
/-! SUPPORT. The laws of the shared memory: reading back what was written, leaving the rest alone, and the canonical
form every operation keeps. -/

namespace Sys2Proof.Machine

/-! ### One byte -/

theorem byte?_writeByte_same (m : Memory) (a : Nat) (b : Byte) :
    Memory.byte? (Memory.writeByte m a b) a = some b := by
  induction m with
  | nil => simp [Memory.writeByte, Memory.byte?]
  | cons c m ih =>
    obtain ⟨k, v⟩ := c
    simp only [Memory.writeByte]
    split
    · simp [Memory.byte?]
    · split
      · simp [Memory.byte?]
      · simp [Memory.byte?, *]

theorem byte?_writeByte_other (m : Memory) {a a' : Nat} (b : Byte) (h : a' ≠ a) :
    Memory.byte? (Memory.writeByte m a b) a' = Memory.byte? m a' := by
  induction m with
  | nil => simp [Memory.writeByte, Memory.byte?, h]
  | cons c m ih =>
    obtain ⟨k, v⟩ := c
    simp only [Memory.writeByte]
    split
    · simp [Memory.byte?, h]
    · split
      · next _ hk => subst hk; simp [Memory.byte?, h]
      · simp [Memory.byte?, ih]

theorem byteAt_writeByte (m : Memory) (a a' : Nat) (b : Byte) :
    Memory.byteAt (Memory.writeByte m a b) a' = if a' = a then b else Memory.byteAt m a' := by
  unfold Memory.byteAt
  split
  · next h => subst h; simp [byte?_writeByte_same]
  · next h => rw [byte?_writeByte_other m b h]

/-! ### The canonical form -/

theorem wfFrom_writeByte {lo : Nat} {m : Memory} {a : Nat} (b : Byte) (hm : Memory.wfFrom lo m = true)
    (hlo : lo ≤ a) (ha : a < 2 ^ 32) : Memory.wfFrom lo (Memory.writeByte m a b) = true := by
  induction m generalizing lo with
  | nil => simp only [Memory.writeByte, Memory.wfFrom, Bool.and_eq_true, decide_eq_true_eq, Bool.and_true]; omega
  | cons c m ih =>
    obtain ⟨k, v⟩ := c
    simp only [Memory.wfFrom, Bool.and_eq_true, decide_eq_true_eq] at hm
    simp only [Memory.writeByte]
    split
    · next hk =>
      simp only [Memory.wfFrom, Bool.and_eq_true, decide_eq_true_eq]
      exact ⟨⟨hlo, ha⟩, ⟨by omega, hm.1.2⟩, hm.2⟩
    · split
      · next _ hk =>
        subst hk
        simp only [Memory.wfFrom, Bool.and_eq_true, decide_eq_true_eq]
        exact hm
      · simp only [Memory.wfFrom, Bool.and_eq_true, decide_eq_true_eq]
        exact ⟨hm.1, ih hm.2 (by omega)⟩

theorem wf_writeByte {m : Memory} (hm : Memory.wf m = true) (a : Word) (b : Byte) :
    Memory.wf (Memory.writeByte m a.toNat b) = true :=
  wfFrom_writeByte b hm (Nat.zero_le _) a.isLt

theorem wf_writeWord {m : Memory} (hm : Memory.wf m = true) (a v : Word) :
    Memory.wf (Memory.writeWord m a v) = true :=
  wf_writeByte (wf_writeByte (wf_writeByte (wf_writeByte hm _ _) _ _) _ _) _ _

theorem wf_storeWords {m : Memory} (l : List Store) (hm : Memory.wf m = true) :
    Memory.wf (Memory.storeWords m l) = true := by
  induction l generalizing m with
  | nil => exact hm
  | cons st l ih => exact ih (wf_writeWord hm st.addr st.value)

theorem wf_writeBytes {m : Memory} (a : Word) (bs : List Byte) (hm : Memory.wf m = true) :
    Memory.wf (Memory.writeBytes m a bs) = true := by
  induction bs generalizing m a with
  | nil => exact hm
  | cons b bs ih => exact ih (a + 1) (wf_writeByte hm a b)

theorem byte?_eq_none_of_lt {lo : Nat} {m : Memory} (hm : Memory.wfFrom lo m = true) {a : Nat} (h : a < lo) :
    Memory.byte? m a = none := by
  induction m generalizing lo with
  | nil => rfl
  | cons c m ih =>
    obtain ⟨k, v⟩ := c
    simp only [Memory.wfFrom, Bool.and_eq_true, decide_eq_true_eq] at hm
    simp only [Memory.byte?, if_neg (by omega : ¬ a = k)]
    exact ih hm.2 (by omega)

/-- Two canonical memories that hold the same bytes are the same data. -/
theorem wfFrom_ext {lo : Nat} {m m' : Memory} (hm : Memory.wfFrom lo m = true) (hm' : Memory.wfFrom lo m' = true)
    (h : ∀ a, Memory.byte? m a = Memory.byte? m' a) : m = m' := by
  induction m generalizing lo m' with
  | nil =>
    cases m' with
    | nil => rfl
    | cons c m' => have := h c.1; simp [Memory.byte?] at this
  | cons c m ih =>
    obtain ⟨k, v⟩ := c
    cases m' with
    | nil => have := h k; simp [Memory.byte?] at this
    | cons c' m' =>
      obtain ⟨k', v'⟩ := c'
      simp only [Memory.wfFrom, Bool.and_eq_true, decide_eq_true_eq] at hm hm'
      have hk : k = k' := by
        rcases Nat.lt_trichotomy k k' with hlt | heq | hgt
        · have := h k
          simp [Memory.byte?, Nat.ne_of_lt hlt, byte?_eq_none_of_lt hm'.2 (by omega : k < k' + 1)] at this
        · exact heq
        · have := h k'
          simp [Memory.byte?, Nat.ne_of_lt hgt, byte?_eq_none_of_lt hm.2 (by omega : k' < k + 1)] at this
      subst hk
      have hv : v = v' := by simpa [Memory.byte?] using h k
      subst hv
      congr 1
      refine ih hm.2 hm'.2 fun a => ?_
      by_cases ha : a = k
      · subst ha
        rw [byte?_eq_none_of_lt hm.2 (by omega), byte?_eq_none_of_lt hm'.2 (by omega)]
      · simpa [Memory.byte?, ha] using h a

theorem wf_ext {m m' : Memory} (hm : Memory.wf m = true) (hm' : Memory.wf m' = true)
    (h : ∀ a, Memory.byte? m a = Memory.byte? m' a) : m = m' :=
  wfFrom_ext hm hm' h

/-! ### One word -/

/-- The four bytes at `a` and the four bytes at `b` share no address (addresses modulo `2^32`). -/
def Apart (a b : Word) : Prop := 4 ≤ (a - b).toNat ∧ 4 ≤ (b - a).toNat

theorem Apart.symm {a b : Word} (h : Apart a b) : Apart b a := ⟨h.2, h.1⟩

/-- Two words of one region at different word numbers lie apart. -/
theorem apart_of_offsets (base : Word) {x y : Nat} (hxy : x ≠ y) (h1 : x < y + 2 ^ 30) (h2 : y < x + 2 ^ 30) :
    Apart (base + BitVec.ofNat 32 (4 * x)) (base + BitVec.ofNat 32 (4 * y)) := by
  constructor <;> (rw [BitVec.toNat_sub]; simp only [BitVec.toNat_add, BitVec.toNat_ofNat]; omega)

theorem wordOfBytes_byteOfWord (v : Word) :
    wordOfBytes (byteOfWord v 0) (byteOfWord v 1) (byteOfWord v 2) (byteOfWord v 3) = v := by
  unfold wordOfBytes byteOfWord
  refine BitVec.eq_of_getLsbD_eq fun i hi => ?_
  simp only [BitVec.getLsbD_append, BitVec.getLsbD_extractLsb']
  split
  · next h => simp [h]
  · split
    · next h => simp only [h, decide_true, Bool.true_and]; congr 1; omega
    · split
      · next h => simp only [h, decide_true, Bool.true_and]; congr 1; omega
      · simp only [show i - 8 - 8 - 8 < 8 by omega, decide_true, Bool.true_and]; congr 1; omega

/-- The bytes of a word just written, and every other byte. -/
theorem byteAt_writeWord (m : Memory) (a v : Word) (x : Word) :
    Memory.byteAt (Memory.writeWord m a v) x.toNat =
      if (x - a).toNat < 4 then byteOfWord v (x - a).toNat else Memory.byteAt m x.toNat := by
  unfold Memory.writeWord
  simp only [byteAt_writeByte]
  have key : ∀ n : Nat, n < 4 → (x.toNat = (a + BitVec.ofNat 32 n).toNat ↔ (x - a).toNat = n) := by
    intro n hn
    rw [BitVec.toNat_sub, BitVec.toNat_add, BitVec.toNat_ofNat]
    have := x.isLt; have := a.isLt
    omega
  have k0 : x.toNat = a.toNat ↔ (x - a).toNat = 0 := by simpa using key 0 (by omega)
  have k1 : x.toNat = (a + 1).toNat ↔ (x - a).toNat = 1 := key 1 (by omega)
  have k2 : x.toNat = (a + 2).toNat ↔ (x - a).toNat = 2 := key 2 (by omega)
  have k3 : x.toNat = (a + 3).toNat ↔ (x - a).toNat = 3 := key 3 (by omega)
  simp only [k0, k1, k2, k3]
  split
  · next h => rw [if_pos (by omega), h]
  · split
    · next h => rw [if_pos (by omega), h]
    · split
      · next h => rw [if_pos (by omega), h]
      · split
        · next h => rw [if_pos (by omega), h]
        · rw [if_neg (by omega)]

theorem byteAt_writeWord_other (m : Memory) {a : Word} (v : Word) {x : Word} (h : 4 ≤ (x - a).toNat) :
    Memory.byteAt (Memory.writeWord m a v) x.toNat = Memory.byteAt m x.toNat := by
  rw [byteAt_writeWord, if_neg (by omega)]

theorem readWord_writeWord_same (m : Memory) (a v : Word) :
    Memory.readWord (Memory.writeWord m a v) a = v := by
  unfold Memory.readWord
  have h1 : (a + 1 - a).toNat = 1 := by bv_omega
  have h2 : (a + 2 - a).toNat = 2 := by bv_omega
  have h3 : (a + 3 - a).toNat = 3 := by bv_omega
  have h0 : (a - a).toNat = 0 := by bv_omega
  simp only [byteAt_writeWord, h0, h1, h2, h3]
  simp [wordOfBytes_byteOfWord]

/-- A word read depends on its four bytes only. -/
theorem readWord_congr {m m' : Memory} {a : Word}
    (h : ∀ x : Word, (x - a).toNat < 4 → Memory.byteAt m x.toNat = Memory.byteAt m' x.toNat) :
    Memory.readWord m a = Memory.readWord m' a := by
  unfold Memory.readWord
  rw [h a (by bv_omega), h (a + 1) (by bv_omega), h (a + 2) (by bv_omega), h (a + 3) (by bv_omega)]

theorem readWord_writeWord_other (m : Memory) {a b : Word} (v : Word) (h : Apart a b) :
    Memory.readWord (Memory.writeWord m b v) a = Memory.readWord m a := by
  refine readWord_congr fun x hx => byteAt_writeWord_other m v ?_
  obtain ⟨h1, h2⟩ := h
  bv_omega

/-! ### The word writes of a uop -/

/-- The byte at `x` belongs to none of the words stored. -/
def Untouched (l : List Store) (x : Word) : Prop := ∀ st ∈ l, 4 ≤ (x - st.addr).toNat

theorem byteAt_storeWords_other (m : Memory) (l : List Store) {x : Word} (h : Untouched l x) :
    Memory.byteAt (Memory.storeWords m l) x.toNat = Memory.byteAt m x.toNat := by
  induction l generalizing m with
  | nil => rfl
  | cons st l ih =>
    rw [Memory.storeWords, ih _ fun st' hs => h st' (List.mem_cons_of_mem _ hs)]
    exact byteAt_writeWord_other m st.value (h st List.mem_cons_self)

theorem readWord_storeWords_other (m : Memory) (l : List Store) {a : Word} (h : ∀ st ∈ l, Apart a st.addr) :
    Memory.readWord (Memory.storeWords m l) a = Memory.readWord m a := by
  induction l generalizing m with
  | nil => rfl
  | cons st l ih =>
    rw [Memory.storeWords, ih _ fun st' hs => h st' (List.mem_cons_of_mem _ hs)]
    exact readWord_writeWord_other m st.value (h st List.mem_cons_self)

/-- Where the stored words lie apart, each reads back as the value stored. -/
theorem readWord_storeWords_mem (m : Memory) {l : List Store} (h : l.Pairwise fun s t => Apart s.addr t.addr)
    {st : Store} (hst : st ∈ l) : Memory.readWord (Memory.storeWords m l) st.addr = st.value := by
  induction l generalizing m with
  | nil => cases hst
  | cons s l ih =>
    rw [List.pairwise_cons] at h
    rw [Memory.storeWords]
    rcases List.mem_cons.mp hst with rfl | hst
    · rw [readWord_storeWords_other _ l fun t ht => h.1 t ht]
      exact readWord_writeWord_same m _ _
    · exact ih _ h.2 hst

theorem storeWords_append (m : Memory) (l l' : List Store) :
    Memory.storeWords m (l ++ l') = Memory.storeWords (Memory.storeWords m l) l' := by
  induction l generalizing m with
  | nil => rfl
  | cons st l ih => exact ih _

/-! ### What the host has written -/

theorem mem_add {l : AddressSet} {a x : Nat} : x ∈ AddressSet.add l a ↔ x = a ∨ x ∈ l := by
  induction l with
  | nil => simp [AddressSet.add]
  | cons k l ih =>
    simp only [AddressSet.add]
    split
    · simp
    · split
      · next _ h => subst h; simp
      · simp only [List.mem_cons, ih]
        tauto

/-- What a host write of `n` bytes adds: the addresses `a .. a + n − 1`, modulo `2^32`. -/
theorem mem_addBytes {l : AddressSet} {a : Word} {n x : Nat} :
    x ∈ AddressSet.addBytes l a n ↔ (∃ i, i < n ∧ x = (a + BitVec.ofNat 32 i).toNat) ∨ x ∈ l := by
  induction n generalizing l a with
  | zero => simp [AddressSet.addBytes]
  | succ n ih =>
    simp only [AddressSet.addBytes, ih, mem_add]
    have step : ∀ i, a + 1 + BitVec.ofNat 32 i = a + BitVec.ofNat 32 (i + 1) := fun i => by
      rw [BitVec.add_assoc, Nat.add_comm i 1, BitVec.ofNat_add]; rfl
    constructor
    · rintro (⟨i, hi, rfl⟩ | rfl | h)
      · exact .inl ⟨i + 1, by omega, by rw [step]⟩
      · exact .inl ⟨0, by omega, by simp⟩
      · exact .inr h
    · rintro (⟨i, hi, rfl⟩ | h)
      · cases i with
        | zero => exact .inr (.inl (by simp))
        | succ i => exact .inl ⟨i, by omega, by rw [step]⟩
      · exact .inr (.inr h)

theorem wfFrom_add {lo : Nat} {l : AddressSet} {a : Nat} (hl : AddressSet.wfFrom lo l = true) (hlo : lo ≤ a)
    (ha : a < 2 ^ 32) : AddressSet.wfFrom lo (AddressSet.add l a) = true := by
  induction l generalizing lo with
  | nil => simp only [AddressSet.add, AddressSet.wfFrom, Bool.and_eq_true, decide_eq_true_eq, Bool.and_true]; omega
  | cons k l ih =>
    simp only [AddressSet.wfFrom, Bool.and_eq_true, decide_eq_true_eq] at hl
    simp only [AddressSet.add]
    split
    · simp only [AddressSet.wfFrom, Bool.and_eq_true, decide_eq_true_eq]
      exact ⟨⟨hlo, ha⟩, ⟨by omega, hl.1.2⟩, hl.2⟩
    · split
      · simp only [AddressSet.wfFrom, Bool.and_eq_true, decide_eq_true_eq]
        exact hl
      · simp only [AddressSet.wfFrom, Bool.and_eq_true, decide_eq_true_eq]
        exact ⟨hl.1, ih hl.2 (by omega)⟩

theorem wf_addBytes {l : AddressSet} (a : Word) (n : Nat) (hl : AddressSet.wf l = true) :
    AddressSet.wf (AddressSet.addBytes l a n) = true := by
  induction n generalizing l a with
  | zero => exact hl
  | succ n ih => exact ih (a + 1) (wfFrom_add hl (Nat.zero_le _) a.isLt)

/-- A byte somebody has written stays written. -/
theorem byte?_isSome_writeByte {m : Memory} {x : Nat} (a : Nat) (b : Byte) (h : (Memory.byte? m x).isSome = true) :
    (Memory.byte? (Memory.writeByte m a b) x).isSome = true := by
  by_cases hx : x = a
  · subst hx; simp [byte?_writeByte_same]
  · rw [byte?_writeByte_other m b hx]; exact h

theorem byte?_isSome_storeWords {m : Memory} {x : Nat} (l : List Store) (h : (Memory.byte? m x).isSome = true) :
    (Memory.byte? (Memory.storeWords m l) x).isSome = true := by
  induction l generalizing m with
  | nil => exact h
  | cons st l ih =>
    refine ih ?_
    unfold Memory.writeWord
    exact byte?_isSome_writeByte _ _ (byte?_isSome_writeByte _ _ (byte?_isSome_writeByte _ _
      (byte?_isSome_writeByte _ _ h)))

/-- Every byte of a host write is then a byte of memory, and so is every byte that was one. -/
theorem byte?_isSome_writeBytes {m : Memory} {x : Nat} (a : Word) (bs : List Byte)
    (h : (Memory.byte? m x).isSome = true ∨ ∃ i, i < bs.length ∧ x = (a + BitVec.ofNat 32 i).toNat) :
    (Memory.byte? (Memory.writeBytes m a bs) x).isSome = true := by
  induction bs generalizing m a with
  | nil =>
    rcases h with h | ⟨i, hi, -⟩
    · exact h
    · exact absurd hi (Nat.not_lt_zero _)
  | cons b bs ih =>
    refine ih (a + 1) ?_
    rcases h with h | ⟨i, hi, rfl⟩
    · exact .inl (byte?_isSome_writeByte _ _ h)
    · cases i with
      | zero => exact .inl (by simp [byte?_writeByte_same])
      | succ i =>
        refine .inr ⟨i, by simpa using hi, ?_⟩
        rw [BitVec.add_assoc, Nat.add_comm i 1, BitVec.ofNat_add]; rfl

/-- After a host write every byte the host has written is a byte of memory, if it was so before. -/
theorem hostWrite_listed {s : State} (a : Word) (bs : List Byte)
    (h : ∀ x ∈ s.hostWritten, (Memory.byte? s.mem x).isSome = true) :
    ∀ x ∈ (s.hostWrite a bs).hostWritten, (Memory.byte? (s.hostWrite a bs).mem x).isSome = true := fun x hx =>
  byte?_isSome_writeBytes a bs ((mem_addBytes.mp hx).symm.imp_left (h x))

/-- The words all of whose four bytes the host has written. -/
theorem hasWord_iff {l : AddressSet} {a : Word} :
    l.hasWord a = true ↔ ∀ n, n < 4 → (a + BitVec.ofNat 32 n).toNat ∈ l := by
  simp only [AddressSet.hasWord, AddressSet.has, Bool.and_eq_true, decide_eq_true_eq]
  constructor
  · rintro ⟨⟨⟨h0, h1⟩, h2⟩, h3⟩ n hn
    match n, hn with
    | 0, _ => simpa using h0
    | 1, _ => exact h1
    | 2, _ => exact h2
    | 3, _ => exact h3
  · exact fun h => ⟨⟨⟨by simpa using h 0 (by omega), h 1 (by omega)⟩, h 2 (by omega)⟩, h 3 (by omega)⟩

end Sys2Proof.Machine
end

