-- ==== Sys2Proof/Laws/Contract.lean ====
section
/-! SUPPORT. What each check of the launch contract says: the executable check holds exactly where the item of
43_sequencer.md R153 does. -/

namespace Sys2Proof.Machine

theorem holds_iff {r : Region} {x : Nat} : r.holds x = true ↔ r.base ≤ x ∧ x < r.base + r.size := by
  simp [Region.holds]

/-- Two regions are disjoint exactly where no byte belongs to both. -/
theorem disjoint_iff {a b : Region} : a.disjoint b = true ↔ ∀ x, ¬ (a.holds x = true ∧ b.holds x = true) := by
  simp only [Region.disjoint, holds_iff, Bool.or_eq_true, beq_iff_eq, decide_eq_true_eq]
  constructor
  · rintro h x ⟨⟨_, _⟩, _, _⟩
    omega
  · intro h
    by_contra hc
    have := h (max a.base b.base)
    omega

/-- Item (b). -/
theorem sizeAccepted_iff {v : Word} : sizeAccepted v = true ↔ ∃ k, 4 ≤ k ∧ k ≤ 24 ∧ v.toNat = 2 ^ k := by
  rw [sizeAccepted, Bool.and_eq_true, Bool.and_eq_true, beq_iff_eq, decide_eq_true_iff, decide_eq_true_iff]
  constructor
  · rintro ⟨⟨h, hlo⟩, hhi⟩
    exact ⟨_, hlo, hhi, h⟩
  · rintro ⟨k, hlo, hhi, h⟩
    rw [h, Nat.log2_two_pow]
    exact ⟨⟨rfl, hlo⟩, hhi⟩

/-- Item (c). -/
theorem basesAligned_iff {c : Control} : basesAligned c = true ↔ BasesAligned c := by
  simp [basesAligned, BasesAligned]

/-- Item (d), 20_memory.md R84. -/
theorem regionsFit_iff {c : Control} {dir : Direction} {k : Nat} :
    (callRegions c dir k).all Region.fits = true ↔ RegionsFit c dir k := by
  simp only [List.all_eq_true, Region.fits, RegionsFit, decide_eq_true_eq]

/-- Item (d), 20_memory.md R85. -/
theorem regionsDisjoint_iff {c : Control} {dir : Direction} {k : Nat} :
    regionsDisjoint c dir k = true ↔ NoByteShared c dir k := by
  simp only [regionsDisjoint, NoByteShared, Bool.and_eq_true, List.all_eq_true, disjoint_iff]
  constructor
  · rintro ⟨⟨⟨h1, h2⟩, h3⟩, h4⟩ x
    refine ⟨h1 x, h2 x, h3 x, ?_⟩
    rintro ⟨h | h | h, r, hr, hx⟩
    · exact (h4 r hr).1.1 x ⟨h, hx⟩
    · exact (h4 r hr).1.2 x ⟨h, hx⟩
    · exact (h4 r hr).2 x ⟨h, hx⟩
  · intro h
    exact ⟨⟨⟨fun x => (h x).1, fun x => (h x).2.1⟩, fun x => (h x).2.2.1⟩, fun r hr =>
      ⟨⟨fun x hx => (h x).2.2.2 ⟨.inl hx.1, r, hr, hx.2⟩, fun x hx => (h x).2.2.2 ⟨.inr (.inl hx.1), r, hr, hx.2⟩⟩,
        fun x hx => (h x).2.2.2 ⟨.inr (.inr hx.1), r, hr, hx.2⟩⟩⟩

/-- Item (e). -/
theorem factorListCanonical_iff {s : State} {k : Nat} :
    factorListCanonical s.mem s.cr.factors k = true ↔ CanonicalList s k := by
  simp only [factorListCanonical, CanonicalList, List.all_eq_true, beq_iff_eq]
  constructor
  · intro h n v hv
    exact h (v, n) (List.mem_zipIdx_iff_getElem?.mpr hv)
  · rintro h ⟨v, n⟩ hp
    exact h n v (List.mem_zipIdx_iff_getElem?.mp hp)

/-! ### Item (f) -/

theorem wordsWritten_iff {s : State} {base : Word} {n : Nat} :
    wordsWritten s.hostWritten base n = true ↔ ∀ t, t < n → FromHost s (base + BitVec.ofNat 32 (4 * t)) := by
  simp only [wordsWritten, wordWritten, List.all_eq_true, List.mem_range, hasWord_iff, FromHost]

theorem slotWritten_iff {s : State} {base : Word} {n : Nat} :
    slotWritten s.hostWritten base n = true ↔ FromHost s (slot base n) ∧ FromHost s (slot base n + 4) := by
  rw [slotWritten, wordsWritten_iff]
  constructor
  · exact fun h => ⟨by simpa [slot] using h 0 (by omega), h 1 (by omega)⟩
  · rintro ⟨h0, h1⟩ t ht
    match t, ht with
    | 0, _ => simpa [slot] using h0
    | 1, _ => exact h1

theorem canon_length (k : Nat) : (canon k).length = 2 + 2 * canonStageCount k := by
  simp [canon, List.length_flatMap]
  omega

/-- Item (f). -/
theorem inputsWritten_iff {s : State} {dir : Direction} {k : Nat} :
    inputsWritten s.cr s.hostWritten dir k = true ↔ InputsFromHost s dir k := by
  have hb : twiddleBytes k / 4 = 2 * twiddleOffset k (driverPasses k + 1) := by
    unfold twiddleBytes
    omega
  simp only [inputsWritten, Bool.and_eq_true, wordsWritten_iff, hb, superTwiddlesWritten, slotWritten_iff,
    List.all_eq_true, InputsFromHost, canon_length, List.mem_range]
  constructor
  · rintro ⟨⟨⟨hl, ht⟩, ⟨h1, h3⟩, hg⟩, hi⟩
    refine ⟨hl, by cases dir <;> exact ht, ?_, by cases dir <;> exact hi⟩
    rintro n (rfl | rfl | ⟨q, j, hq, hq', hj, hj', rfl⟩)
    · exact h1
    · exact h3
    · have := hg (j - 1) (by omega) q (by simp; omega)
      rwa [Nat.sub_add_cancel hj] at this
  · rintro ⟨hl, ht, hs, hi⟩
    refine ⟨⟨⟨hl, by cases dir <;> exact ht⟩, ⟨hs 1 (.inl rfl), hs 3 (.inr (.inl rfl))⟩, ?_⟩,
      by cases dir <;> exact hi⟩
    intro t ht q hq
    simp only [List.mem_cons, List.not_mem_nil, or_false] at hq
    exact hs _ (.inr (.inr ⟨q, t + 1, by omega, by omega, by omega, by omega, rfl⟩))

end Sys2Proof.Machine
end

