-- ==== Sys2Proof/Laws/Encoding.lean ====
section
/-! SUPPORT. The fields of a uop word, and the word as its fields. -/

namespace Sys2Proof

/-- Bit `i` of a uop word comes from the index below bit 24 and from the opcode above. -/
theorem getLsbD_uopWord (o : BitVec 8) (x : BitVec 24) (i : Nat) :
    (uopWord o x).getLsbD i = if i < 24 then x.getLsbD i else o.getLsbD (i - 24) := by
  have h : (uopWord o x).getLsbD i = (o ++ x).getLsbD i := rfl
  rw [h, BitVec.getLsbD_append]

@[simp] theorem opcodeField_uopWord (o : BitVec 8) (x : BitVec 24) : opcodeField (uopWord o x) = o := by
  apply BitVec.eq_of_getLsbD_eq
  intro i hi
  rw [opcodeField, BitVec.getLsbD_extractLsb', getLsbD_uopWord]
  simp [hi]

@[simp] theorem indexField_uopWord (o : BitVec 8) (x : BitVec 24) : indexField (uopWord o x) = x := by
  apply BitVec.eq_of_getLsbD_eq
  intro i hi
  rw [indexField, BitVec.getLsbD_extractLsb', getLsbD_uopWord]
  simp [hi]

/-- A uop word as a number. -/
theorem uopWord_toNat (o : BitVec 8) (x : BitVec 24) : (uopWord o x).toNat = o.toNat * 2 ^ 24 + x.toNat := by
  have h : (uopWord o x).toNat = (o ++ x).toNat := rfl
  rw [h, BitVec.toNat_append, ← Nat.shiftLeft_add_eq_or_of_lt x.isLt, Nat.shiftLeft_eq]

/-- The unit is the high half of the opcode. -/
theorem unitField_eq_opcode (w : Word) : unitField w = (opcodeField w).extractLsb' 4 4 := by
  unfold opcodeField unitField
  apply BitVec.eq_of_getLsbD_eq
  intro i hi
  simp only [BitVec.getLsbD_extractLsb', hi, decide_true, Bool.true_and, show 4 + i < 8 by omega]
  congr 1
  omega

/-- A word is its opcode and its index. -/
theorem uopWord_fields (w : Word) : uopWord (opcodeField w) (indexField w) = w := by
  apply BitVec.eq_of_getLsbD_eq
  intro i hi
  rw [getLsbD_uopWord]
  unfold opcodeField indexField
  split
  · simp_all
  · rw [BitVec.getLsbD_extractLsb', show 24 + (i - 24) = i by omega]
    simp [show i - 24 < 8 by omega]

/-- Masking with `0xFF000000` keeps the opcode alone. -/
theorem uopWord_and_opcodeMask (o : BitVec 8) (x : BitVec 24) : uopWord o x &&& 0xFF000000#32 = uopWord o 0 := by
  apply BitVec.eq_of_getLsbD_eq
  intro i hi
  simp only [BitVec.getLsbD_and, getLsbD_uopWord]
  split
  · have : (0xFF000000#32).getLsbD i = false := by interval_cases i <;> decide
    simp [this]
  · have : (0xFF000000#32).getLsbD i = true := by interval_cases i <;> first | omega | decide
    simp [this]

end Sys2Proof
end

