-- ==== Sys2Proof/Laws/Float.lean ====
section
/-! SUPPORT. The fields of a pattern, and that a generated NaN is a quiet NaN whatever its free bits. -/

namespace Sys2Proof.Machine

/-- The bits of a generated NaN: exponent and quiet bit set, the rest free. -/
theorem getLsbD_nanResult (op : NumOp) (a b : F32) (i : Nat) :
    (nanResult op a b).getLsbD i =
      if i < 22 then (Config.nanBits op a b).getLsbD i
      else if i < 31 then true
      else decide (i = 31) && (Config.nanBits op a b).getLsbD 22 := by
  have h : (nanResult op a b).getLsbD i =
      ((Config.nanBits op a b).extractLsb' 22 1 ++ 0xFF#8 ++ 1#1 ++
        (Config.nanBits op a b).extractLsb' 0 22).getLsbD i := rfl
  rw [h, BitVec.getLsbD_append, BitVec.getLsbD_append, BitVec.getLsbD_append]
  by_cases h1 : i < 22
  · simp [h1]
  by_cases h2 : i < 23
  · have : i = 22 := by omega
    subst this
    simp
  by_cases h3 : i < 31
  · have h4 : i - 22 - 1 < 8 := by omega
    have h5 : (0xFF#8).getLsbD (i - 22 - 1) = true := by
      have : ∀ n < 8, (0xFF#8).getLsbD n = true := by decide
      exact this _ h4
    simp only [h1, h3, h4, h5, if_false, if_true, show ¬ (i - 22 < 1) by omega]
  · by_cases h4 : i = 31
    · subst h4
      simp
    · simp only [h1, h3, h4, if_false, show ¬ (i - 22 < 1) by omega, show ¬ (i - 22 - 1 < 8) by omega,
        BitVec.getLsbD_extractLsb', show ¬ (i - 22 - 1 - 8 < 1) by omega, decide_false, Bool.false_and]

/-- The exponent field is all ones exactly where bits 30:23 are set. -/
theorem f32Exp_eq_255 {a : F32} (h : ∀ i, 23 ≤ i → i < 31 → a.getLsbD i = true) : f32Exp a = 255 := by
  have : a.extractLsb' 23 8 = 0xFF#8 := by
    apply BitVec.eq_of_getLsbD_eq
    intro i hi
    have h5 : (0xFF#8).getLsbD i = true := by
      have : ∀ n < 8, (0xFF#8).getLsbD n = true := by decide
      exact this _ hi
    rw [BitVec.getLsbD_extractLsb', h5, h (23 + i) (by omega) (by omega)]
    simp [hi]
  rw [f32Exp, this]
  rfl

/-- A fraction with its top bit set is not zero. -/
theorem f32Frac_ne_zero {a : F32} (h : a.getLsbD 22 = true) : f32Frac a ≠ 0 := by
  intro h0
  have h1 : a.extractLsb' 0 23 = 0#23 := BitVec.eq_of_toNat_eq (by simpa [f32Frac] using h0)
  have h2 : (a.extractLsb' 0 23).getLsbD 22 = (0#23).getLsbD 22 := by rw [h1]
  rw [BitVec.getLsbD_extractLsb', show 0 + 22 = 22 from rfl, h] at h2
  simp at h2

/-- A generated NaN is a NaN (00_scope.md R19). -/
theorem nanResult_isNaN (op : NumOp) (a b : F32) : f32IsNaN (nanResult op a b) = true := by
  have he := f32Exp_eq_255 (a := nanResult op a b) fun i h1 h2 => by
    rw [getLsbD_nanResult]
    simp [show ¬ i < 22 by omega, h2]
  have hf := f32Frac_ne_zero (a := nanResult op a b) (by rw [getLsbD_nanResult]; simp)
  simp [f32IsNaN, he, hf]

/-- A generated NaN is quiet. -/
theorem nanResult_quiet (op : NumOp) (a b : F32) : (nanResult op a b).getLsbD 22 = true := by
  rw [getLsbD_nanResult]
  simp

end Sys2Proof.Machine
end

