-- ==== Sys2Proof/Laws/State.lean ====
section
/-! SUPPORT. What each named update of the state leaves in each field, true by rfl. -/

namespace Sys2Proof.Machine

/-! ### `State.storeWords` -/

@[simp] theorem storeWords_cr (s : State) (l : List Store) : (s.storeWords l).cr = s.cr := rfl
@[simp] theorem storeWords_sq (s : State) (l : List Store) : (s.storeWords l).sq = s.sq := rfl
@[simp] theorem storeWords_vr (s : State) (l : List Store) : (s.storeWords l).vr = s.vr := rfl
@[simp] theorem storeWords_mem (s : State) (l : List Store) : (s.storeWords l).mem = Memory.storeWords s.mem l := rfl
@[simp] theorem storeWords_hostWritten (s : State) (l : List Store) : (s.storeWords l).hostWritten = s.hostWritten := rfl
@[simp] theorem storeWords_events (s : State) (l : List Store) : (s.storeWords l).events = s.events := rfl
@[simp] theorem storeWords_hostWord (s : State) (l : List Store) : (s.storeWords l).hostWord = s.hostWord := rfl
@[simp] theorem storeWords_hostBytes (s : State) (l : List Store) : (s.storeWords l).hostBytes = s.hostBytes := rfl
@[simp] theorem storeWords_draws (s : State) (l : List Store) : (s.storeWords l).draws = s.draws := rfl

/-! ### `State.hostWrite` -/

@[simp] theorem hostWrite_cr (s : State) (a : Word) (bs : List Byte) : (s.hostWrite a bs).cr = s.cr := rfl
@[simp] theorem hostWrite_sq (s : State) (a : Word) (bs : List Byte) : (s.hostWrite a bs).sq = s.sq := rfl
@[simp] theorem hostWrite_vr (s : State) (a : Word) (bs : List Byte) : (s.hostWrite a bs).vr = s.vr := rfl
@[simp] theorem hostWrite_mem (s : State) (a : Word) (bs : List Byte) : (s.hostWrite a bs).mem = Memory.writeBytes s.mem a bs := rfl
@[simp] theorem hostWrite_hostWritten (s : State) (a : Word) (bs : List Byte) : (s.hostWrite a bs).hostWritten = AddressSet.addBytes s.hostWritten a bs.length := rfl
@[simp] theorem hostWrite_events (s : State) (a : Word) (bs : List Byte) : (s.hostWrite a bs).events = s.events := rfl
@[simp] theorem hostWrite_hostWord (s : State) (a : Word) (bs : List Byte) : (s.hostWrite a bs).hostWord = s.hostWord := rfl
@[simp] theorem hostWrite_hostBytes (s : State) (a : Word) (bs : List Byte) : (s.hostWrite a bs).hostBytes = s.hostBytes := rfl
@[simp] theorem hostWrite_draws (s : State) (a : Word) (bs : List Byte) : (s.hostWrite a bs).draws = s.draws := rfl

/-! ### `State.endUop` -/

@[simp] theorem endUop_cr (s : State) : s.endUop.cr = s.cr := rfl
@[simp] theorem endUop_sq (s : State) : s.endUop.sq = s.sq := rfl
@[simp] theorem endUop_vr (s : State) : s.endUop.vr = vectorsAfterUop s.draws := rfl
@[simp] theorem endUop_mem (s : State) : s.endUop.mem = s.mem := rfl
@[simp] theorem endUop_hostWritten (s : State) : s.endUop.hostWritten = s.hostWritten := rfl
@[simp] theorem endUop_events (s : State) : s.endUop.events = s.events := rfl
@[simp] theorem endUop_hostWord (s : State) : s.endUop.hostWord = s.hostWord := rfl
@[simp] theorem endUop_hostBytes (s : State) : s.endUop.hostBytes = s.hostBytes := rfl
@[simp] theorem endUop_draws (s : State) : s.endUop.draws = s.draws + 1 := rfl

/-! ### `State.advance` -/

@[simp] theorem advance_cr (s : State) : s.advance.cr = s.cr := rfl
@[simp] theorem advance_vr (s : State) : s.advance.vr = vectorsAfterUop s.draws := rfl
@[simp] theorem advance_mem (s : State) : s.advance.mem = s.mem := rfl
@[simp] theorem advance_hostWritten (s : State) : s.advance.hostWritten = s.hostWritten := rfl
@[simp] theorem advance_events (s : State) : s.advance.events = s.events := rfl
@[simp] theorem advance_hostWord (s : State) : s.advance.hostWord = s.hostWord := rfl
@[simp] theorem advance_hostBytes (s : State) : s.advance.hostBytes = s.hostBytes := rfl
@[simp] theorem advance_draws (s : State) : s.advance.draws = s.draws + 1 := rfl
@[simp] theorem advance_sq_busy (s : State) : s.advance.sq.busy = s.sq.busy := rfl
@[simp] theorem advance_sq_done (s : State) : s.advance.sq.done = s.sq.done := rfl
@[simp] theorem advance_sq_dir (s : State) : s.advance.sq.dir = s.sq.dir := rfl
@[simp] theorem advance_sq_upc (s : State) : s.advance.sq.upc = s.sq.upc + 1 := rfl
@[simp] theorem advance_sq_n (s : State) : s.advance.sq.n = s.sq.n := rfl
@[simp] theorem advance_sq_k (s : State) : s.advance.sq.k = s.sq.k := rfl
@[simp] theorem advance_sq_m (s : State) : s.advance.sq.m = s.sq.m := rfl
@[simp] theorem advance_sq_l (s : State) : s.advance.sq.l = s.sq.l := rfl
@[simp] theorem advance_sq_r1 (s : State) : s.advance.sq.r1 = s.sq.r1 := rfl
@[simp] theorem advance_sq_scalef (s : State) : s.advance.sq.scalef = s.sq.scalef := rfl
@[simp] theorem advance_sq_scale (s : State) : s.advance.sq.scale = s.sq.scale := rfl
@[simp] theorem advance_sq_stM (s : State) : s.advance.sq.stM = s.sq.stM := rfl
@[simp] theorem advance_sq_stF (s : State) : s.advance.sq.stF = s.sq.stF := rfl
@[simp] theorem advance_sq_stTW (s : State) : s.advance.sq.stTW = s.sq.stTW := rfl
@[simp] theorem advance_sq_stage (s : State) : s.advance.sq.stage = s.sq.stage := rfl
@[simp] theorem advance_sq_srcsel (s : State) : s.advance.sq.srcsel = s.sq.srcsel := rfl
@[simp] theorem advance_sq_dstsel (s : State) : s.advance.sq.dstsel = s.sq.dstsel := rfl
@[simp] theorem advance_sq_save0i (s : State) : s.advance.sq.save0i = s.sq.save0i := rfl

/-! ### `State.startCall` -/

@[simp] theorem startCall_cr (s : State) (dir : Direction) : (s.startCall dir).cr = s.cr := rfl
@[simp] theorem startCall_vr (s : State) (dir : Direction) : (s.startCall dir).vr = s.vr := rfl
@[simp] theorem startCall_mem (s : State) (dir : Direction) : (s.startCall dir).mem = s.mem := rfl
@[simp] theorem startCall_hostWritten (s : State) (dir : Direction) : (s.startCall dir).hostWritten = s.hostWritten := rfl
@[simp] theorem startCall_events (s : State) (dir : Direction) : (s.startCall dir).events = s.events := rfl
@[simp] theorem startCall_hostWord (s : State) (dir : Direction) : (s.startCall dir).hostWord = s.hostWord := rfl
@[simp] theorem startCall_hostBytes (s : State) (dir : Direction) : (s.startCall dir).hostBytes = s.hostBytes := rfl
@[simp] theorem startCall_draws (s : State) (dir : Direction) : (s.startCall dir).draws = s.draws := rfl
@[simp] theorem startCall_sq_busy (s : State) (dir : Direction) : (s.startCall dir).sq.busy = true := rfl
@[simp] theorem startCall_sq_done (s : State) (dir : Direction) : (s.startCall dir).sq.done = false := rfl
@[simp] theorem startCall_sq_dir (s : State) (dir : Direction) : (s.startCall dir).sq.dir = dir := rfl
@[simp] theorem startCall_sq_upc (s : State) (dir : Direction) : (s.startCall dir).sq.upc = 0 := rfl
@[simp] theorem startCall_sq_n (s : State) (dir : Direction) : (s.startCall dir).sq.n = s.sq.n := rfl
@[simp] theorem startCall_sq_k (s : State) (dir : Direction) : (s.startCall dir).sq.k = s.sq.k := rfl
@[simp] theorem startCall_sq_m (s : State) (dir : Direction) : (s.startCall dir).sq.m = s.sq.m := rfl
@[simp] theorem startCall_sq_l (s : State) (dir : Direction) : (s.startCall dir).sq.l = s.sq.l := rfl
@[simp] theorem startCall_sq_r1 (s : State) (dir : Direction) : (s.startCall dir).sq.r1 = s.sq.r1 := rfl
@[simp] theorem startCall_sq_scalef (s : State) (dir : Direction) : (s.startCall dir).sq.scalef = s.sq.scalef := rfl
@[simp] theorem startCall_sq_scale (s : State) (dir : Direction) : (s.startCall dir).sq.scale = s.sq.scale := rfl
@[simp] theorem startCall_sq_stM (s : State) (dir : Direction) : (s.startCall dir).sq.stM = s.sq.stM := rfl
@[simp] theorem startCall_sq_stF (s : State) (dir : Direction) : (s.startCall dir).sq.stF = s.sq.stF := rfl
@[simp] theorem startCall_sq_stTW (s : State) (dir : Direction) : (s.startCall dir).sq.stTW = s.sq.stTW := rfl
@[simp] theorem startCall_sq_stage (s : State) (dir : Direction) : (s.startCall dir).sq.stage = s.sq.stage := rfl
@[simp] theorem startCall_sq_srcsel (s : State) (dir : Direction) : (s.startCall dir).sq.srcsel = s.sq.srcsel := rfl
@[simp] theorem startCall_sq_dstsel (s : State) (dir : Direction) : (s.startCall dir).sq.dstsel = s.sq.dstsel := rfl
@[simp] theorem startCall_sq_save0i (s : State) (dir : Direction) : (s.startCall dir).sq.save0i = s.sq.save0i := rfl

/-! ### `State.finishCall` -/

@[simp] theorem finishCall_cr (s : State) : s.finishCall.cr = s.cr := rfl
@[simp] theorem finishCall_vr (s : State) : s.finishCall.vr = s.vr := rfl
@[simp] theorem finishCall_mem (s : State) : s.finishCall.mem = s.mem := rfl
@[simp] theorem finishCall_hostWritten (s : State) : s.finishCall.hostWritten = s.hostWritten := rfl
@[simp] theorem finishCall_events (s : State) : s.finishCall.events = s.events := rfl
@[simp] theorem finishCall_hostWord (s : State) : s.finishCall.hostWord = s.hostWord := rfl
@[simp] theorem finishCall_hostBytes (s : State) : s.finishCall.hostBytes = s.hostBytes := rfl
@[simp] theorem finishCall_draws (s : State) : s.finishCall.draws = s.draws := rfl
@[simp] theorem finishCall_sq_busy (s : State) : s.finishCall.sq.busy = false := rfl
@[simp] theorem finishCall_sq_done (s : State) : s.finishCall.sq.done = true := rfl
@[simp] theorem finishCall_sq_dir (s : State) : s.finishCall.sq.dir = s.sq.dir := rfl
@[simp] theorem finishCall_sq_upc (s : State) : s.finishCall.sq.upc = s.sq.upc := rfl
@[simp] theorem finishCall_sq_n (s : State) : s.finishCall.sq.n = s.sq.n := rfl
@[simp] theorem finishCall_sq_k (s : State) : s.finishCall.sq.k = s.sq.k := rfl
@[simp] theorem finishCall_sq_m (s : State) : s.finishCall.sq.m = s.sq.m := rfl
@[simp] theorem finishCall_sq_l (s : State) : s.finishCall.sq.l = s.sq.l := rfl
@[simp] theorem finishCall_sq_r1 (s : State) : s.finishCall.sq.r1 = s.sq.r1 := rfl
@[simp] theorem finishCall_sq_scalef (s : State) : s.finishCall.sq.scalef = s.sq.scalef := rfl
@[simp] theorem finishCall_sq_scale (s : State) : s.finishCall.sq.scale = s.sq.scale := rfl
@[simp] theorem finishCall_sq_stM (s : State) : s.finishCall.sq.stM = s.sq.stM := rfl
@[simp] theorem finishCall_sq_stF (s : State) : s.finishCall.sq.stF = s.sq.stF := rfl
@[simp] theorem finishCall_sq_stTW (s : State) : s.finishCall.sq.stTW = s.sq.stTW := rfl
@[simp] theorem finishCall_sq_stage (s : State) : s.finishCall.sq.stage = s.sq.stage := rfl
@[simp] theorem finishCall_sq_srcsel (s : State) : s.finishCall.sq.srcsel = s.sq.srcsel := rfl
@[simp] theorem finishCall_sq_dstsel (s : State) : s.finishCall.sq.dstsel = s.sq.dstsel := rfl
@[simp] theorem finishCall_sq_save0i (s : State) : s.finishCall.sq.save0i = s.sq.save0i := rfl

/-! ### `State.swapBuffers` -/

@[simp] theorem swapBuffers_cr (s : State) (stage : BitVec 4) : (s.swapBuffers stage).cr = s.cr := rfl
@[simp] theorem swapBuffers_vr (s : State) (stage : BitVec 4) : (s.swapBuffers stage).vr = s.vr := rfl
@[simp] theorem swapBuffers_mem (s : State) (stage : BitVec 4) : (s.swapBuffers stage).mem = s.mem := rfl
@[simp] theorem swapBuffers_hostWritten (s : State) (stage : BitVec 4) : (s.swapBuffers stage).hostWritten = s.hostWritten := rfl
@[simp] theorem swapBuffers_events (s : State) (stage : BitVec 4) : (s.swapBuffers stage).events = s.events := rfl
@[simp] theorem swapBuffers_hostWord (s : State) (stage : BitVec 4) : (s.swapBuffers stage).hostWord = s.hostWord := rfl
@[simp] theorem swapBuffers_hostBytes (s : State) (stage : BitVec 4) : (s.swapBuffers stage).hostBytes = s.hostBytes := rfl
@[simp] theorem swapBuffers_draws (s : State) (stage : BitVec 4) : (s.swapBuffers stage).draws = s.draws := rfl
@[simp] theorem swapBuffers_sq_busy (s : State) (stage : BitVec 4) : (s.swapBuffers stage).sq.busy = s.sq.busy := rfl
@[simp] theorem swapBuffers_sq_done (s : State) (stage : BitVec 4) : (s.swapBuffers stage).sq.done = s.sq.done := rfl
@[simp] theorem swapBuffers_sq_dir (s : State) (stage : BitVec 4) : (s.swapBuffers stage).sq.dir = s.sq.dir := rfl
@[simp] theorem swapBuffers_sq_upc (s : State) (stage : BitVec 4) : (s.swapBuffers stage).sq.upc = s.sq.upc := rfl
@[simp] theorem swapBuffers_sq_n (s : State) (stage : BitVec 4) : (s.swapBuffers stage).sq.n = s.sq.n := rfl
@[simp] theorem swapBuffers_sq_k (s : State) (stage : BitVec 4) : (s.swapBuffers stage).sq.k = s.sq.k := rfl
@[simp] theorem swapBuffers_sq_m (s : State) (stage : BitVec 4) : (s.swapBuffers stage).sq.m = s.sq.m := rfl
@[simp] theorem swapBuffers_sq_l (s : State) (stage : BitVec 4) : (s.swapBuffers stage).sq.l = s.sq.l := rfl
@[simp] theorem swapBuffers_sq_r1 (s : State) (stage : BitVec 4) : (s.swapBuffers stage).sq.r1 = s.sq.r1 := rfl
@[simp] theorem swapBuffers_sq_scalef (s : State) (stage : BitVec 4) : (s.swapBuffers stage).sq.scalef = s.sq.scalef := rfl
@[simp] theorem swapBuffers_sq_scale (s : State) (stage : BitVec 4) : (s.swapBuffers stage).sq.scale = s.sq.scale := rfl
@[simp] theorem swapBuffers_sq_stM (s : State) (stage : BitVec 4) : (s.swapBuffers stage).sq.stM = s.sq.stM := rfl
@[simp] theorem swapBuffers_sq_stF (s : State) (stage : BitVec 4) : (s.swapBuffers stage).sq.stF = s.sq.stF := rfl
@[simp] theorem swapBuffers_sq_stTW (s : State) (stage : BitVec 4) : (s.swapBuffers stage).sq.stTW = s.sq.stTW := rfl
@[simp] theorem swapBuffers_sq_stage (s : State) (stage : BitVec 4) : (s.swapBuffers stage).sq.stage = stage := rfl
@[simp] theorem swapBuffers_sq_srcsel (s : State) (stage : BitVec 4) : (s.swapBuffers stage).sq.srcsel = s.sq.dstsel := rfl
@[simp] theorem swapBuffers_sq_dstsel (s : State) (stage : BitVec 4) : (s.swapBuffers stage).sq.dstsel = (if s.sq.dstsel = s.cr.dst then s.cr.scratch else s.cr.dst) := rfl
@[simp] theorem swapBuffers_sq_save0i (s : State) (stage : BitVec 4) : (s.swapBuffers stage).sq.save0i = s.sq.save0i := rfl

/-! ### `State.saveWord` -/

@[simp] theorem saveWord_cr (s : State) (v : Word) : (s.saveWord v).cr = s.cr := rfl
@[simp] theorem saveWord_vr (s : State) (v : Word) : (s.saveWord v).vr = s.vr := rfl
@[simp] theorem saveWord_mem (s : State) (v : Word) : (s.saveWord v).mem = s.mem := rfl
@[simp] theorem saveWord_hostWritten (s : State) (v : Word) : (s.saveWord v).hostWritten = s.hostWritten := rfl
@[simp] theorem saveWord_events (s : State) (v : Word) : (s.saveWord v).events = s.events := rfl
@[simp] theorem saveWord_hostWord (s : State) (v : Word) : (s.saveWord v).hostWord = s.hostWord := rfl
@[simp] theorem saveWord_hostBytes (s : State) (v : Word) : (s.saveWord v).hostBytes = s.hostBytes := rfl
@[simp] theorem saveWord_draws (s : State) (v : Word) : (s.saveWord v).draws = s.draws := rfl
@[simp] theorem saveWord_sq_busy (s : State) (v : Word) : (s.saveWord v).sq.busy = s.sq.busy := rfl
@[simp] theorem saveWord_sq_done (s : State) (v : Word) : (s.saveWord v).sq.done = s.sq.done := rfl
@[simp] theorem saveWord_sq_dir (s : State) (v : Word) : (s.saveWord v).sq.dir = s.sq.dir := rfl
@[simp] theorem saveWord_sq_upc (s : State) (v : Word) : (s.saveWord v).sq.upc = s.sq.upc := rfl
@[simp] theorem saveWord_sq_n (s : State) (v : Word) : (s.saveWord v).sq.n = s.sq.n := rfl
@[simp] theorem saveWord_sq_k (s : State) (v : Word) : (s.saveWord v).sq.k = s.sq.k := rfl
@[simp] theorem saveWord_sq_m (s : State) (v : Word) : (s.saveWord v).sq.m = s.sq.m := rfl
@[simp] theorem saveWord_sq_l (s : State) (v : Word) : (s.saveWord v).sq.l = s.sq.l := rfl
@[simp] theorem saveWord_sq_r1 (s : State) (v : Word) : (s.saveWord v).sq.r1 = s.sq.r1 := rfl
@[simp] theorem saveWord_sq_scalef (s : State) (v : Word) : (s.saveWord v).sq.scalef = s.sq.scalef := rfl
@[simp] theorem saveWord_sq_scale (s : State) (v : Word) : (s.saveWord v).sq.scale = s.sq.scale := rfl
@[simp] theorem saveWord_sq_stM (s : State) (v : Word) : (s.saveWord v).sq.stM = s.sq.stM := rfl
@[simp] theorem saveWord_sq_stF (s : State) (v : Word) : (s.saveWord v).sq.stF = s.sq.stF := rfl
@[simp] theorem saveWord_sq_stTW (s : State) (v : Word) : (s.saveWord v).sq.stTW = s.sq.stTW := rfl
@[simp] theorem saveWord_sq_stage (s : State) (v : Word) : (s.saveWord v).sq.stage = s.sq.stage := rfl
@[simp] theorem saveWord_sq_srcsel (s : State) (v : Word) : (s.saveWord v).sq.srcsel = s.sq.srcsel := rfl
@[simp] theorem saveWord_sq_dstsel (s : State) (v : Word) : (s.saveWord v).sq.dstsel = s.sq.dstsel := rfl
@[simp] theorem saveWord_sq_save0i (s : State) (v : Word) : (s.saveWord v).sq.save0i = v := rfl

/-! ### `State.latchPlan` -/

@[simp] theorem latchPlan_cr (s : State) (scalef : Bool) (stage : BitVec 4) : (s.latchPlan scalef stage).cr = s.cr := rfl
@[simp] theorem latchPlan_vr (s : State) (scalef : Bool) (stage : BitVec 4) : (s.latchPlan scalef stage).vr = s.vr := rfl
@[simp] theorem latchPlan_mem (s : State) (scalef : Bool) (stage : BitVec 4) : (s.latchPlan scalef stage).mem = s.mem := rfl
@[simp] theorem latchPlan_hostWritten (s : State) (scalef : Bool) (stage : BitVec 4) : (s.latchPlan scalef stage).hostWritten = s.hostWritten := rfl
@[simp] theorem latchPlan_events (s : State) (scalef : Bool) (stage : BitVec 4) : (s.latchPlan scalef stage).events = s.events := rfl
@[simp] theorem latchPlan_hostWord (s : State) (scalef : Bool) (stage : BitVec 4) : (s.latchPlan scalef stage).hostWord = s.hostWord := rfl
@[simp] theorem latchPlan_hostBytes (s : State) (scalef : Bool) (stage : BitVec 4) : (s.latchPlan scalef stage).hostBytes = s.hostBytes := rfl
@[simp] theorem latchPlan_draws (s : State) (scalef : Bool) (stage : BitVec 4) : (s.latchPlan scalef stage).draws = s.draws := rfl
@[simp] theorem latchPlan_sq_busy (s : State) (scalef : Bool) (stage : BitVec 4) : (s.latchPlan scalef stage).sq.busy = s.sq.busy := rfl
@[simp] theorem latchPlan_sq_done (s : State) (scalef : Bool) (stage : BitVec 4) : (s.latchPlan scalef stage).sq.done = s.sq.done := rfl
@[simp] theorem latchPlan_sq_dir (s : State) (scalef : Bool) (stage : BitVec 4) : (s.latchPlan scalef stage).sq.dir = s.sq.dir := rfl
@[simp] theorem latchPlan_sq_upc (s : State) (scalef : Bool) (stage : BitVec 4) : (s.latchPlan scalef stage).sq.upc = s.sq.upc := rfl
@[simp] theorem latchPlan_sq_n (s : State) (scalef : Bool) (stage : BitVec 4) : (s.latchPlan scalef stage).sq.n = s.cr.nfft := rfl
@[simp] theorem latchPlan_sq_k (s : State) (scalef : Bool) (stage : BitVec 4) : (s.latchPlan scalef stage).sq.k = BitVec.ofNat 5 (Nat.log2 s.cr.nfft.toNat) := rfl
@[simp] theorem latchPlan_sq_m (s : State) (scalef : Bool) (stage : BitVec 4) : (s.latchPlan scalef stage).sq.m = s.cr.nfft >>> 2 := rfl
@[simp] theorem latchPlan_sq_l (s : State) (scalef : Bool) (stage : BitVec 4) : (s.latchPlan scalef stage).sq.l = (passCount s).setWidth 4 := rfl
@[simp] theorem latchPlan_sq_r1 (s : State) (scalef : Bool) (stage : BitVec 4) : (s.latchPlan scalef stage).sq.r1 = radixOne s := rfl
@[simp] theorem latchPlan_sq_scalef (s : State) (scalef : Bool) (stage : BitVec 4) : (s.latchPlan scalef stage).sq.scalef = scalef := rfl
@[simp] theorem latchPlan_sq_scale (s : State) (scalef : Bool) (stage : BitVec 4) : (s.latchPlan scalef stage).sq.scale = scaleConstant (BitVec.ofNat 5 (Nat.log2 s.cr.nfft.toNat)) := rfl
@[simp] theorem latchPlan_sq_stage (s : State) (scalef : Bool) (stage : BitVec 4) : (s.latchPlan scalef stage).sq.stage = stage := rfl
@[simp] theorem latchPlan_sq_srcsel (s : State) (scalef : Bool) (stage : BitVec 4) : (s.latchPlan scalef stage).sq.srcsel = s.cr.src := rfl
@[simp] theorem latchPlan_sq_dstsel (s : State) (scalef : Bool) (stage : BitVec 4) : (s.latchPlan scalef stage).sq.dstsel = (if (passCount s).toNat % 2 = 0 then s.cr.dst else s.cr.scratch) := rfl
@[simp] theorem latchPlan_sq_save0i (s : State) (scalef : Bool) (stage : BitVec 4) : (s.latchPlan scalef stage).sq.save0i = s.sq.save0i := rfl

/-! ### `State.writeReg` -/

@[simp] theorem writeReg_cr (s : State) (r : CtrlReg) (v : Word) : (s.writeReg r v).cr = s.cr.write r v := rfl
@[simp] theorem writeReg_sq (s : State) (r : CtrlReg) (v : Word) : (s.writeReg r v).sq = s.sq := rfl
@[simp] theorem writeReg_vr (s : State) (r : CtrlReg) (v : Word) : (s.writeReg r v).vr = s.vr := rfl
@[simp] theorem writeReg_mem (s : State) (r : CtrlReg) (v : Word) : (s.writeReg r v).mem = s.mem := rfl
@[simp] theorem writeReg_hostWritten (s : State) (r : CtrlReg) (v : Word) : (s.writeReg r v).hostWritten = s.hostWritten := rfl
@[simp] theorem writeReg_events (s : State) (r : CtrlReg) (v : Word) : (s.writeReg r v).events = s.events := rfl
@[simp] theorem writeReg_hostWord (s : State) (r : CtrlReg) (v : Word) : (s.writeReg r v).hostWord = s.hostWord := rfl
@[simp] theorem writeReg_hostBytes (s : State) (r : CtrlReg) (v : Word) : (s.writeReg r v).hostBytes = s.hostBytes := rfl
@[simp] theorem writeReg_draws (s : State) (r : CtrlReg) (v : Word) : (s.writeReg r v).draws = s.draws := rfl

/-! ### `State.answerWord` -/

@[simp] theorem answerWord_cr (s : State) (v : Word) : (s.answerWord v).cr = s.cr := rfl
@[simp] theorem answerWord_sq (s : State) (v : Word) : (s.answerWord v).sq = s.sq := rfl
@[simp] theorem answerWord_vr (s : State) (v : Word) : (s.answerWord v).vr = s.vr := rfl
@[simp] theorem answerWord_mem (s : State) (v : Word) : (s.answerWord v).mem = s.mem := rfl
@[simp] theorem answerWord_hostWritten (s : State) (v : Word) : (s.answerWord v).hostWritten = s.hostWritten := rfl
@[simp] theorem answerWord_events (s : State) (v : Word) : (s.answerWord v).events = s.events := rfl
@[simp] theorem answerWord_hostWord (s : State) (v : Word) : (s.answerWord v).hostWord = v := rfl
@[simp] theorem answerWord_hostBytes (s : State) (v : Word) : (s.answerWord v).hostBytes = s.hostBytes := rfl
@[simp] theorem answerWord_draws (s : State) (v : Word) : (s.answerWord v).draws = s.draws := rfl

/-! ### `State.resetEvent` -/

@[simp] theorem resetEvent_cr (s : State) : s.resetEvent.cr = Control.reset := rfl
@[simp] theorem resetEvent_sq (s : State) : s.resetEvent.sq = Sequencer.reset := rfl
@[simp] theorem resetEvent_vr (s : State) : s.resetEvent.vr = Vector.replicate _ 0 := rfl
@[simp] theorem resetEvent_mem (s : State) : s.resetEvent.mem = s.mem := rfl
@[simp] theorem resetEvent_hostWritten (s : State) : s.resetEvent.hostWritten = s.hostWritten := rfl
@[simp] theorem resetEvent_events (s : State) : s.resetEvent.events = s.events := rfl
@[simp] theorem resetEvent_hostWord (s : State) : s.resetEvent.hostWord = s.hostWord := rfl
@[simp] theorem resetEvent_hostBytes (s : State) : s.resetEvent.hostBytes = s.hostBytes := rfl
@[simp] theorem resetEvent_draws (s : State) : s.resetEvent.draws = s.draws := rfl

end Sys2Proof.Machine
end

