-- ==== Sys2Proof/Laws/Ops.lean ====
section
/-! SUPPORT. Once for each shared operation: everything it can do. -/

namespace Sys2Proof.Machine

/-! ### Issuing a uop -/

/-- A uop answers a next state exactly where it is legal, and then its effect. -/
theorem issue_eq_next_iff {dir : Direction} {r p : Bool} {s e t : State} :
    issue dir r p s e = .next t ↔ s.sq.dir = dir ∧ r = true ∧ p = true ∧ e = t := by
  unfold issue
  split
  · next h => simp [h]
  · next h =>
    cases r <;> cases p <;> simp_all

theorem issue_of_legal {dir : Direction} {r p : Bool} {s e : State} (hd : s.sq.dir = dir) (hr : r = true)
    (hp : p = true) : issue dir r p s e = .next e :=
  issue_eq_next_iff.mpr ⟨hd, hr, hp, rfl⟩

/-! ### Reads of the state after an update -/

@[simp] theorem word_advance (s : State) (a : Word) : s.advance.word a = s.word a := rfl
@[simp] theorem byteAt_advance (s : State) (a : Word) : s.advance.byteAt a = s.byteAt a := rfl
@[simp] theorem complexAt_advance (s : State) (a : Word) : s.advance.complexAt a = s.complexAt a := rfl

theorem word_storeWords (s : State) (l : List Store) (a : Word) :
    (s.storeWords l).word a = Memory.readWord (Memory.storeWords s.mem l) a := rfl

/-- Every byte outside the words a uop stores reads as before. -/
theorem byteAt_storeWords_untouched (s : State) {l : List Store} {x : Word} (h : Untouched l x) :
    (s.storeWords l).byteAt x = s.byteAt x :=
  byteAt_storeWords_other s.mem l h

/-- A word a uop stores reads back as the value stored, where its stores lie apart. -/
theorem word_storeWords_of_mem (s : State) {l : List Store} (h : l.Pairwise fun s t => Apart s.addr t.addr)
    {a v : Word} (hst : Store.mk a v ∈ l) : (s.storeWords l).word a = v := by
  have := readWord_storeWords_mem s.mem h hst
  exact this

/-- A complex slot a uop stores reads back as the value stored, where its stores lie apart. -/
theorem complexAt_storeWords_of_mem (s : State) {l : List Store} (h : l.Pairwise fun s t => Apart s.addr t.addr)
    {a : Word} {c : Cplx} (hst : ∀ st ∈ storeC a c, st ∈ l) : (s.storeWords l).complexAt a = c := by
  have hr := word_storeWords_of_mem s h (hst ⟨a, c.r⟩ (by simp [storeC]))
  have hi := word_storeWords_of_mem s h (hst ⟨a + 4, c.i⟩ (by simp [storeC]))
  simp only [State.complexAt, hr, hi]

/-! ### Stores given by word numbers of one region -/

/-- The stores at the given word numbers of the region at `base`. -/
def storesAt (base : Word) (l : List (Nat × Word)) : List Store :=
  l.map fun p => ⟨base + BitVec.ofNat 32 (4 * p.1), p.2⟩

theorem storesAt_append (base : Word) (l l' : List (Nat × Word)) :
    storesAt base (l ++ l') = storesAt base l ++ storesAt base l' := by simp [storesAt]

/-- Stores at different word numbers within `2^30` of each other lie apart. -/
theorem storesAt_pairwise (base : Word) {l : List (Nat × Word)} (lo : Nat)
    (hb : ∀ p ∈ l, lo ≤ p.1 ∧ p.1 < lo + 2 ^ 30) (hn : (l.map Prod.fst).Nodup) :
    (storesAt base l).Pairwise fun s t => Apart s.addr t.addr := by
  induction l with
  | nil => exact List.Pairwise.nil
  | cons p l ih =>
    simp only [List.map_cons, List.nodup_cons] at hn
    refine List.pairwise_cons.mpr ⟨fun t ht => ?_, ih (fun q hq => hb q (List.mem_cons_of_mem _ hq)) hn.2⟩
    obtain ⟨q, hq, rfl⟩ := List.mem_map.mp ht
    have h1 := hb p List.mem_cons_self
    have h2 := hb q (List.mem_cons_of_mem _ hq)
    refine apart_of_offsets base (fun h => hn.1 ?_) (by omega) (by omega)
    rw [h]
    exact List.mem_map.mpr ⟨q, hq, rfl⟩

/-- Four bytes at word number `n` of the region at `base` do not contain the byte at offset `4·m + r`, `m ≠ n`. -/
theorem offset_outside (base x : Word) {n k : Nat} (hx : k ≤ (x - base).toNat) (hn : 4 * n + 4 ≤ k) :
    4 ≤ (x - (base + BitVec.ofNat 32 (4 * n))).toNat := by
  have h := x.isLt
  have : x - (base + BitVec.ofNat 32 (4 * n)) = (x - base) - BitVec.ofNat 32 (4 * n) := by
    bv_omega
  rw [this, BitVec.toNat_sub]
  have := (x - base).isLt
  simp only [BitVec.toNat_ofNat]
  omega

/-! ### Addresses as word numbers -/

theorem slot_eq (base : Word) (n : Nat) : slot base n = base + BitVec.ofNat 32 (4 * (2 * n)) := by
  unfold slot; congr 2; omega

theorem slot_add_four (base : Word) (n : Nat) : slot base n + 4 = base + BitVec.ofNat 32 (4 * (2 * n + 1)) := by
  unfold slot
  rw [BitVec.add_assoc]
  congr 1
  apply BitVec.eq_of_toNat_eq
  simp only [BitVec.toNat_add, BitVec.toNat_ofNat, BitVec.ofNat_eq_ofNat]
  omega

theorem ea_eq_slot (base : Word) (e q : Nat) : ea base e q = slot base (4 * e + q) := rfl

theorem ra_eq (base : Word) (e q : Nat) : ra base e q = base + BitVec.ofNat 32 (4 * (4 * e + q)) := rfl

/-- A complex slot as two words of its region. -/
theorem storeC_slot (base : Word) (n : Nat) (c : Cplx) :
    storeC (slot base n) c = storesAt base [(2 * n, c.r), (2 * n + 1, c.i)] := by
  simp only [storeC, storesAt, List.map_cons, List.map_nil]
  rw [slot_add_four, slot_eq]

/-! ### The listing of `uprog` -/

/-- The uops a listing stands for. -/
def expandLines (l : List Line) : List Instr :=
  l.flatMap fun ln => (List.range ln.count).map ln.uop

theorem expandLines_length (l : List Line) : (expandLines l).length = (l.map Line.count).sum := by
  induction l with
  | nil => rfl
  | cons ln l ih => simp_all [expandLines]

/-- `uopAt` reads the list of uops the listing stands for. -/
theorem uopAt_eq_getElem? (l : List Line) (n : Nat) : uopAt l n = (expandLines l)[n]? := by
  induction l generalizing n with
  | nil => simp [uopAt, expandLines]
  | cons ln l ih =>
    have hcons : expandLines (ln :: l) = (List.range ln.count).map ln.uop ++ expandLines l := by
      simp [expandLines]
    rw [uopAt, hcons, List.getElem?_append]
    simp only [List.length_map, List.length_range]
    split
    · next h => simp [h]
    · exact ih _

end Sys2Proof.Machine
end

