-- ==== Sys2Proof/Laws/PerInstr.lean ====
section
/-! SUPPORT. The family `EncodeMatchesTable`: the word of every instruction meets the match and mask of its row in
spec/opcode_table.json (30_encoding.md R104, R110). -/

namespace Sys2Proof.Laws.EncodeMatchesTable

/-- The `match` column of the instruction's row. -/
def rowMatch : Instr → Word
  | .seqBeginF => 0x10000000#32
  | .seqBeginI => 0x11000000#32
  | .seqNextF => 0x14000000#32
  | .seqNextI => 0x15000000#32
  | .seqEndF => 0x18000000#32
  | .seqEndI => 0x19000000#32
  | .r4fF _ => 0x20000000#32
  | .r4fI _ => 0x21000000#32
  | .r4fIS _ => 0x23000000#32
  | .r4tF _ => 0x30000000#32
  | .r4tI _ => 0x31000000#32
  | .r8F _ => 0x40000000#32
  | .r8I _ => 0x41000000#32
  | .r8IS _ => 0x43000000#32
  | .finEdgeF => 0x50000000#32
  | .finEdgeI => 0x51000000#32
  | .finSecF => 0x54000000#32
  | .finSecI => 0x55000000#32
  | .finIntF _ => 0x58000000#32
  | .finIntI _ => 0x59000000#32
  | .packF => 0x60000000#32
  | .unpackI => 0x61000000#32
  | .restoreI => 0x65000000#32
  | .fwd => 0x00000001#32
  | .inv => 0x00000002#32

/-- The `mask` column of the instruction's row. -/
def rowMask : Instr → Word
  | .seqBeginF => 0xFFFFFFFF#32
  | .seqBeginI => 0xFFFFFFFF#32
  | .seqNextF => 0xFFFFFFFF#32
  | .seqNextI => 0xFFFFFFFF#32
  | .seqEndF => 0xFFFFFFFF#32
  | .seqEndI => 0xFFFFFFFF#32
  | .r4fF _ => 0xFF000000#32
  | .r4fI _ => 0xFF000000#32
  | .r4fIS _ => 0xFF000000#32
  | .r4tF _ => 0xFF000000#32
  | .r4tI _ => 0xFF000000#32
  | .r8F _ => 0xFF000000#32
  | .r8I _ => 0xFF000000#32
  | .r8IS _ => 0xFF000000#32
  | .finEdgeF => 0xFFFFFFFF#32
  | .finEdgeI => 0xFFFFFFFF#32
  | .finSecF => 0xFFFFFFFF#32
  | .finSecI => 0xFFFFFFFF#32
  | .finIntF _ => 0xFF000000#32
  | .finIntI _ => 0xFF000000#32
  | .packF => 0xFFFFFFFF#32
  | .unpackI => 0xFFFFFFFF#32
  | .restoreI => 0xFFFFFFFF#32
  | .fwd => 0xFFFFFFFF#32
  | .inv => 0xFFFFFFFF#32

/-- The instruction's word meets its row. -/
def Statement (i : Instr) : Prop := encode i &&& rowMask i = rowMatch i

theorem seqBeginF : Statement .seqBeginF := by unfold Statement; decide
theorem seqBeginI : Statement .seqBeginI := by unfold Statement; decide
theorem seqNextF : Statement .seqNextF := by unfold Statement; decide
theorem seqNextI : Statement .seqNextI := by unfold Statement; decide
theorem seqEndF : Statement .seqEndF := by unfold Statement; decide
theorem seqEndI : Statement .seqEndI := by unfold Statement; decide
theorem r4fF (n : BitVec 24) : Statement (.r4fF n) := uopWord_and_opcodeMask _ n
theorem r4fI (n : BitVec 24) : Statement (.r4fI n) := uopWord_and_opcodeMask _ n
theorem r4fIS (n : BitVec 24) : Statement (.r4fIS n) := uopWord_and_opcodeMask _ n
theorem r4tF (n : BitVec 24) : Statement (.r4tF n) := uopWord_and_opcodeMask _ n
theorem r4tI (n : BitVec 24) : Statement (.r4tI n) := uopWord_and_opcodeMask _ n
theorem r8F (n : BitVec 24) : Statement (.r8F n) := uopWord_and_opcodeMask _ n
theorem r8I (n : BitVec 24) : Statement (.r8I n) := uopWord_and_opcodeMask _ n
theorem r8IS (n : BitVec 24) : Statement (.r8IS n) := uopWord_and_opcodeMask _ n
theorem finEdgeF : Statement .finEdgeF := by unfold Statement; decide
theorem finEdgeI : Statement .finEdgeI := by unfold Statement; decide
theorem finSecF : Statement .finSecF := by unfold Statement; decide
theorem finSecI : Statement .finSecI := by unfold Statement; decide
theorem finIntF (n : BitVec 24) : Statement (.finIntF n) := uopWord_and_opcodeMask _ n
theorem finIntI (n : BitVec 24) : Statement (.finIntI n) := uopWord_and_opcodeMask _ n
theorem packF : Statement .packF := by unfold Statement; decide
theorem unpackI : Statement .unpackI := by unfold Statement; decide
theorem restoreI : Statement .restoreI := by unfold Statement; decide
theorem fwd : Statement .fwd := by unfold Statement; decide
theorem inv : Statement .inv := by unfold Statement; decide

end Sys2Proof.Laws.EncodeMatchesTable
end

