-- ==== Sys2Proof/Laws/Stores.lean ====
section
/-! SUPPORT. What the stores of a butterfly leave: complex slots and real words of one region, given by their numbers. -/

namespace Sys2Proof.Machine

/-! ### Complex slots -/

/-- The stores of complex values at numbered slots of the region at `base`. -/
def slotStores (base : Word) (l : List (Nat × Cplx)) : List Store := l.flatMap fun p => storeC (slot base p.1) p.2

theorem slotStores_append (base : Word) (l l' : List (Nat × Cplx)) :
    slotStores base (l ++ l') = slotStores base l ++ slotStores base l' := by simp [slotStores]

theorem slotStores_eq_storesAt (base : Word) (l : List (Nat × Cplx)) :
    slotStores base l = storesAt base (l.flatMap fun p => [(2 * p.1, p.2.r), (2 * p.1 + 1, p.2.i)]) := by
  induction l with
  | nil => rfl
  | cons p l ih =>
    have h : slotStores base (p :: l) = storeC (slot base p.1) p.2 ++ slotStores base l := by simp [slotStores]
    rw [h, ih, storeC_slot, ← storesAt_append]
    simp

/-- Stores at different slots within `2^29` of each other lie apart. -/
theorem slotStores_pairwise (base : Word) {l : List (Nat × Cplx)} (lo : Nat)
    (hb : ∀ p ∈ l, lo ≤ p.1 ∧ p.1 < lo + 2 ^ 29) (hn : (l.map Prod.fst).Nodup) :
    (slotStores base l).Pairwise fun s t => Apart s.addr t.addr := by
  rw [slotStores_eq_storesAt]
  refine storesAt_pairwise base (2 * lo) ?_ ?_
  · intro p hp
    obtain ⟨r, hr, hp⟩ := List.mem_flatMap.mp hp
    have := hb r hr
    simp only [List.mem_cons, List.not_mem_nil, or_false] at hp
    rcases hp with rfl | rfl <;> simp only <;> omega
  · clear hb
    induction l with
    | nil => simp
    | cons p l ih =>
      simp only [List.map_cons, List.nodup_cons, List.flatMap_cons, List.map_append, List.map_nil] at hn ⊢
      have hout : ∀ n, n / 2 = p.1 → n ∉ (l.flatMap fun p => [(2 * p.1, p.2.r), (2 * p.1 + 1, p.2.i)]).map Prod.fst := by
        intro n h hm
        obtain ⟨x, hx, rfl⟩ := List.mem_map.mp hm
        obtain ⟨r, hr, hx⟩ := List.mem_flatMap.mp hx
        simp only [List.mem_cons, List.not_mem_nil, or_false] at hx
        have hr1 : r.1 = p.1 := by rcases hx with rfl | rfl <;> simp only at h <;> omega
        exact hn.1 (hr1 ▸ List.mem_map.mpr ⟨r, hr, rfl⟩)
      refine List.nodup_append.mpr ⟨by simp, ih hn.2, ?_⟩
      intro a ha b hb hab
      subst hab
      simp only [List.mem_cons, List.not_mem_nil, or_false] at ha
      rcases ha with rfl | rfl
      · exact hout _ (by omega) hb
      · exact hout _ (by omega) hb

/-- Each stored slot reads back. -/
theorem complexAt_slotStores (s : State) (base : Word) {l : List (Nat × Cplx)} (lo : Nat)
    (hb : ∀ p ∈ l, lo ≤ p.1 ∧ p.1 < lo + 2 ^ 29) (hn : (l.map Prod.fst).Nodup) {n : Nat} {c : Cplx}
    (h : (n, c) ∈ l) : (s.storeWords (slotStores base l)).complexAt (slot base n) = c :=
  complexAt_storeWords_of_mem s (slotStores_pairwise base lo hb hn) fun _ hst => List.mem_flatMap.mpr ⟨_, h, hst⟩

/-- A byte of none of the stored slots is untouched. -/
theorem untouched_slotStores (base x : Word) {l : List (Nat × Cplx)}
    (h : ∀ p ∈ l, 8 ≤ (x - slot base p.1).toNat) : Untouched (slotStores base l) x := by
  intro st hst
  obtain ⟨p, hp, hst⟩ := List.mem_flatMap.mp hst
  have h8 := h p hp
  simp only [storeC, List.mem_cons, List.not_mem_nil, or_false] at hst
  rcases hst with rfl | rfl
  · simp only
    omega
  · simp only
    generalize slot base p.1 = y at h8
    bv_omega

/-! ### The two store paths of the kernels -/

/-- The slots of the elements `e u`, `u` in `us`, all four lanes. -/
def elementSlots (us : List Nat) (e : Nat → Nat) (v : Nat → Nat → Cplx) : List (Nat × Cplx) :=
  lanes.flatMap fun q => us.map fun u => (4 * e u + q, v q u)

/-- `StV` of several elements, as slots. -/
theorem storeV_lanes (base : Word) (us : List Nat) (e : Nat → Nat) (v : Nat → Nat → Cplx) :
    (lanes.flatMap fun q => us.flatMap fun u => storeV base (e u) q (v q u)) =
      slotStores base (elementSlots us e v) := by
  simp only [slotStores, elementSlots, List.flatMap_assoc, List.flatMap_map]
  rfl

theorem mem_lanes {q : Nat} : q ∈ lanes ↔ q < 4 := by
  simp only [lanes, List.mem_cons, List.not_mem_nil, or_false]
  omega

theorem mem_elementSlots {us : List Nat} {e : Nat → Nat} {v : Nat → Nat → Cplx} {p : Nat × Cplx} :
    p ∈ elementSlots us e v ↔ ∃ q u, q < 4 ∧ u ∈ us ∧ p = (4 * e u + q, v q u) := by
  simp only [elementSlots, List.mem_flatMap, List.mem_map, mem_lanes]
  constructor
  · rintro ⟨q, hq, u, hu, rfl⟩
    exact ⟨q, u, hq, hu, rfl⟩
  · rintro ⟨q, u, hq, hu, rfl⟩
    exact ⟨q, hq, u, hu, rfl⟩

theorem elementSlots_nodup {us : List Nat} {e : Nat → Nat} (v : Nat → Nat → Cplx) (hus : us.Nodup)
    (he : ∀ u ∈ us, ∀ u' ∈ us, e u = e u' → u = u') : ((elementSlots us e v).map Prod.fst).Nodup := by
  simp only [elementSlots, List.map_flatMap, List.map_map]
  refine List.nodup_flatMap.mpr ⟨fun q hq => ?_, ?_⟩
  · refine hus.map_on fun u hu u' hu' h => he u hu u' hu' ?_
    simp only [Function.comp] at h
    omega
  · refine List.Pairwise.imp_of_mem (R := fun a b => a ≠ b) ?_ (by decide)
    intro q q' hq hq' hne n hn hn'
    obtain ⟨u, -, rfl⟩ := List.mem_map.mp hn
    obtain ⟨u', -, h⟩ := List.mem_map.mp hn'
    have := mem_lanes.mp hq
    have := mem_lanes.mp hq'
    simp only [Function.comp] at h
    omega

/-- Each lane of each stored element reads back. -/
theorem complexAt_storeV_lanes (s : State) (base : Word) {us : List Nat} {e : Nat → Nat} {v : Nat → Nat → Cplx}
    (lo : Nat) (hb : ∀ u ∈ us, lo ≤ e u ∧ e u < lo + 2 ^ 27) (hus : us.Nodup)
    (he : ∀ u ∈ us, ∀ u' ∈ us, e u = e u' → u = u') {q u : Nat} (hq : q < 4) (hu : u ∈ us) :
    (s.storeWords (lanes.flatMap fun q => us.flatMap fun u => storeV base (e u) q (v q u))).complexAt
      (ea base (e u) q) = v q u := by
  rw [storeV_lanes, ea_eq_slot]
  refine complexAt_slotStores s base (4 * lo) ?_ (elementSlots_nodup v hus he)
    (mem_elementSlots.mpr ⟨q, u, hq, hu, rfl⟩)
  intro p hp
  obtain ⟨q, u, hq, hu, rfl⟩ := mem_elementSlots.mp hp
  have := hb u hu
  simp only
  omega

/-- A byte of none of the stored elements is untouched. -/
theorem untouched_storeV_lanes (base x : Word) {us : List Nat} {e : Nat → Nat} (v : Nat → Nat → Cplx)
    (h : ∀ u ∈ us, 32 ≤ (x - ea base (e u) 0).toNat) :
    Untouched (lanes.flatMap fun q => us.flatMap fun u => storeV base (e u) q (v q u)) x := by
  rw [storeV_lanes]
  refine untouched_slotStores base x fun p hp => ?_
  obtain ⟨q, u, hq, hu, rfl⟩ := mem_elementSlots.mp hp
  have h32 := h u hu
  have hx : x - slot base (4 * e u + q) = (x - ea base (e u) 0) - BitVec.ofNat 32 (8 * q) := by
    unfold slot ea
    bv_omega
  rw [hx, BitVec.toNat_sub]
  simp only [BitVec.toNat_ofNat]
  have := (x - ea base (e u) 0).isLt
  omega

/-- `StR` of several elements, as words. -/
theorem storeR_lanes (base : Word) (us : List Nat) (e : Nat → Nat) (v : Nat → Nat → F32) :
    (lanes.flatMap fun q => us.flatMap fun u => storeR base (e u) q (v q u)) =
      storesAt base (lanes.flatMap fun q => us.map fun u => (4 * e u + q, v q u)) := by
  simp only [storesAt, List.map_flatMap, List.map_map, storeR]
  congr 1
  funext q
  induction us with
  | nil => rfl
  | cons u us ih => simp only [List.flatMap_cons, List.map_cons, ih]; rfl

/-- Each lane of each stored real element reads back. -/
theorem word_storeR_lanes (s : State) (base : Word) {us : List Nat} {e : Nat → Nat} {v : Nat → Nat → F32}
    (lo : Nat) (hb : ∀ u ∈ us, lo ≤ e u ∧ e u < lo + 2 ^ 28) (hus : us.Nodup)
    (he : ∀ u ∈ us, ∀ u' ∈ us, e u = e u' → u = u') {q u : Nat} (hq : q < 4) (hu : u ∈ us) :
    (s.storeWords (lanes.flatMap fun q => us.flatMap fun u => storeR base (e u) q (v q u))).word
      (ra base (e u) q) = v q u := by
  have hmem : Store.mk (ra base (e u) q) (v q u) ∈
      lanes.flatMap fun q => us.flatMap fun u => storeR base (e u) q (v q u) :=
    List.mem_flatMap.mpr ⟨q, mem_lanes.mpr hq, List.mem_flatMap.mpr ⟨u, hu, by simp [storeR]⟩⟩
  refine word_storeWords_of_mem s ?_ hmem
  rw [storeR_lanes]
  refine storesAt_pairwise base (4 * lo) ?_ ?_
  · intro p hp
    obtain ⟨q, hq, hp⟩ := List.mem_flatMap.mp hp
    obtain ⟨u, hu, rfl⟩ := List.mem_map.mp hp
    have := hb u hu
    have := mem_lanes.mp hq
    simp only
    omega
  · have h := elementSlots_nodup (fun q u => Cplx.mk (v q u) 0) hus he
    simp only [elementSlots, List.map_flatMap, List.map_map] at h ⊢
    exact h

/-- A byte of none of the stored real elements is untouched. -/
theorem untouched_storeR_lanes (base x : Word) {us : List Nat} {e : Nat → Nat} (v : Nat → Nat → F32)
    (h : ∀ u ∈ us, 16 ≤ (x - ra base (e u) 0).toNat) :
    Untouched (lanes.flatMap fun q => us.flatMap fun u => storeR base (e u) q (v q u)) x := by
  intro st hst
  obtain ⟨q, hq, hst⟩ := List.mem_flatMap.mp hst
  obtain ⟨u, hu, hst⟩ := List.mem_flatMap.mp hst
  simp only [storeR, List.mem_cons, List.not_mem_nil, or_false] at hst
  subst hst
  have h16 := h u hu
  have := mem_lanes.mp hq
  have hx : x - ra base (e u) q = (x - ra base (e u) 0) - BitVec.ofNat 32 (4 * q) := by
    unfold ra
    bv_omega
  simp only
  rw [hx, BitVec.toNat_sub]
  simp only [BitVec.toNat_ofNat]
  have := (x - ra base (e u) 0).isLt
  omega

end Sys2Proof.Machine
end

