-- ==== Sys2Proof/WellFormed.lean ====
section
/-! DEFINITION. When an instruction is well formed whatever the call: its index is in the range of 30_encoding.md R105
for some `N` the core accepts. The check against the running call's own `SQ.M` is made when the uop is executed. -/

namespace Sys2Proof

/-- The largest `M = N/4` of a call whose `log2 N` is even, the calls with a radix-4 stage 1
(00_scope.md R7, R9; 43_sequencer.md R155). -/
def maxColumnsEven : Nat := 2 ^ (2 * (Config.log2NMax / 2) - 2)

/-- The largest `M = N/4` of a call whose `log2 N` is odd, the calls with a radix-8 stage 1. -/
def maxColumnsOdd : Nat := 2 ^ (2 * ((Config.log2NMax - 1) / 2) + 1 - 2)

/-- The index is legal in some call (30_encoding.md R105). -/
def Instr.wellFormed : Instr → Bool
  | .r4fF f | .r4fI f | .r4fIS f => decide (f.toNat < maxColumnsEven / 4)
  | .r4tF b | .r4tI b => decide (b.toNat < maxColumnsEven / 4)
  | .r8F f | .r8I f | .r8IS f => decide (f.toNat < maxColumnsOdd / 8)
  | .finIntF i | .finIntI i => decide (i.toNat < (maxColumnsEven - 8) / 8)
  | .seqBeginF | .seqBeginI | .seqNextF | .seqNextI | .seqEndF | .seqEndI
  | .finEdgeF | .finEdgeI | .finSecF | .finSecI | .packF | .unpackI | .restoreI
  | .fwd | .inv => true

end Sys2Proof
end

