-- ==== Sys2Proof/Tests/Slice0.lean ====
section
/-! SUPPORT. The tests of this model. Expected results are the spec's own vectors (95_test_vectors.md) or a calculation by
hand from its rules; the comment of a test names them. -/

namespace Sys2Proof.Tests
open Sys2Proof.Machine

set_option Elab.async false

/-! ### Helpers -/

/-- The state with words stored from `base` up. -/
def put (s : State) (base : Word) (ws : List Word) : State :=
  s.storeWords (ws.zipIdx.map fun p => ⟨base + BitVec.ofNat 32 (4 * p.2), p.1⟩)

/-- The state with the given complex slots stored. -/
def putC (s : State) (l : List (Word × Cplx)) : State := s.storeWords (l.flatMap fun p => storeC p.1 p.2)

/-- The outcome is a next state with the property. -/
def gives (o : Host.Outcome State Fault Refusal) (p : State → Bool) : Bool :=
  match o with
  | .next t => p t
  | .fault _ => false
  | .refused _ => false

/-- The outcome is this refusal. -/
def refuses (o : Host.Outcome State Fault Refusal) (r : Refusal) : Bool :=
  match o with
  | .refused r' => r' == r
  | .next _ => false
  | .fault _ => false

/-- The memory map of the spec's programs (95_test_vectors.md section 3). -/
def mapped : State :=
  { State.reset with
    cr := { Control.reset with
      nfft := 16, factors := 0x1000, twf := 0x2000, twb := 0x3000, stw := 0x4000, scratch := 0x10000,
      src := 0x20000, dst := 0x30000 } }

/-- A state whose next step issues the uop, with given source and destination buffers. -/
def issuing (i : Instr) (src dst : Word) : State :=
  let s := mapped.placeUop i
  { s with sq := { s.sq with srcsel := src, dstsel := dst } }

/-- A complex value from two patterns. -/
def c (r i : F32) : Cplx := ⟨r, i⟩

/-! ### Well-formedness: one ill-formed term for each check (30_encoding.md R105 at the largest `N`) -/

theorem test_wellFormed_r4f :
    (Instr.r4fF 0x0FFFFF).wellFormed = true ∧ (Instr.r4fF 0x100000).wellFormed = false ∧
    (Instr.r4fI 0x100000).wellFormed = false ∧ (Instr.r4fIS 0x100000).wellFormed = false := by decide
theorem test_wellFormed_r4t :
    (Instr.r4tI 0x0FFFFF).wellFormed = true ∧ (Instr.r4tI 0x100000).wellFormed = false ∧
    (Instr.r4tF 0x100000).wellFormed = false := by decide
theorem test_wellFormed_r8 :
    (Instr.r8F 0x03FFFF).wellFormed = true ∧ (Instr.r8F 0x040000).wellFormed = false ∧
    (Instr.r8I 0x040000).wellFormed = false ∧ (Instr.r8IS 0x040000).wellFormed = false := by decide
theorem test_wellFormed_finInt :
    (Instr.finIntF 0x07FFFE).wellFormed = true ∧ (Instr.finIntF 0x07FFFF).wellFormed = false ∧
    (Instr.finIntI 0x07FFFF).wellFormed = false := by decide
theorem test_wellFormed_without_index : Instr.packF.wellFormed = true ∧ Instr.inv.wellFormed = true := by decide

/-! ### Decoding: words written out from the fields of 30_encoding.md R101 to R104 (UNIT SUB S D IDX) -/

theorem test_decode_seq :
    decodeUop 0b0001_00_0_0_000000000000000000000000#32 = .ok .seqBeginF ∧
    decodeUop 0b0001_00_0_1_000000000000000000000000#32 = .ok .seqBeginI ∧
    decodeUop 0b0001_01_0_0_000000000000000000000000#32 = .ok .seqNextF ∧
    decodeUop 0b0001_01_0_1_000000000000000000000000#32 = .ok .seqNextI ∧
    decodeUop 0b0001_10_0_0_000000000000000000000000#32 = .ok .seqEndF ∧
    decodeUop 0b0001_10_0_1_000000000000000000000000#32 = .ok .seqEndI := by decide
theorem test_decode_r4f :
    decodeUop 0b0010_00_0_0_000000000000000000000011#32 = .ok (.r4fF 3) ∧
    decodeUop 0b0010_00_0_1_000000000000000000000100#32 = .ok (.r4fI 4) ∧
    decodeUop 0b0010_00_1_1_000000000000000000000000#32 = .ok (.r4fIS 0) := by decide
theorem test_decode_r4t :
    decodeUop 0b0011_00_0_0_000000000000000000000101#32 = .ok (.r4tF 5) ∧
    decodeUop 0b0011_00_0_1_000011111111111111111111#32 = .ok (.r4tI 1048575) := by decide
theorem test_decode_r8 :
    decodeUop 0b0100_00_0_0_100000000000000000000000#32 = .ok (.r8F 8388608) ∧
    decodeUop 0b0100_00_0_1_000000000000000000000010#32 = .ok (.r8I 2) ∧
    decodeUop 0b0100_00_1_1_000000000000000000000001#32 = .ok (.r8IS 1) := by decide
theorem test_decode_fin :
    decodeUop 0b0101_00_0_0_000000000000000000000000#32 = .ok .finEdgeF ∧
    decodeUop 0b0101_00_0_1_000000000000000000000000#32 = .ok .finEdgeI ∧
    decodeUop 0b0101_01_0_0_000000000000000000000000#32 = .ok .finSecF ∧
    decodeUop 0b0101_01_0_1_000000000000000000000000#32 = .ok .finSecI ∧
    decodeUop 0b0101_10_0_0_000000000000000000000101#32 = .ok (.finIntF 5) ∧
    decodeUop 0b0101_10_0_1_000000000000000000000110#32 = .ok (.finIntI 6) := by decide
theorem test_decode_pku :
    decodeUop 0b0110_00_0_0_000000000000000000000000#32 = .ok .packF ∧
    decodeUop 0b0110_00_0_1_000000000000000000000000#32 = .ok .unpackI ∧
    decodeUop 0b0110_01_0_1_000000000000000000000000#32 = .ok .restoreI := by decide
theorem test_decode_commands :
    decodeCommand 0b000000000000000000000000000000_01#32 = .ok .fwd ∧
    decodeCommand 0b000000000000000000000000000000_10#32 = .ok .inv ∧
    decodeCommand 0#32 = .error .reservedCommand ∧ decodeCommand 5#32 = .error .reservedCommand := by decide
/-- V97 to V100. -/
theorem test_decode_illegal :
    decodeUop 0x22000000#32 = .error .reservedOpcode ∧ decodeUop 0x50000001#32 = .error .nonzeroIndex ∧
    decodeUop 0x00000000#32 = .error .reservedUnit ∧ decodeUop 0x70000000#32 = .error .reservedUnit ∧
    decodeUop 0xFFFFFFFF#32 = .error .reservedUnit ∧ decodeUop 0x1C000000#32 = .error .reservedOpcode ∧
    decodeUop 0x5C000000#32 = .error .reservedOpcode ∧ decodeUop 0x64000000#32 = .error .reservedOpcode := by decide
theorem test_decode_bytes :
    decode [0x05#8, 0x00#8, 0x00#8, 0x30#8, 0xAA#8] = .ok (.r4tF 5, [0xAA#8]) ∧
    decode [0x05#8, 0x00#8, 0x00#8] = .error .tooShort ∧ decodeTableWord 32 0x30000005 = some (.r4tF 5) := by decide
/-- The listing line of 30_encoding.md R109. -/
theorem test_listing : listing (.r4tF 5) = "R4T.F 5" ∧ listing .packF = "PACK.F" := by decide

/-! ### Arithmetic: V1 to V9t -/

theorem test_fadd :
    fadd 0x3F800000#32 0xBF800000#32 = 0 ∧ fadd 0x80000000#32 0x80000000#32 = 0x80000000#32 ∧
    fadd 0x80000000#32 0#32 = 0 ∧ fadd 0x7F7FFFFF#32 0x7F7FFFFF#32 = 0x7F800000#32 := by decide +kernel
theorem test_fsub :
    fsub 0x80000000#32 0x80000000#32 = 0 ∧ fsub 0x80000000#32 0#32 = 0x80000000#32 ∧
    f32IsNaN (fsub 0x7F800000#32 0x7F800000#32) = true :=
  ⟨by decide +kernel, by decide +kernel, nanResult_isNaN .sub 0x7F800000#32 0x7F800000#32⟩
theorem test_fmul :
    fmul 0x80000000#32 0#32 = 0x80000000#32 ∧ fmul 0x00800000#32 0x3D800000#32 = 0x00080000#32 ∧
    fmul 0x00000001#32 0x3D800000#32 = 0 ∧ fmul 0x00000003#32 0x3F000000#32 = 2 := by decide +kernel
theorem test_fneg : fneg 0#32 = 0x80000000#32 ∧ fneg 0x7FC00000#32 = 0xFFC00000#32 := by decide +kernel
/-- V9h, V9i, V9f. -/
theorem test_cmul :
    cmul (c 0x40400000 0x40800000) (c 0x3F3504F3 0xBF3504F3) = c 0x409E6454 0x3F3504F4 ∧
    cmulc (c 0x40400000 0x40800000) (c 0x3F3504F3 0xBF3504F3) = c 0xBF3504F4 0x409E6454 ∧
    cmul (c 0x3F800000 0x80000000) (c 0x3F800000 0) = c 0x3F800000 0 := by decide +kernel
/-- V9l, V9m. -/
theorem test_bfly4 :
    let t : Quad Cplx := ⟨c 0x3F800000 0x40000000, c 0x40400000 0x40800000, c 0x40A00000 0x40C00000,
      c 0x40E00000 0x41000000⟩
    bfly4Fwd t = ⟨c 0x41800000 0x41A00000, c 0xC1000000 0, c 0xC0800000 0xC0800000, c 0 0xC1000000⟩ ∧
    bfly4Inv t = ⟨c 0x41800000 0x41A00000, c 0 0xC1000000, c 0xC0800000 0xC0800000, c 0xC1000000 0⟩ := by decide +kernel
/-- V9q, V9r. -/
theorem test_rot8 :
    let z := c 0x40400000 0x3F800000
    rot8x1 z = c 0x403504F3 0xBFB504F3 ∧ rot8x2 z = c 0x3F800000 0xC0400000 ∧
    rot8x3 z = c 0xBFB504F3 0xC03504F3 ∧ rot8c1 z = c 0x3FB504F3 0x403504F3 ∧
    rot8c2 z = c 0xBF800000 0x40400000 ∧ rot8c3 z = c 0xC03504F3 0x3FB504F3 := by decide +kernel

/-! ### One step of each uop -/

/-- V10: lane 0 of `R4F.F 0`. -/
theorem test_r4fF :
    gives (exec (.r4fF 0) (put (issuing (.r4fF 0) 0x20000 0x10000) 0x20000
      [0x3F800000, 0, 0, 0, 0x40000000, 0, 0, 0, 0x40400000, 0, 0, 0, 0x40800000, 0, 0, 0]))
      (fun t => [0, 1, 2, 3].map (fun u => t.complexAt (ea 0x10000 u 0)) ==
        [c 0x41200000 0, c 0xC0000000 0x40000000, c 0xC0000000 0, c 0xC0000000 0xC0000000] &&
        t.sq.upc == 2) = true := by decide +kernel

/-- The inputs of V12, V13: element `u` of the buffer, lane 0. -/
def r4fInverseInput (i : Instr) : State :=
  putC (issuing i 0x10000 0x30000) [(0x10000, c 0x41200000 0), (0x10020, c 0xC0000000 0x40000000),
    (0x10040, c 0xC0000000 0), (0x10060, c 0xC0000000 0xC0000000)]

/-- V12. -/
theorem test_r4fI :
    gives (exec (.r4fI 0) (r4fInverseInput (.r4fI 0)))
      (fun t => [0, 1, 2, 3].map (fun p => t.word (ra 0x30000 p 0)) ==
        [0x40800000, 0x41000000, 0x41400000, 0x41800000]) = true := by decide +kernel

/-- V13. -/
theorem test_r4fIS :
    gives (exec (.r4fIS 0) (r4fInverseInput (.r4fIS 0)))
      (fun t => [0, 1, 2, 3].map (fun p => t.word (ra 0x30000 p 0)) ==
        [0x3E800000, 0x3F000000, 0x3F400000, 0x3F800000]) = true := by decide +kernel

/-- The index split of 95_test_vectors.md section 2.3: `m_s = 4`, `F_s = 4`, `R4T.F 13`. -/
theorem test_r4t_addresses :
    let q := latchedFor Sequencer.reset 8 .forward false
    let q2 := { q with stage := 2 }
    [0, 1, 2, 3].map (r4tStrided q2 13) = [13, 29, 45, 61] ∧
    [0, 1, 2, 3].map (r4tBlocked q2 13) = [49, 53, 57, 61] ∧
    [1, 2, 3].map (fun p => stageTW q2 + (p - 1) * stageM q2 + 13 % stageM q2) = [1, 5, 9] := by decide +kernel

/-- V20 at `R4T.F 2` of `N = 64`: elements and slots 2, 6, 10, 14, lane 3. -/
theorem test_r4tF :
    gives (exec (.r4tF 2) (putC (issuing (.r4tF 2) 0x30000 0x10000)
      [(ea 0x30000 2 3, c 0x3F800000 0), (ea 0x30000 6 3, c 0 0x3F800000), (ea 0x30000 10 3, c 0x40000000 0),
       (ea 0x30000 14 3, c 0 0x40000000), (slot 0x2000 2, c 0 0xBF800000), (slot 0x2000 6, c 0xBF800000 0),
       (slot 0x2000 10, c 0 0x3F800000)]))
      (fun t => t.complexAt (ea 0x10000 2 3) == c 0xC0000000 0 &&
        t.complexAt (ea 0x10000 6 3) == c 0x40400000 0xC0400000 &&
        t.complexAt (ea 0x10000 10 3) == c 0 0 &&
        t.complexAt (ea 0x10000 14 3) == c 0x40400000 0x40400000) = true := by decide +kernel

/-- V21 at `R4T.I 2` of `N = 64`. -/
theorem test_r4tI :
    gives (exec (.r4tI 2) (putC (issuing (.r4tI 2) 0x30000 0x10000)
      [(ea 0x30000 2 3, c 0xC0000000 0), (ea 0x30000 6 3, c 0x40400000 0xC0400000), (ea 0x30000 10 3, c 0 0),
       (ea 0x30000 14 3, c 0x40400000 0x40400000), (slot 0x3000 2, c 0 0x3F800000),
       (slot 0x3000 6, c 0xBF800000 0), (slot 0x3000 10, c 0 0xBF800000)]))
      (fun t => f32Int (t.complexAt (ea 0x10000 2 3)).r == f32Int 0x40800000 &&
        f32Int (t.complexAt (ea 0x10000 6 3)).i == f32Int 0x40800000 &&
        f32Int (t.complexAt (ea 0x10000 10 3)).r == f32Int 0x41000000 &&
        f32Int (t.complexAt (ea 0x10000 14 3)).i == f32Int 0x41000000) = true := by decide +kernel

/-- The word a list of stores puts at an address. -/
def stored (l : List Store) (a : Word) : Word := ((l.find? fun st => st.addr == a).map Store.value).getD 0xDEADBEEF

/-- V30: lane 0 of `R8.F 0`. -/
theorem test_r8F :
    let s := put (issuing (.r8F 0) 0x20000 0x10000) 0x20000
      [0x3F800000, 0, 0, 0, 0x40000000, 0, 0, 0, 0x40400000, 0, 0, 0, 0x40800000, 0, 0, 0,
       0x40A00000, 0, 0, 0, 0x40C00000, 0, 0, 0, 0x40E00000, 0, 0, 0, 0x41000000, 0, 0, 0]
    gives (exec (.r8F 0) s) (fun t => t.sq.upc == 2) = true ∧
    (List.range 8).map (fun u => c (stored (r8ForwardStores s 0) (ea 0x10000 u 0))
      (stored (r8ForwardStores s 0) (ea 0x10000 u 0 + 4))) =
        [c 0x42100000 0, c 0xC0800000 0x411A827A, c 0xC0800000 0x40800000, c 0xC0800000 0x3FD413CC,
         c 0xC0800000 0, c 0xC0800000 0xBFD413CC, c 0xC0800000 0xC0800000, c 0xC0800000 0xC11A827A] := by
  decide +kernel

/-- The inputs of V31, V32, lane 0. -/
def r8InverseInput (i : Instr) : State :=
  putC (issuing i 0x10000 0x30000) [(ea 0x10000 0 0, c 0x42100000 0), (ea 0x10000 1 0, c 0xC0800000 0x411A827A),
    (ea 0x10000 2 0, c 0xC0800000 0x40800000), (ea 0x10000 3 0, c 0xC0800000 0x3FD413CC),
    (ea 0x10000 4 0, c 0xC0800000 0), (ea 0x10000 5 0, c 0xC0800000 0xBFD413CC),
    (ea 0x10000 6 0, c 0xC0800000 0xC0800000), (ea 0x10000 7 0, c 0xC0800000 0xC11A827A)]

/-- V31. -/
theorem test_r8I :
    let s := r8InverseInput (.r8I 0)
    gives (exec (.r8I 0) s) (fun t => t.sq.upc == s.sq.upc + 1) = true ∧
    (List.range 8).map (fun p => stored (r8InverseStores s 0 id) (ra 0x30000 p 0)) =
      [0x41000000, 0x41800000, 0x41C00000, 0x42000000, 0x42200000, 0x42400000, 0x42600000, 0x42800000] := by
  decide +kernel

/-- V32. -/
theorem test_r8IS :
    let s := r8InverseInput (.r8IS 0)
    gives (exec (.r8IS 0) s) (fun t => t.sq.upc == s.sq.upc + 1) = true ∧
    (List.range 8).map (fun p => stored (r8InverseStores s 0 (scaleUnit s.sq)) (ra 0x30000 p 0)) =
      [0x3E800000, 0x3F000000, 0x3F400000, 0x3F800000, 0x3FA00000, 0x3FC00000, 0x3FE00000, 0x40000000] := by
  decide +kernel

/-- V50 through `FIN.EDGE.F` at `N = 16`: slots 0 and 4. -/
theorem test_finEdgeF :
    gives (exec .finEdgeF (putC (issuing .finEdgeF 0x10000 0x30000)
      [(ea 0x10000 0 0, c 0x3F800000 0), (ea 0x10000 0 1, c 0x40000000 0), (ea 0x10000 0 2, c 0x40400000 0),
       (ea 0x10000 0 3, c 0x40800000 0)]))
      (fun t => t.complexAt (slot 0x30000 0) == c 0x41200000 0xC0000000 &&
        t.complexAt (slot 0x30000 4) == c 0xC0000000 0x40000000) = true := by decide +kernel

/-- V51 through `FIN.EDGE.I` at `N = 16`: element 0. -/
theorem test_finEdgeI :
    gives (exec .finEdgeI (putC (issuing .finEdgeI 0x20000 0x10000)
      [(slot 0x20000 0, c 0x41200000 0xC0000000), (slot 0x20000 4, c 0xC0000000 0x40000000)]))
      (fun t => [0, 1, 2, 3].map (fun q => t.complexAt (ea 0x10000 0 q)) ==
        [c 0x40800000 0, c 0x41000000 0, c 0x41400000 0, c 0x41800000 0]) = true := by decide +kernel

/-- V53 at `N = 32`: slots 4 and 12. -/
theorem test_finSecF :
    gives (exec .finSecF (putC (issuing .finSecF 0x10000 0x30000)
      [(ea 0x10000 4 0, c 0x3F800000 0), (ea 0x10000 4 1, c 0x40000000 0), (ea 0x10000 4 2, c 0x40400000 0),
       (ea 0x10000 4 3, c 0x40800000 0), (slot 0x4000 1, c 0x3F3504F3 0xBF3504F3),
       (slot 0x4000 3, c 0xBF3504F3 0xBF3504F3)]))
      (fun t => t.complexAt (slot 0x30000 4) == c 0xBED413CC 0xC0E7C3B6 &&
        t.complexAt (slot 0x30000 12) == c 0x401A827A 0xBF9F0ED8) = true := by decide +kernel

/-- V54 at `N = 32`: element 4. -/
theorem test_finSecI :
    gives (exec .finSecI (putC (issuing .finSecI 0x20000 0x10000)
      [(slot 0x20000 4, c 0xBED413CC 0xC0E7C3B6), (slot 0x20000 12, c 0x401A827A 0xBF9F0ED8),
       (slot 0x4000 1, c 0x3F3504F3 0xBF3504F3), (slot 0x4000 3, c 0xBF3504F3 0xBF3504F3)]))
      (fun t => [0, 1, 2, 3].map (fun q => t.complexAt (ea 0x10000 4 q)) ==
        [c 0x40800000 0, c 0x40FFFFFE 0, c 0x41400000 0, c 0x417FFFFF 0]) = true := by decide +kernel

/-- V55 at column 6 of `N = 64`: super-twiddle slots 18, 22, 26. -/
theorem test_finIntF :
    gives (exec (.finIntF 0) (putC (issuing (.finIntF 0) 0x10000 0x30000)
      [(ea 0x10000 6 0, c 0x3F800000 0x3F800000), (ea 0x10000 6 1, c 0x40000000 0), (ea 0x10000 6 2, c 0 0x40400000),
       (ea 0x10000 6 3, c 0x3F800000 0xBF800000), (slot 0x4000 18, c 0 0xBF800000), (slot 0x4000 22, c 0xBF800000 0),
       (slot 0x4000 26, c 0 0x3F800000)]))
      (fun t => t.complexAt (slot 0x30000 6) == c 0x40000000 0xC0400000 &&
        t.complexAt (slot 0x30000 22) == c 0xC0000000 0x40A00000 &&
        t.complexAt (slot 0x30000 26) == c 0 0x3F800000 &&
        t.complexAt (slot 0x30000 10) == c 0x40800000 0xC0400000) = true := by decide +kernel

/-- V56 at column 6 of `N = 64`: element 6 and the conjugate at element 10. -/
theorem test_finIntI :
    let s := putC (issuing (.finIntI 0) 0x20000 0x30000)
      [(slot 0x20000 6, c 0x40000000 0xC0400000), (slot 0x20000 22, c 0xC0000000 0x40A00000),
       (slot 0x20000 26, c 0 0x3F800000), (slot 0x20000 10, c 0x40800000 0xC0400000),
       (slot 0x4000 18, c 0 0xBF800000), (slot 0x4000 22, c 0xBF800000 0), (slot 0x4000 26, c 0 0x3F800000)]
    let at' := fun e q => c (stored (finInteriorInverseStores s 0) (ea 0x30000 e q))
      (stored (finInteriorInverseStores s 0) (ea 0x30000 e q + 4))
    gives (exec (.finIntI 0) s) (fun t => t.sq.upc == s.sq.upc + 1) = true ∧
    at' 6 0 = c 0x40800000 0x40800000 ∧ at' 6 1 = c 0x41000000 0 ∧ at' 6 2 = c 0x80000000 0x41400000 ∧
    at' 6 3 = c 0x40800000 0xC0800000 ∧ at' 10 3 = c 0x40800000 0x40800000 := by decide +kernel

/-- V60. -/
theorem test_packF :
    gives (exec .packF (put (issuing .packF 0x10000 0x30000) 0x30004 [0xC1000000]))
      (fun t => t.word 0x30004 == 0 && t.word 0x30040 == 0xC1000000 && t.word 0x30044 == 0) = true := by
  decide +kernel

/-- V61. -/
theorem test_unpackI :
    gives (exec .unpackI (put (put (issuing .unpackI 0x20000 0x10000) 0x20004 [0x12345678]) 0x20040 [0xC1000000]))
      (fun t => t.sq.save0i == 0x12345678 && t.word 0x20004 == 0xC1000000) = true := by decide +kernel

/-- V62. -/
theorem test_restoreI :
    let s := put (issuing .restoreI 0x10000 0x30000) 0x20004 [0xC1000000]
    gives (exec .restoreI { s with sq := { s.sq with save0i := 0x12345678 } })
      (fun t => t.word 0x20004 == 0x12345678) = true := by decide +kernel

/-- V73: the list `[3, 16, (1,2), (2,4), (8,4)]`. -/
theorem test_seqBeginF :
    let s := put mapped 0x1000 [3, 16, 1, 2, 2, 4, 8, 4]
    gives (exec .seqBeginF { s with cr := { s.cr with nfft := 128 } })
      (fun t => t.sq.n == 128 && t.sq.k == 7 && t.sq.m == 32 && t.sq.l == 2 && t.sq.r1 == 8 &&
        t.sq.stFAt 1 == 4 && t.sq.stFAt 2 == 1 && t.sq.stMAt 1 == 1 && t.sq.stMAt 2 == 8 && t.sq.stTWAt 2 == 0 &&
        t.sq.scale == 0x3C000000 && !t.sq.scalef && t.sq.stage == 1 && t.sq.srcsel == 0x20000 &&
        t.sq.dstsel == 0x30000 && t.sq.upc == 1) = true := by decide +kernel

/-- V74: `N = 16`, `FLAGS = 1`. -/
theorem test_seqBeginI :
    let s := put mapped 0x1000 [1, 1, 1, 4]
    gives (exec .seqBeginI { s with cr := { s.cr with flags := 1 }, sq := { s.sq with dir := .inverse } })
      (fun t => t.sq.l == 1 && t.sq.r1 == 4 && t.sq.stFAt 1 == 1 && t.sq.scale == 0x3D800000 && t.sq.scalef &&
        t.sq.stage == 2 && t.sq.dstsel == 0x10000) = true := by decide +kernel

/-- The twiddle offsets of E10: `N = 1024`. -/
theorem test_seqBegin_twiddles :
    let s := put mapped 0x1000 [4, 64, 1, 4, 4, 4, 16, 4, 64, 4]
    gives (exec .seqBeginF { s with cr := { s.cr with nfft := 1024 } })
      (fun t => [1, 2, 3, 4].map t.sq.stMAt == [1, 4, 16, 64] && [1, 2, 3, 4].map t.sq.stFAt == [64, 16, 4, 1] &&
        [2, 3, 4].map t.sq.stTWAt == [0, 12, 60]) = true := by decide +kernel

/-- V76. -/
theorem test_seqNextF :
    let s := mapped
    gives (exec .seqNextF { s with sq := { s.sq with dstsel := 0x30000, stage := 1 } })
      (fun t => t.sq.srcsel == 0x30000 && t.sq.dstsel == 0x10000 && t.sq.stage == 2) = true := by decide +kernel

/-- V77. -/
theorem test_seqNextI :
    let s := mapped
    gives (exec .seqNextI { s with sq := { s.sq with dir := .inverse, dstsel := 0x10000, stage := 2 } })
      (fun t => t.sq.srcsel == 0x10000 && t.sq.dstsel == 0x30000 && t.sq.stage == 1) = true := by decide +kernel

/-- V78. -/
theorem test_seqEndF :
    let s := mapped
    gives (exec .seqEndF { s with sq := { s.sq with busy := true, upc := 5 } })
      (fun t => t.readReg .status == 2 && t.sq.upc == 5) = true := by decide +kernel

theorem test_seqEndI :
    let s := mapped
    gives (exec .seqEndI { s with sq := { s.sq with busy := true, dir := .inverse, upc := 6 } })
      (fun t => t.readReg .status == 2 && t.sq.upc == 6) = true := by decide +kernel

/-! ### Commands -/

/-- The list, tables and input of programs P1 and P3, the values of the data words all zero. -/
def readyMemory : Memory :=
  ([1, 0, 0, 0, 1, 0, 0, 0, 1, 0, 0, 0, 4, 0, 0, 0].zipIdx.map fun p => (0x1000 + p.2, p.1)) ++
    ((List.range 112).map fun n => (0x4000 + n, 0)) ++ (List.range 68).map fun n => (0x20000 + n, 0)

/-- A state in which both commands of `N = 16` are launchable: the host has written all of `readyMemory`. -/
def ready : State := { mapped with mem := readyMemory, hostWritten := readyMemory.map Prod.fst }

theorem ready_forward : contractFailure .forward ready = none := by decide +kernel

theorem ready_inverse : contractFailure .inverse ready = none := by decide +kernel

theorem ready_fwd : exec .fwd ready = .next (ready.startCall .forward) := by
  have h : exec .fwd ready = launch .forward ready := rfl
  rw [h, launch, ready_forward]

theorem ready_inv : exec .inv ready = .next (ready.startCall .inverse) := by
  have h : exec .inv ready = launch .inverse ready := rfl
  rw [h, launch, ready_inverse]

theorem test_fwd :
    gives (exec .fwd ready) (fun t => t.sq.busy && !t.sq.done && t.sq.dir == .forward && t.sq.upc == 0) = true := by
  rw [ready_fwd]
  decide

/-- V84: `SCRATCH = DST`. -/
theorem test_fwd_overlap :
    refuses (exec .fwd { ready with cr := { ready.cr with scratch := 0x30000 } }) .regionsOverlap = true := by
  decide +kernel

theorem test_inv :
    gives (exec .inv ready) (fun t => t.sq.busy && !t.sq.done && t.sq.dir == .inverse && t.sq.upc == 0) = true := by
  rw [ready_inv]
  decide

/-- V80, V82, V83. -/
theorem test_inv_refused :
    refuses (exec .inv { ready with sq := { ready.sq with busy := true } }) .writeWhileBusy = true ∧
    [0x8, 0x18, 0x2000000].all (fun n =>
      refuses (exec .inv { ready with cr := { ready.cr with nfft := n } }) .contractViolation) = true ∧
    refuses (exec .inv { ready with cr := { ready.cr with src := 0x20004 } }) .misalignedBase = true := by
  decide +kernel

/-- R153 (f): the last byte of the `INV` input, and the list, in memory but not written by the host; the host's write of
that byte mends it. -/
theorem test_launch_asks_for_the_host :
    let s : State := { ready with hostWritten := ready.hostWritten.filter (· != 0x20043) }
    contractFailure .inverse s = some .contractViolation ∧
    contractFailure .forward { ready with hostWritten := ready.hostWritten.filter (0x1010 ≤ ·) } =
      some .contractViolation ∧
    gives (step { s with events := [.memWrite 0x20043 [0]] })
      (fun t => t.hostWritten == ready.hostWritten && t.mem == ready.mem) = true := by decide +kernel

/-- A narrow and an unaligned write while `BUSY = 1` (log 28). -/
theorem test_form_before_busy :
    [(0x08#6, AccessWidth.byte), (0x0A#6, .word)].all (fun p =>
      refuses (step { ready.startCall .forward with events := [.regWrite p.1 p.2 1] }) .badRegisterAccess) = true := by
  decide +kernel

/-- The word placed by the host's interface is the one the core runs: `R4T.I 5`. -/
theorem test_withFetchWord :
    (State.reset.withFetchWord 32 0x31000005).busWord = some 0x31000005 ∧
    gives (step (State.reset.withFetchWord 32 0x31000005)) (fun _ => true) = true := by decide +kernel

/-- The uop list of program P4 (`N = 64`, forward), word by word. -/
theorem test_uprog_P4 :
    (expandLines (uprogLines (latchedFor Sequencer.reset 6 .forward false))).map encode =
      [0x10000000, 0x20000000, 0x20000001, 0x20000002, 0x20000003, 0x14000000, 0x30000000, 0x30000001, 0x30000002,
       0x30000003, 0x14000000, 0x50000000, 0x54000000, 0x58000000, 0x60000000, 0x18000000] := by decide +kernel

/-- The uop list of program P6 (`N = 32`, inverse, scaled). -/
theorem test_uprog_P6 :
    (expandLines (uprogLines (latchedFor Sequencer.reset 5 .inverse true))).map encode =
      [0x11000000, 0x61000000, 0x51000000, 0x55000000, 0x15000000, 0x43000000, 0x65000000, 0x19000000] := by
  decide +kernel

/-! ### Witnesses: for every statement with hypotheses, states that meet them together, clause by clause -/

/-- Some next state answers. -/
def runs (o : Host.Outcome State Fault Refusal) : Bool := gives o fun _ => true

theorem exists_of_runs {o : Host.Outcome State Fault Refusal} (h : runs o = true) : ∃ t, o = .next t := by
  cases o with
  | next t => exact ⟨t, rfl⟩
  | fault r => simp [runs, gives] at h
  | refused r => simp [runs, gives] at h

theorem witness_DecodedWordIsTheEncoding :
    decodeWord 0x3AFFFFFF#32 = .error .reservedOpcode ∧ decodeWord 0x30FFFFFF#32 = .ok (.r4tF 0xFFFFFF) ∧
    decodeWord 0x00000002#32 = .ok .inv := by decide

theorem witness_StepRunsTheUopOnTheBus :
    let s := State.reset.placeUop .packF
    s.sq.busy = true ∧ s.busWord = some 0x60000000 ∧ decodeUop 0x60000000#32 = .ok .packF ∧
    s.events = .coreTurn :: [] ∧ ({ s with events := [] } : State).busWord = some 0x60000000 := by decide +kernel

theorem witness_CommandWriteRunsTheCommand :
    [1, 2, 3, 0].all (fun v =>
      let s : State := { ready with events := [.regWrite 0x00#6 .word v] }
      s.events == [.regWrite 0x00#6 .word v] && !s.sq.busy) = true := by decide +kernel

theorem witness_OtherCommandValuesAreReserved :
    [0x80000001, 1, 2].all (fun v =>
      let s : State := { ready with events := [.regWrite 0x00#6 .word v] }
      s.events == [.regWrite 0x00#6 .word v] && !s.sq.busy) = true ∧
    refuses (step { ready with events := [.regWrite 0x00#6 .word 0x80000001] }) .reservedCommand = true := by
  decide +kernel

theorem witness_IdleCoreChangesNothing :
    State.reset.sq.busy = false ∧ State.reset.events = [] ∧
    [HostEvent.coreTurn, .regWrite 0x08#6 .word 16, .regRead 0x04#6 .word, .memWrite 0x10 [1], .memRead 0x10 2,
      .reset].all (fun e => runs (step { ready with events := [e] })) = true := by decide +kernel

theorem witness_ResetEventClearsRegistersAndKeepsMemory :
    ({ ready with events := [.reset] } : State).events = .reset :: [] := by decide

/-- Reads idle and busy, idle writes, the three kinds of idle write to `CMD`, and busy writes, to `CMD` of a command and of a
reserved value among them. -/
theorem witness_RegisterAccessRule :
    [(0x00#6, CtrlReg.cmd), (0x04#6, .status), (0x08#6, .nfft), (0x20#6, .flags), (0x28#6, .dst)].all (fun p =>
      regAt p.1 == some p.2 &&
      runs (step { ready with events := [.regRead p.1 .word] }) &&
      runs (step { ready.startCall .forward with events := [.regRead p.1 .word] }) &&
      [1, 3].all fun v =>
        refuses (step { ready.startCall .forward with events := [.regWrite p.1 .word v] }) .writeWhileBusy) = true ∧
    [0x04#6, 0x08, 0x20, 0x28].all (fun o => runs (step { ready with events := [.regWrite o .word 0xFFFFFFFF] })) =
      true ∧
    [1, 2].all (fun v => runs (step { ready with events := [.regWrite 0x00#6 .word v] })) = true ∧
    refuses (step { ready with events := [.regWrite 0x00#6 .word 3] }) .reservedCommand = true := by decide +kernel

theorem witness_ReservedOffsetsAndPartialAccesses :
    0x2C ≤ (0x2C#6).toNat ∧ 0x2C ≤ (0x3C#6).toNat ∧ (0x3C#6).toNat % 4 = 0 ∧ (0x2E#6).toNat % 4 ≠ 0 ∧
    ({ ready with events := [.regRead 0x3C#6 .word] } : State).events = .regRead 0x3C#6 .word :: [] ∧
    ({ ready with events := [.regWrite 0x2E#6 .word 7] } : State).events = .regWrite 0x2E#6 .word 7 :: [] ∧
    refuses (step { ready with events := [.regRead 0x08#6 .byte] }) .badRegisterAccess = true := by decide +kernel

/-- The store at the top of the address space wraps; address 2 is the first byte outside it. -/
theorem witness_WordStoreReadsBackAndLeavesTheRest :
    Memory.wf ready.mem = true ∧ 4 ≤ (0x00000002#32 - 0xFFFFFFFE#32).toNat ∧
    (0xFFFFFFFD#32 - 0xFFFFFFFE#32).toNat = 0xFFFFFFFF := by decide +kernel

/-- While a call runs: the first byte of `DST` is touched, the byte before it is not; idle, nothing is. -/
theorem witness_HostMemoryAccessDuringACall :
    let busy := ready.startCall .forward
    let k := Nat.log2 ready.cr.nfft.toNat
    busy.sq.busy = true ∧
    (callRegions busy.cr busy.sq.dir k).any (fun r => decide (r.base ≤ 0x30000) && decide (0x30000 < r.base + r.size))
      = true ∧
    (callRegions busy.cr busy.sq.dir k).any (fun r => decide (r.base ≤ 0x2FFFF) && decide (0x2FFFF < r.base + r.size))
      = false ∧
    refuses (step { busy with events := [.memWrite 0x30000 [1]] }) .hostAccessWhileBusy = true ∧
    runs (step { busy with events := [.memWrite 0x2FFFF [1]] }) = true ∧
    runs (step { busy with events := [.memRead 0x2FFFF 1] }) = true ∧
    runs (step { ready with events := [.memWrite 0x30000 [1]] }) = true := by decide +kernel

/-- A tie, `2^24 + 1`; the largest finite value plus a quarter of its last place, which stays finite; plus half of its last
place, which is the threshold; and the difference with the sign reversed, beyond it. -/
theorem witness_FiniteSumIsCorrectlyRounded :
    [0x4B800000, 0x3F800000, 0x4B800001, 0x7F7FFFFF, 0x72800000, 0x73000000, 0xFF7FFFFF].all f32Finite = true ∧
    |f32Int 0x4B800001 * 2 ^ 0 - (f32Int 0x4B800000 + f32Int 0x3F800000)| =
      |f32Int (fadd 0x4B800000 0x3F800000) * 2 ^ 0 - (f32Int 0x4B800000 + f32Int 0x3F800000)| ∧
    f32Int 0x4B800001 ≠ f32Int (fadd 0x4B800000 0x3F800000) ∧
    |f32Int 0x7F7FFFFF + f32Int 0x72800000| < 2 ^ (277 + 0) - 2 ^ (252 + 0) ∧
    |f32Int 0x7F7FFFFF + f32Int 0x73000000| = 2 ^ (277 + 0) - 2 ^ (252 + 0) ∧
    2 ^ (277 + 0) - 2 ^ (252 + 0) ≤ |f32Int 0xFF7FFFFF - f32Int 0x7F7FFFFF| := by decide +kernel

/-- The tie among subnormals of V9a; the largest finite value times 1, and times the value after 1. -/
theorem witness_FiniteProductIsCorrectlyRounded :
    [0x00000003, 0x3F000000, 0x00000001, 0x7F7FFFFF, 0x3F800000, 0x3F800001].all f32Finite = true ∧
    |f32Int 0x00000001 * 2 ^ 149 - f32Int 0x00000003 * f32Int 0x3F000000| =
      |f32Int (fmul 0x00000003 0x3F000000) * 2 ^ 149 - f32Int 0x00000003 * f32Int 0x3F000000| ∧
    f32Int 0x00000001 ≠ f32Int (fmul 0x00000003 0x3F000000) ∧
    |f32Int 0x7F7FFFFF * f32Int 0x3F800000| < 2 ^ (277 + 149) - 2 ^ (252 + 149) ∧
    2 ^ (277 + 149) - 2 ^ (252 + 149) ≤ |f32Int 0x7F7FFFFF * f32Int 0x3F800001| := by decide +kernel

theorem witness_ZerosAndNaNsOfTheArithmetic :
    f32Finite 0x00000001 = true ∧ f32Finite 0x80000000 = true ∧ f32IsNaN 0x7F800001 = true ∧
    f32IsInf 0x7F800000 = true ∧ f32IsInf 0xFF800000 = true ∧ f32IsZero 0x80000000 = true ∧
    f32Sign 0x7F800000 ≠ f32Sign 0xFF800000 ∧ 0xFF800000 = fneg 0x7F800000 ∧
    f32Int 0x3F800000 + f32Int 0xBF800000 = 0 ∧ f32Int 0x80000000 - f32Int 0x00000000 = 0 ∧
    f32IsNaN 0xFF800000 = false ∧ f32IsZero 0xFF800000 = false ∧ f32IsZero 0x00000001 = false := by decide +kernel

theorem ready_launchable : launchable .forward ready = true ∧ launchable .inverse ready = true :=
  ⟨by rw [launchable, ready_forward]; rfl, by rw [launchable, ready_inverse]; rfl⟩

theorem witness_CommandsStartACallWhereTheContractHolds :
    (ready.startCall .forward).sq.busy = true ∧ State.reset.sq.busy = false ∧
    launchable .forward State.reset = false ∧ launchable .inverse State.reset = false ∧
    launchable .forward ready = true ∧ launchable .inverse ready = true :=
  ⟨by decide, by decide, by decide +kernel, by decide +kernel, ready_launchable⟩

/-- `NFFT = 8` and `NFFT = 2^25`, just outside the range; a misaligned base; the last aligned base, from which every region
wraps; each kind of overlap by 16 bytes or whole: `SCRATCH = DST`, the input's end in `DST`, the input's end in `SCRATCH`, the
end of `SCRATCH` in the list, the end of `DST` in `STW`; a list that nobody wrote, a list of another `N`, and an input whose
last byte the host has not written. -/
theorem witness_CommandsAreRefusedOutsideTheContract :
    ready.sq.busy = false ∧ ready.cr.nfft.toNat = 2 ^ 4 ∧
    (∀ k < 25, 4 ≤ k → (0x8#32).toNat ≠ 2 ^ k ∧ (0x2000000#32).toNat ≠ 2 ^ k) ∧
    ¬ BasesAligned { ready.cr with src := 0x20008 } ∧
    (BasesAligned { ready.cr with dst := 0xFFFFFFF0 } ∧ ¬ RegionsFit { ready.cr with dst := 0xFFFFFFF0 } .forward 4) ∧
    (∀ c ∈ [{ ready.cr with scratch := 0x30000 }, { ready.cr with src := 0x2FFD0 }, { ready.cr with src := 0xFFD0 },
        { ready.cr with scratch := 0xF90 }, { ready.cr with dst := 0x3F90 }],
      BasesAligned c ∧ RegionsFit c .forward 4 ∧ ¬ NoByteShared c .forward 4) ∧
    (BasesAligned ready.cr ∧ RegionsFit ready.cr .inverse 4 ∧ NoByteShared ready.cr .inverse 4) ∧
    ¬ CanonicalList { ready with mem := [] } 4 ∧
    ¬ CanonicalList { ready with mem := Memory.writeByte ready.mem 0x1004 2 } 4 ∧
    ¬ InputsFromHost { ready with hostWritten := ready.hostWritten.filter (· != 0x20043) } .inverse 4 := by
  simp only [← basesAligned_iff, ← regionsFit_iff, ← regionsDisjoint_iff, ← factorListCanonical_iff,
    ← inputsWritten_iff]
  decide +kernel

theorem witness_SeqBeginLatchesThePlan :
    (ready.startCall .forward).sq.dir = .forward ∧ (ready.startCall .inverse).sq.dir = .inverse := by decide

/-- The lists of the smallest even, the smallest odd and the largest `k`. -/
theorem witness_SeqBeginOnTheCanonicalList :
    [4, 5, 24].all (fun k =>
      let s := put mapped 0x1000 ((canon k).map (BitVec.ofNat 32 ·))
      let s' : State := { s with cr := { s.cr with nfft := BitVec.ofNat 32 (2 ^ k) } }
      s'.cr.nfft.toNat == 2 ^ k &&
      ((canon k).zipIdx.all fun p =>
        s'.word (s'.cr.factors + BitVec.ofNat 32 (4 * p.2)) == BitVec.ofNat 32 p.1) &&
      runs (exec .seqBeginF s') &&
      runs (exec .seqBeginI { s' with sq := { s'.sq with dir := .inverse } })) = true := by decide +kernel

theorem witness_SeqNextSwapsTheBuffers :
    (State.reset.placeUop .seqNextF).sq.dir = .forward ∧ (State.reset.placeUop .seqNextI).sq.dir = .inverse := by
  decide +kernel

theorem witness_SeqEndFinishesTheCall :
    (State.reset.placeUop .seqEndF).sq.dir = .forward ∧ (State.reset.placeUop .seqEndI).sq.dir = .inverse := by
  decide +kernel

theorem witness_UprogHasTheStatedLength :
    1 ≤ (latchedFor Sequencer.reset 4 .forward false).l.toNat ∧
    1 ≤ (latchedFor Sequencer.reset 24 .inverse true).l.toNat := by decide +kernel

theorem witness_UpcAdvancesByOneExceptAtTheEnd :
    (∃ t, exec .fwd ready = .next t) ∧ (∃ t, exec .seqEndF (State.reset.placeUop .seqEndF) = .next t) ∧
    ∃ t, exec (.r4fF 0) (State.reset.placeUop (.r4fF 0)) = .next t :=
  ⟨⟨_, ready_fwd⟩, exists_of_runs (by decide +kernel), exists_of_runs (by decide +kernel)⟩

theorem witness_NoInstructionWritesAControlRegister :
    (∃ t, exec .inv ready = .next t) ∧ (∃ t, exec .seqEndI (State.reset.placeUop .seqEndI) = .next t) ∧
    ∃ t, exec .packF (State.reset.placeUop .packF) = .next t :=
  ⟨⟨_, ready_inv⟩, exists_of_runs (by decide +kernel), exists_of_runs (by decide +kernel)⟩

theorem witness_SequencerIssuesOnlyTableWords :
    State.reset.busWord = some 0x10000000 ∧ (State.reset.placeUop .restoreI).busWord = some 0x65000000 := by
  decide +kernel

theorem witness_UopsDoNotReadTheVectorRegisters : Instr.packF ≠ .fwd ∧ Instr.packF ≠ .inv := by decide

/-- V101. -/
theorem witness_WrongDirectionIsRefused :
    Instr.r4fI 0 ≠ .fwd ∧ Instr.r4fI 0 ≠ .inv ∧
    (if (encode (.r4fI 0)).getLsbD 24 then Direction.inverse else .forward) ≠ State.reset.sq.dir := by decide

/-- The first index out of range of `N = 64` (`M = 16`) in each clause. -/
theorem witness_IndexOutOfRangeIsRefused :
    let q := latchedFor Sequencer.reset 6 .forward false
    let r := latchedFor Sequencer.reset 6 .inverse false
    q.dir = .forward ∧ r.dir = .inverse ∧ q.m.toNat / 4 ≤ (4#24).toNat ∧ q.m.toNat / 8 ≤ (2#24).toNat ∧
    (q.m.toNat - 8) / 8 ≤ (1#24).toNat ∧ r.m.toNat / 4 ≤ (4#24).toNat ∧ r.m.toNat / 8 ≤ (2#24).toNat ∧
    (r.m.toNat - 8) / 8 ≤ (1#24).toNat := by decide +kernel

/-- The last butterfly of `N = 64` and of `N = 2^24`. -/
theorem witness_R4fForwardResult :
    [(.r4fF 3, 3#24), (.r4fF 0xFFFFF, 0xFFFFF#24)].all (fun p =>
      let s := State.reset.placeUop p.1
      s.sq.dir == .forward && s.sq.stage == 1 && s.sq.r1 == 4 && decide (p.2.toNat < s.sq.m.toNat / 4)) = true := by
  decide +kernel

theorem witness_R4fInverseResult :
    [(.r4fI 0xFFFFF, false), (.r4fIS 0xFFFFF, true)].all (fun p =>
      let s := State.reset.placeUop p.1
      s.sq.dir == .inverse && s.sq.stage == 1 && s.sq.r1 == 4 && s.sq.scalef == p.2 &&
      decide ((0xFFFFF#24).toNat < s.sq.m.toNat / 4) && decide (1 ≤ (s.sq.stFAt 1).toNat) &&
      decide ((s.sq.stFAt 1).toNat ≤ 2 ^ 20)) = true := by decide +kernel

theorem witness_R4tForwardResult :
    [3#24, 0xFFFFF#24].all (fun b =>
      let s := State.reset.placeUop (.r4tF b)
      s.sq.dir == .forward && decide (2 ≤ s.sq.stage.toNat) && decide (s.sq.stage.toNat ≤ s.sq.l.toNat) &&
      decide (s.sq.stage.toNat ≤ 12) && decide (b.toNat < s.sq.m.toNat / 4) &&
      decide (1 ≤ (s.sq.stMAt s.sq.stage.toNat).toNat) &&
      decide ((s.sq.stMAt s.sq.stage.toNat).toNat ≤ 2 ^ 20)) = true := by decide +kernel

theorem witness_R4tInverseResult :
    [3#24, 0xFFFFF#24].all (fun b =>
      let s := State.reset.placeUop (.r4tI b)
      let mf := (s.sq.stMAt s.sq.stage.toNat).toNat * (s.sq.stFAt s.sq.stage.toNat).toNat
      s.sq.dir == .inverse && decide (2 ≤ s.sq.stage.toNat) && decide (s.sq.stage.toNat ≤ s.sq.l.toNat) &&
      decide (s.sq.stage.toNat ≤ 12) && decide (b.toNat < s.sq.m.toNat / 4) && decide (1 ≤ mf) &&
      decide (mf ≤ 2 ^ 20)) = true := by decide +kernel

/-- Stage 2 of `N = 64` (`m = 4`, `F = 1`), its first and last butterfly and input; stage 1 of radix 4 (`N = 64`, `F = 4`) and
of radix 8 (`N = 128`, `F = 4`); and two states that read the same. -/
theorem witness_ButterfliesOfAPassAreDisjoint :
    (let q := { latchedFor Sequencer.reset 6 .forward false with stage := 2 }
     1 ≤ stageM q ∧ 0 < stageM q * stageF q ∧ 3 < stageM q * stageF q) ∧
    3 < ((latchedFor Sequencer.reset 6 .forward false).stFAt 1).toNat ∧
    3 < ((latchedFor Sequencer.reset 7 .forward false).stFAt 1).toNat ∧
    (∀ e n, SameElements 0x10000 e n ready { ready with draws := 1 } ∧
      SameRealElements 0x10000 e n ready { ready with draws := 1 }) ∧
    ({ ready with draws := 1 } : State).sq = ready.sq ∧
    ∀ table b, r4tTwiddle { ready with draws := 1 } table b = r4tTwiddle ready table b :=
  ⟨by decide +kernel, by decide +kernel, by decide +kernel, fun _ _ => ⟨fun _ _ _ _ => rfl, fun _ _ _ _ => rfl⟩, rfl,
    fun _ _ => rfl⟩

/-- `N = 64`: the entries above `L = 2` as they are, the others arbitrary. -/
theorem witness_BeginForgetsTheOldLatches :
    let s : State := { put mapped 0x1000 [2, 4, 1, 4, 4, 4] with
      sq := { Sequencer.reset with stM := Vector.ofFn fun t => if t.val < 2 then 0xFFFFFFFF else 7 } }
    let q : Sequencer := { Sequencer.reset with stM := Vector.ofFn fun t => if t.val < 2 then 5 else 7, l := 9 }
    (if listWord s 3 = 2 then listWord s 0 - 1 else listWord s 0).toNat = 2 ∧
    ∀ e < 13, 2 < e → q.stMAt e = s.sq.stMAt e ∧ q.stFAt e = s.sq.stFAt e ∧ q.stTWAt e = s.sq.stTWAt e := by
  decide +kernel

theorem witness_R8ForwardResult :
    let s := State.reset.placeUop (.r8F 0x3FFFF)
    s.sq.dir = .forward ∧ s.sq.stage = 1 ∧ s.sq.r1 = 8 ∧ (0x3FFFF#24).toNat < s.sq.m.toNat / 8 := by decide +kernel

theorem witness_R8InverseResult :
    [(.r8I 0x3FFFF, false), (.r8IS 0x3FFFF, true)].all (fun p =>
      let s := State.reset.placeUop p.1
      s.sq.dir == .inverse && s.sq.stage == 1 && s.sq.r1 == 8 && s.sq.scalef == p.2 &&
      decide ((0x3FFFF#24).toNat < s.sq.m.toNat / 8) && decide (1 ≤ (s.sq.stFAt 1).toNat) &&
      decide ((s.sq.stFAt 1).toNat ≤ 2 ^ 20)) = true := by decide +kernel

/-- The finalizer pass of the calls of size `2^k`. -/
def finalizing (k : Nat) (dir : Direction) : State :=
  let q := latchedFor Sequencer.reset k dir false
  { State.reset with sq := { q with stage := q.l + 1 } }

/-- `M = 4`, `M = 8` and the largest `M = 2^22`. -/
theorem witness_FinEdgeForwardResult :
    [4, 5, 24].all (fun k =>
      let s := finalizing k .forward
      s.sq.dir == .forward && s.sq.stage.toNat == s.sq.l.toNat + 1 &&
      (s.sq.m.toNat == 4 || decide (8 ≤ s.sq.m.toNat)) && decide (s.sq.m.toNat ≤ 2 ^ 22)) = true := by decide +kernel

theorem witness_FinSecondForwardResult :
    [5, 24].all (fun k =>
      let s := finalizing k .forward
      s.sq.dir == .forward && s.sq.stage.toNat == s.sq.l.toNat + 1 && decide (8 ≤ s.sq.m.toNat) &&
      decide (s.sq.m.toNat ≤ 2 ^ 22)) = true := by decide +kernel

/-- The only iteration of `N = 64`, and the last one of `N = 2^24`. -/
theorem witness_FinInteriorForwardResult :
    [(6, 0#24), (24, 0x7FFFE#24)].all (fun p =>
      let s := finalizing p.1 .forward
      s.sq.dir == .forward && s.sq.stage.toNat == s.sq.l.toNat + 1 && decide (16 ≤ s.sq.m.toNat) &&
      decide (s.sq.m.toNat ≤ 2 ^ 22) && decide (p.2.toNat < (s.sq.m.toNat - 8) / 8)) = true := by decide +kernel

theorem witness_FinEdgeInverseResult :
    [4, 5, 24].all (fun k =>
      let s := finalizing k .inverse
      s.sq.dir == .inverse && s.sq.stage.toNat == s.sq.l.toNat + 1 &&
      (s.sq.m.toNat == 4 || decide (8 ≤ s.sq.m.toNat)) && decide (s.sq.m.toNat ≤ 2 ^ 22)) = true := by decide +kernel

theorem witness_FinSecondInverseResult :
    [5, 24].all (fun k =>
      let s := finalizing k .inverse
      s.sq.dir == .inverse && s.sq.stage.toNat == s.sq.l.toNat + 1 && decide (8 ≤ s.sq.m.toNat)) = true := by
  decide +kernel

theorem witness_FinInteriorInverseResult :
    [(6, 0#24), (24, 0x7FFFE#24)].all (fun p =>
      let s := finalizing p.1 .inverse
      s.sq.dir == .inverse && s.sq.stage.toNat == s.sq.l.toNat + 1 && decide (16 ≤ s.sq.m.toNat) &&
      decide (s.sq.m.toNat ≤ 2 ^ 22) && decide (p.2.toNat < (s.sq.m.toNat - 8) / 8)) = true := by decide +kernel

theorem witness_PackForwardResult :
    let s := State.reset.placeUop .packF
    s.sq.dir = .forward ∧ s.sq.stage.toNat = s.sq.l.toNat + 1 ∧ s.sq.upc.toNat + 2 = uprogLength s.sq ∧
    1 ≤ (s.sq.n >>> 1).toNat ∧ (s.sq.n >>> 1).toNat ≤ 2 ^ 23 := by decide +kernel

theorem witness_UnpackInverseResult :
    let s := State.reset.placeUop .unpackI
    s.sq.dir = .inverse ∧ s.sq.upc = 1 := by decide +kernel

theorem witness_RestoreInverseResult :
    let s := State.reset.placeUop .restoreI
    s.sq.dir = .inverse ∧ s.sq.upc.toNat + 2 = uprogLength s.sq := by decide +kernel

/-- After `PACK.F`: the same memory in a state that issues `UNPACK.I` on the region `PACK.F` left. -/
def afterPack : State :=
  match exec .packF (issuing .packF 0x10000 0x30000) with
  | .next t => { mapped.placeUop .unpackI with mem := t.mem, cr := { mapped.cr with src := 0x30000 } }
  | .fault _ => mapped
  | .refused _ => mapped

/-- After `UNPACK.I`: the same memory and saved word in a state that issues `RESTORE.I`. -/
def afterUnpack : State :=
  match exec .unpackI (mapped.placeUop .unpackI) with
  | .next t =>
    let r := mapped.placeUop .restoreI
    { r with mem := t.mem, cr := t.cr, sq := { r.sq with save0i := t.sq.save0i } }
  | .fault _ => mapped
  | .refused _ => mapped

theorem witness_PackUnpackRestorePairs :
    (∃ t u : State, exec .packF (issuing .packF 0x10000 0x30000) = .next t ∧
      1 ≤ ((issuing .packF 0x10000 0x30000).sq.n >>> 1).toNat ∧
      ((issuing .packF 0x10000 0x30000).sq.n >>> 1).toNat ≤ 2 ^ 23 ∧
      afterPack.mem = t.mem ∧ afterPack.cr.src = (issuing .packF 0x10000 0x30000).cr.dst ∧
      afterPack.sq.n = (issuing .packF 0x10000 0x30000).sq.n ∧ exec .unpackI afterPack = .next u) ∧
    ∃ t u : State, exec .unpackI (mapped.placeUop .unpackI) = .next t ∧ afterUnpack.mem = t.mem ∧
      afterUnpack.cr.src = t.cr.src ∧ afterUnpack.sq.save0i = t.sq.save0i ∧ exec .restoreI afterUnpack = .next u := by
  refine ⟨?_, ?_⟩
  · obtain ⟨t, ht⟩ := exists_of_runs (o := exec .packF (issuing .packF 0x10000 0x30000)) (by decide +kernel)
    obtain ⟨u, hu⟩ := exists_of_runs (o := exec .unpackI afterPack) (by decide +kernel)
    have hp : afterPack =
        { mapped.placeUop .unpackI with mem := t.mem, cr := { mapped.cr with src := 0x30000 } } := by
      unfold afterPack
      rw [ht]
    refine ⟨t, u, ht, by decide +kernel, by decide +kernel, by rw [hp], ?_, ?_, hu⟩
    · rw [hp]
      rfl
    · rw [hp]
      rfl
  · obtain ⟨t, ht⟩ := exists_of_runs (o := exec .unpackI (mapped.placeUop .unpackI)) (by decide +kernel)
    obtain ⟨u, hu⟩ := exists_of_runs (o := exec .restoreI afterUnpack) (by decide +kernel)
    have hp : afterUnpack.mem = t.mem ∧ afterUnpack.cr.src = t.cr.src ∧ afterUnpack.sq.save0i = t.sq.save0i := by
      unfold afterUnpack
      rw [ht]
      exact ⟨rfl, rfl, rfl⟩
    exact ⟨t, u, ht, hp.1, hp.2.1, hp.2.2, hu⟩

/-- A running call of `N = 16` after its first uop. -/
def running : State :=
  let q := latchedFor Sequencer.reset 4 .forward false
  { ready with sq := { q with upc := 1, stage := 1, srcsel := 0x20000, dstsel := 0x10000 } }

theorem running_latched : Latched running :=
  ⟨by decide +kernel, by decide +kernel, by decide +kernel, by decide +kernel, by decide +kernel,
    .inl (by decide +kernel), by decide +kernel⟩

theorem running_invariant : Invariant running :=
  ⟨by decide +kernel, by decide +kernel, by decide +kernel, by decide +kernel, by decide +kernel,
    fun _ _ => running_latched⟩

theorem witness_EveryStepKeepsTheInvariant : Invariant running ∧ ∃ t, step running = .next t :=
  ⟨running_invariant, exists_of_runs (by decide +kernel)⟩

/-- The last passes of `N = 16`: the forward finalizer pass and the inverse driver stage 1. -/
theorem witness_LastPassWritesTheDestination :
    (∃ s : State, Invariant s ∧ s.sq.busy = true ∧ s.sq.upc ≠ 0 ∧ s.sq.dir = .forward ∧ s.sq.stage = s.sq.l + 1) ∧
    ∃ s : State, Invariant s ∧ s.sq.busy = true ∧ s.sq.upc ≠ 0 ∧ s.sq.dir = .inverse ∧ s.sq.stage = 1 := by
  refine ⟨⟨{ running with sq := { running.sq with upc := 3, stage := 2, srcsel := 0x10000, dstsel := 0x30000 } },
      ⟨by decide +kernel, by decide +kernel, by decide +kernel, by decide +kernel, by decide +kernel, fun _ _ =>
        ⟨by decide +kernel, by decide +kernel, by decide +kernel, by decide +kernel, by decide +kernel,
          .inl (by decide +kernel), by decide +kernel⟩⟩,
      by decide +kernel, by decide +kernel, by decide +kernel, by decide +kernel⟩,
    ⟨{ running with sq := { running.sq with
        dir := .inverse, upc := 4, stage := 1, srcsel := 0x10000, dstsel := 0x30000 } },
      ⟨by decide +kernel, by decide +kernel, by decide +kernel, by decide +kernel, by decide +kernel, fun _ _ =>
        ⟨by decide +kernel, by decide +kernel, by decide +kernel, by decide +kernel, by decide +kernel,
          .inl (by decide +kernel), by decide +kernel⟩⟩,
      by decide +kernel, by decide +kernel, by decide +kernel, by decide +kernel⟩⟩

theorem witness_LaunchedCallRunsToItsEnd :
    ready.events = [] ∧ launchable .forward ready = true ∧ launchable .inverse ready = true :=
  ⟨by decide, ready_launchable⟩

/-- `M = 4`, `M = 8` and the largest `M`. -/
theorem witness_EveryColumnIsProcessedOnce :
    [2, 3, 22].all (fun n => decide (2 ≤ n) && (finalizing (n + 2) .forward).sq.m.toNat == 2 ^ n) = true := by
  decide +kernel

/-- Every clause at the ends of its range: the calls of `N = 16` (one pass, no Second), `N = 32` (no Interior) and `N = 128`
(a later stage, three Interior iterations), each position with the uop there; the last position is past the end. -/
theorem witness_EachPositionOfTheListingIsTheStatedUop :
    ([(4, Direction.forward, [(0, some 0x10000000), (1, some 0x20000000), (2, some 0x14000000), (3, some 0x50000000),
        (4, some 0x60000000), (5, some 0x18000000), (6, none)]),
      (5, .inverse, [(0, some 0x11000000), (1, some 0x61000000), (2, some 0x51000000), (3, some 0x55000000),
        (4, some 0x15000000), (5, some 0x43000000), (6, some 0x65000000), (7, some 0x19000000), (8, none)]),
      (7, .forward, [(1, some 0x40000000), (4, some 0x40000003), (5, some 0x14000000), (6, some 0x30000000),
        (13, some 0x30000007), (14, some 0x14000000), (15, some 0x50000000), (16, some 0x54000000),
        (17, some 0x58000000), (19, some 0x58000002), (20, some 0x60000000), (21, some 0x18000000), (22, none)]),
      (7, .inverse, [(4, some 0x59000000), (6, some 0x59000002), (7, some 0x15000000), (8, some 0x31000000),
        (15, some 0x31000007), (16, some 0x15000000), (17, some 0x43000000), (20, some 0x43000003),
        (21, some 0x65000000), (22, some 0x19000000), (23, none)])] :
      List (Nat × Direction × List (Nat × Option Word))).all (fun row => row.2.2.all fun p =>
        let q := latchedFor Sequencer.reset row.1 row.2.1 (row.2.1 == .inverse)
        let s : State := { State.reset with sq := { q with upc := BitVec.ofNat 32 p.1 } }
        s.sq.upc.toNat == p.1 && s.sq.dir == row.2.1 && s.busWord == p.2) = true := by decide +kernel

/-- The byte before `DST`, the byte after `SCRATCH`, the byte after the borrowed word; and the first byte of the input. -/
theorem witness_ACallWritesOnlyItsWorkingRegions :
    (ready.events = [] ∧ launchable .forward ready = true ∧ launchable .inverse ready = true) ∧
    (∃ u, Host.Core.run Sys2Proof.core 0 (ready.startCall .inverse) = .next u) ∧
    [0x2FFFF#32, 0x10080, 0x20008].all (fun x =>
      !(destinationRegion ready.cr 4).holds x.toNat && !(scratchRegion ready.cr 4).holds x.toNat &&
      decide (4 ≤ (x - (ready.cr.src + 4)).toNat)) = true ∧
    (sourceRegion ready.cr .inverse 4).holds (0x20000#32).toNat = true :=
  ⟨witness_LaunchedCallRunsToItsEnd, ⟨_, rfl⟩, by decide +kernel, by decide +kernel⟩

end Sys2Proof.Tests
end

section
/-! PROOF. Negation of a pattern, bit by bit (00_scope.md R18). -/

namespace Sys2Proof.Machine

/-- Negation bit by bit: bit 31 is flipped and every other bit is kept. -/
theorem getLsbD_fneg (a : F32) (n : Nat) : (fneg a).getLsbD n = (a.getLsbD n ^^ decide (n = 31)) := by
  have hmask : (0x80000000#32).getLsbD n = decide (31 = n) := BitVec.getLsbD_twoPow 31 n
  rw [fneg, BitVec.getLsbD_xor, hmask, decide_eq_decide.mpr eq_comm]

theorem getLsbD_fneg_sign (a : F32) : (fneg a).getLsbD 31 = !a.getLsbD 31 := by
  rw [getLsbD_fneg, decide_eq_true rfl, Bool.xor_true]

theorem getLsbD_fneg_of_ne {n : Nat} (a : F32) (hn : n ≠ 31) : (fneg a).getLsbD n = a.getLsbD n := by
  rw [getLsbD_fneg, decide_eq_false hn, Bool.xor_false]

/-- Negation is its own inverse on every pattern, NaNs included. -/
@[simp] theorem fneg_fneg (a : F32) : fneg (fneg a) = a := by
  rw [fneg, fneg, BitVec.xor_assoc, BitVec.xor_self, BitVec.xor_zero]

/-- Settles O16: from the bits of a negated pattern (`getLsbD_fneg`) and from negation being its own inverse. -/
theorem negationFlipsTheSignBitOnly : Obligations.NegationFlipsTheSignBitOnly := fun a =>
  ⟨rfl, getLsbD_fneg_sign a, fun _ hn => getLsbD_fneg_of_ne a (Nat.ne_of_lt hn), fneg_fneg a⟩

end Sys2Proof.Machine
end

section
/-! PROOF. The register block: its values after reset and the form an access to it must have (10_state.md R44, R58). -/

namespace Sys2Proof.Machine

/-! ### What the host's next action and its register accesses do -/

/-- A pending action of the host is what the step performs, and it is used up. -/
theorem step_eq_hostStep {s : State} {e : HostEvent} {rest : List HostEvent} (he : s.events = e :: rest) :
    step s = hostStep e { s with events := rest } := by
  rw [step, machineStep, he]

/-- No register stands at offset `0x2C` or above (R31). -/
theorem regAt_eq_none_of_le {o : BitVec 6} (ho : 0x2C ≤ o.toNat) : regAt o = none := by
  unfold regAt
  split
  case h_12 => rfl
  all_goals omega

theorem wholeWordAccess_iff {o : BitVec 6} {w : AccessWidth} :
    wholeWordAccess o w = true ↔ w = .word ∧ o.toNat % 4 = 0 := by
  simp [wholeWordAccess]

theorem wholeWordAccess_eq_false {o : BitVec 6} {w : AccessWidth} (h : w ≠ .word ∨ o.toNat % 4 ≠ 0) :
    wholeWordAccess o w = false :=
  Bool.eq_false_iff.mpr fun hw => by
    obtain ⟨hword, haligned⟩ := wholeWordAccess_iff.mp hw
    exact h.elim (· hword) (· haligned)

theorem regReadStep_of_wholeWord {o : BitVec 6} {w : AccessWidth} (h : wholeWordAccess o w = true) (s : State) :
    regReadStep o w s = .next (s.answerWord (((regAt o).map s.readReg).getD 0)) := by
  simp [regReadStep, h]

theorem regReadStep_of_not_wholeWord {o : BitVec 6} {w : AccessWidth} (h : wholeWordAccess o w = false) (s : State) :
    regReadStep o w s = .refused .badRegisterAccess := by
  simp [regReadStep, h]

/-- The model checks the form of a write before `BUSY` (log 28), so this holds of a running call too. -/
theorem regWriteStep_of_not_wholeWord {o : BitVec 6} {w : AccessWidth} (h : wholeWordAccess o w = false) (v : Word)
    (s : State) : regWriteStep o w v s = .refused .badRegisterAccess := by
  simp [regWriteStep, h]

theorem regReadStep_of_reserved {o : BitVec 6} {w : AccessWidth} (h : wholeWordAccess o w = true)
    (hr : regAt o = none) (s : State) : regReadStep o w s = .next (s.answerWord 0) := by
  rw [regReadStep_of_wholeWord h, hr, Option.map_none, Option.getD_none]

/-- With no register at the offset the model does not look at `BUSY` (log 15), so this holds of a running call too. -/
theorem regWriteStep_of_reserved {o : BitVec 6} {w : AccessWidth} (h : wholeWordAccess o w = true)
    (hr : regAt o = none) (v : Word) (s : State) : regWriteStep o w v s = .next s := by
  simp [regWriteStep, h, hr]

/-- Settles O12: the host's step is its access to the block; a whole word at a reserved offset finds no register
(`regAt_eq_none_of_le`), and every other form is refused before the offset is looked at. -/
theorem reservedOffsetsAndPartialAccesses : Obligations.ReservedOffsetsAndPartialAccesses := by
  intro s o w v rest
  refine ⟨fun hreserved haligned => ?_, fun hpartial => ?_⟩
  · have hword : wholeWordAccess o .word = true := wholeWordAccess_iff.mpr ⟨rfl, haligned⟩
    have hnone : regAt o = none := regAt_eq_none_of_le hreserved
    exact ⟨fun he => (step_eq_hostStep he).trans (regReadStep_of_reserved hword hnone _),
      fun _ he => (step_eq_hostStep he).trans (regWriteStep_of_reserved hword hnone v _)⟩
  · have hform : w ≠ .word ∨ o.toNat % 4 ≠ 0 := by
      obtain rfl | rfl | hunaligned := hpartial
      · exact .inl nofun
      · exact .inl nofun
      · exact .inr hunaligned
    have hbad : wholeWordAccess o w = false := wholeWordAccess_eq_false hform
    exact ⟨fun he => (step_eq_hostStep he).trans (regReadStep_of_not_wholeWord hbad _),
      fun _ he => (step_eq_hostStep he).trans (regWriteStep_of_not_wholeWord hbad v _)⟩

/-! ### Reset -/

/-- After reset every register of the block reads zero, `CMD` and `STATUS` among them. -/
@[simp] theorem readReg_reset (r : CtrlReg) : State.reset.readReg r = 0 := by
  cases r <;> rfl

/-- Settles O9: the sequencer bits by the definition of reset, the registers by `readReg_reset`. -/
theorem resetLeavesTheStatedValues : Obligations.ResetLeavesTheStatedValues :=
  ⟨rfl, rfl, rfl, rfl, fun r _ => readReg_reset r, readReg_reset .status⟩

end Sys2Proof.Machine
end

section
/-! PROOF. A write to `CMD` of the idle core: a command or a reserved value (10_state.md R32, 30_encoding.md R102,
R107). -/

namespace Sys2Proof.Machine

/-! ### The reasons a command can be refused for -/

/-- What a command whose contract fails can report (43_sequencer.md R153). -/
theorem contractFailure_mem {dir : Direction} {s : State} {r : Refusal} (h : contractFailure dir s = some r) :
    r ∈ [Refusal.writeWhileBusy, .contractViolation, .misalignedBase, .regionWraps, .regionsOverlap] := by
  simp only [contractFailure] at h
  split_ifs at h <;> cases h <;> decide

/-- A command never calls its own value reserved: that reason belongs to the write that carries the value. -/
theorem launch_ne_reservedCommand (dir : Direction) (s : State) : launch dir s ≠ .refused .reservedCommand := by
  unfold launch
  split
  case h_1 r hr =>
    rintro ⟨⟩
    exact absurd (contractFailure_mem hr) (by decide)
  case h_2 => nofun

/-! ### What a value written to `CMD` does -/

theorem commandWrite_fwd (s : State) : commandWrite 0x00000001#32 s = launch .forward s := rfl

theorem commandWrite_inv (s : State) : commandWrite 0x00000002#32 s = launch .inverse s := rfl

theorem decodeCommand_of_ne {v : Word} (h1 : v ≠ 0x00000001#32) (h2 : v ≠ 0x00000002#32) :
    decodeCommand v = .error .reservedCommand := by
  rw [decodeCommand, if_neg h1, if_neg h2]

theorem commandWrite_of_ne {v : Word} (h1 : v ≠ 0x00000001#32) (h2 : v ≠ 0x00000002#32) (s : State) :
    commandWrite v s = .refused .reservedCommand := by
  rw [commandWrite, decodeCommand_of_ne h1 h2]

theorem commandWrite_eq_reservedCommand_iff {v : Word} {s : State} :
    commandWrite v s = .refused .reservedCommand ↔ v ≠ 0x00000001#32 ∧ v ≠ 0x00000002#32 := by
  refine ⟨fun h => ⟨?_, ?_⟩, fun ⟨h1, h2⟩ => commandWrite_of_ne h1 h2 s⟩
  · rintro rfl
    exact launch_ne_reservedCommand .forward s h
  · rintro rfl
    exact launch_ne_reservedCommand .inverse s h

/-! ### The host's write -/

/-- `CMD` stands at offset 0 (R31), and with `BUSY = 0` a whole-word write of it is a command write. -/
theorem regWriteStep_cmd_of_idle {s : State} (hidle : s.sq.busy = false) (v : Word) :
    regWriteStep 0x00#6 .word v s = commandWrite v s := by
  have hword : wholeWordAccess 0x00#6 .word = true := rfl
  have hcmd : regAt 0x00#6 = some .cmd := rfl
  simp [regWriteStep, hword, hcmd, hidle]

/-- Settles O7: the step is the command write of the value (`regWriteStep_cmd_of_idle`), which is refused as reserved
for the values that are no command and, by `launch_ne_reservedCommand`, for no others. -/
theorem otherCommandValuesAreReserved : Obligations.OtherCommandValuesAreReserved := by
  intro s v rest he hidle
  have hstep : step s = commandWrite v { s with events := rest } :=
    (step_eq_hostStep he).trans (regWriteStep_cmd_of_idle (s := { s with events := rest }) hidle v)
  rw [hstep]
  exact commandWrite_eq_reservedCommand_iff

end Sys2Proof.Machine
end

section
/-! PROOF. What the butterfly uops of driver stage 1 have in common: they store words and advance `SQ.UPC`, at the
elements `f + p·F` or `r·f + u` (40_r4f.md R120, R121; 42_r8.md R140, R141). -/

namespace Sys2Proof.Machine

/-! ### A uop whose effect is its stores -/

/-- Storing words and advancing changes no register but `SQ.UPC` (10_state.md R46). -/
theorem onlyMemoryAndUpc_storeWords_advance (s : State) (l : List Store) :
    OnlyMemoryAndUpc s (s.storeWords l).advance :=
  ⟨⟨rfl, rfl, rfl, rfl, rfl⟩, rfl⟩

/-- The frame of such a uop: its stores reach no byte outside the set. -/
theorem sameMemoryOutside_storeWords_advance {stored : Word → Prop} {s : State} {l : List Store}
    (h : ∀ x, ¬ stored x → Untouched l x) : SameMemoryOutside stored s (s.storeWords l).advance := fun x hx =>
  (byteAt_advance _ x).trans (byteAt_storeWords_untouched s (h x hx))

theorem inFirstStage_iff {q : Sequencer} {radix : BitVec 4} :
    inFirstStage q radix = true ↔ q.stage = 1 ∧ q.r1 = radix := by
  simp [inFirstStage]

/-! ### The elements of a butterfly -/

theorem firstBlocked_injective {r f u u' : Nat} (h : firstBlocked r f u = firstBlocked r f u') : u = u' :=
  Nat.add_left_cancel h

/-- The strided elements of a butterfly are different ones where the stride is not zero. -/
theorem firstStrided_injective {q : Sequencer} {f p p' : Nat} (hpos : 1 ≤ (q.stFAt 1).toNat)
    (h : firstStrided q f p = firstStrided q f p') : p = p' :=
  Nat.eq_of_mul_eq_mul_right hpos (Nat.add_left_cancel h)

/-- With a stride up to `2^20` the strided elements of a butterfly of radix 4 or 8 lie within `2^28` elements. -/
theorem firstStrided_bounds {q : Sequencer} {f p : Nat} (hmax : (q.stFAt 1).toNat ≤ 2 ^ 20) (hp : p < 8) :
    f ≤ firstStrided q f p ∧ firstStrided q f p < f + 2 ^ 28 := by
  have hpF : p * (q.stFAt 1).toNat ≤ 8 * 2 ^ 20 := Nat.mul_le_mul hp.le hmax
  unfold firstStrided
  omega

/-- A byte outside `n` contiguous vector-complex elements is outside each of them. -/
theorem outside_element_of_outside_block {base x : Word} {e n u : Nat}
    (hx : 32 * n ≤ (x - ea base e 0).toNat) (hu : u < n) : 32 ≤ (x - ea base (e + u) 0).toNat := by
  have hshift : x - ea base (e + u) 0 = (x - ea base e 0) - BitVec.ofNat 32 (32 * u) := by
    unfold ea
    bv_omega
  have hlt := (x - ea base e 0).isLt
  rw [hshift, BitVec.toNat_sub, BitVec.toNat_ofNat]
  omega

end Sys2Proof.Machine
end

section
/-! PROOF. The twiddle-free radix-4 kernel (40_r4f.md R120 to R122). -/

namespace Sys2Proof.Machine

/-! ### `R4F.F` -/

theorem exec_r4fF_of_legal {s : State} {f : BitVec 24} (hdir : s.sq.dir = .forward) (hstage : s.sq.stage = 1)
    (hr1 : s.sq.r1 = 4) (hf : f.toNat < s.sq.m.toNat / 4) :
    exec (.r4fF f) s = .next (s.storeWords (r4fForwardStores s f.toNat)).advance :=
  issue_of_legal hdir (decide_eq_true hf) (inFirstStage_iff.mpr ⟨hstage, hr1⟩)

/-- Each lane of each output of the forward tree reads back at its element. -/
theorem complexAt_r4fForwardStores (s : State) (f : Nat) {u q : Nat} (hu : u < 4) (hq : q < 4) :
    (s.storeWords (r4fForwardStores s f)).complexAt (ea s.sq.dstsel (firstBlocked 4 f u) q) =
      (bfly4Fwd (r4fSamples s f q)).nth u := by
  refine complexAt_storeV_lanes s s.sq.dstsel (4 * f) (fun v hv => ?_) (by decide)
    (fun _ _ _ _ => firstBlocked_injective) hq (mem_lanes.mpr hu)
  have := mem_lanes.mp hv
  unfold firstBlocked
  omega

/-- The stores of `R4F.F f` stay in the four elements from `4·f` up. -/
theorem untouched_r4fForwardStores {s : State} {f : Nat} {x : Word}
    (hx : ¬ inBytes (ea s.sq.dstsel (4 * f) 0) 128 x) : Untouched (r4fForwardStores s f) x :=
  untouched_storeV_lanes s.sq.dstsel x _ fun _ hu =>
    outside_element_of_outside_block (n := 4) (Nat.le_of_not_lt hx) (mem_lanes.mp hu)

/-- Settles O37: the uop is legal and its effect is its stores; the four elements are contiguous, so they read back and
hold every byte the stores reach. -/
theorem r4fForwardResult : Obligations.R4fForwardResult := by
  intro s f hdir hstage hr1 hf
  refine ⟨uopWord_toNat _ f, _, exec_r4fF_of_legal hdir hstage hr1 hf, onlyMemoryAndUpc_storeWords_advance s _,
    fun u q hu hq => ?_, sameMemoryOutside_storeWords_advance fun _ => untouched_r4fForwardStores⟩
  exact (complexAt_advance _ _).trans (complexAt_r4fForwardStores s f.toNat hu hq)

/-! ### `R4F.I` and `R4F.IS` -/

/-- The store path of an inverse kernel of stage 1: the scaling unit in a scaled call, otherwise none (R121, R122). -/
def inverseStorePath (q : Sequencer) (scaled : Bool) : F32 → F32 := if scaled then scaleUnit q else id

theorem inverseStorePath_apply (q : Sequencer) (scaled : Bool) (v : F32) :
    inverseStorePath q scaled v = if scaled then fmul v q.scale else v := by
  cases scaled <;> rfl

/-- The word of either form: the scaled one has the `S` bit set (30_encoding.md R101). -/
theorem encode_r4fInverse_toNat (f : BitVec 24) (scaled : Bool) :
    (encode (if scaled then .r4fIS f else .r4fI f)).toNat = (if scaled then 0x23000000 else 0x21000000) + f.toNat := by
  cases scaled
  case false => exact uopWord_toNat _ f
  case true => exact uopWord_toNat _ f

/-- The form whose scaling agrees with the call is legal; the two differ in the store path only. -/
theorem exec_r4fInverse_of_legal {s : State} {f : BitVec 24} {scaled : Bool} (hdir : s.sq.dir = .inverse)
    (hstage : s.sq.stage = 1) (hr1 : s.sq.r1 = 4) (hscale : s.sq.scalef = scaled) (hf : f.toNat < s.sq.m.toNat / 4) :
    exec (if scaled then .r4fIS f else .r4fI f) s =
      .next (s.storeWords (r4fInverseStores s f.toNat (inverseStorePath s.sq scaled))).advance := by
  have hpass : inFirstStage s.sq 4#4 = true := inFirstStage_iff.mpr ⟨hstage, hr1⟩
  cases scaled
  case false => exact issue_of_legal hdir (decide_eq_true hf) (by simp [hpass, hscale])
  case true => exact issue_of_legal hdir (decide_eq_true hf) (by simp [hpass, hscale])

/-- Each lane of each output of the inverse tree reads back at its element, where the stride keeps the elements apart. -/
theorem word_r4fInverseStores (s : State) (f : Nat) (g : F32 → F32) (hpos : 1 ≤ (s.sq.stFAt 1).toNat)
    (hmax : (s.sq.stFAt 1).toNat ≤ 2 ^ 20) {p q : Nat} (hp : p < 4) (hq : q < 4) :
    (s.storeWords (r4fInverseStores s f g)).word (ra s.sq.dstsel (firstStrided s.sq f p) q) =
      g ((r4fInverseTree s f q).nth p).r :=
  word_storeR_lanes s s.sq.dstsel f
    (fun _ hv => firstStrided_bounds hmax (lt_of_lt_of_le (mem_lanes.mp hv) (by decide)))
    (by decide) (fun _ _ _ _ => firstStrided_injective hpos) hq (mem_lanes.mpr hp)

/-- The stores of `R4F.I f` and `R4F.IS f` stay in the elements `f + p·F`, for every stride. -/
theorem untouched_r4fInverseStores {s : State} {f : Nat} (g : F32 → F32) {x : Word}
    (hx : ¬ ∃ p, p < 4 ∧ inBytes (ra s.sq.dstsel (firstStrided s.sq f p) 0) 16 x) :
    Untouched (r4fInverseStores s f g) x :=
  untouched_storeR_lanes s.sq.dstsel x _ fun p hp =>
    Nat.le_of_not_lt fun hlt => hx ⟨p, mem_lanes.mp hp, hlt⟩

/-- Settles O38: for both forms at once, by the store path; a stride of 1 to `2^20` keeps the four elements apart, so they
read back, and no stride lets a store reach a byte outside them. -/
theorem r4fInverseResult : Obligations.R4fInverseResult := by
  intro s f scaled hdir hstage hr1 hscale hf
  refine ⟨encode_r4fInverse_toNat f scaled, _, exec_r4fInverse_of_legal hdir hstage hr1 hscale hf,
    onlyMemoryAndUpc_storeWords_advance s _, fun hpos hmax p q hp hq => ?_,
    sameMemoryOutside_storeWords_advance fun _ => untouched_r4fInverseStores _⟩
  calc
    _ = inverseStorePath s.sq scaled ((r4fInverseTree s f.toNat q).nth p).r :=
      (word_advance _ _).trans (word_r4fInverseStores s f.toNat _ hpos hmax hp hq)
    _ = _ := inverseStorePath_apply _ _ _

end Sys2Proof.Machine
end

section
/-! PROOF. The twiddle-applying radix-4 kernel (41_r4t.md R130, R131). Both element maps of a butterfly are evenly spaced:
the blocked one by `m`, the strided one by `m·F`. -/

namespace Sys2Proof.Machine

/-! ### The stages the kernel runs in -/

theorem inOuterStage_iff {q : Sequencer} :
    inOuterStage q = true ↔ 2 ≤ q.stage.toNat ∧ q.stage.toNat ≤ q.l.toNat ∧ q.stage.toNat ≤ Config.stageDepth := by
  simp [inOuterStage, and_assoc]

/-! ### Four evenly spaced elements -/

/-- Four elements a stride of 1 to `2^20` apart are different ones and close together, so each lane reads back. -/
theorem complexAt_storeV_evenlySpaced (s : State) (base : Word) {e : Nat → Nat} {first stride : Nat}
    (v : Nat → Nat → Cplx) (he : ∀ u, e u = first + u * stride) (hpos : 1 ≤ stride) (hmax : stride ≤ 2 ^ 20)
    {u q : Nat} (hu : u < 4) (hq : q < 4) :
    (s.storeWords (lanes.flatMap fun q => lanes.flatMap fun u => storeV base (e u) q (v q u))).complexAt
      (ea base (e u) q) = v q u := by
  refine complexAt_storeV_lanes s base first (fun u hu => ?_) (by decide) (fun u _ u' _ h => ?_) hq (mem_lanes.mpr hu)
  · have hspan : u * stride ≤ 4 * 2 ^ 20 := Nat.mul_le_mul (mem_lanes.mp hu).le hmax
    rw [he]
    omega
  · rw [he, he] at h
    exact Nat.eq_of_mul_eq_mul_right hpos (Nat.add_left_cancel h)

/-- The stores at four elements stay in the bytes of those elements, wherever they lie. -/
theorem untouched_storeV_of_not_inBytes (base : Word) (e : Nat → Nat) (v : Nat → Nat → Cplx) {x : Word}
    (hx : ¬ ∃ u, u < 4 ∧ inBytes (ea base (e u) 0) 32 x) :
    Untouched (lanes.flatMap fun q => lanes.flatMap fun u => storeV base (e u) q (v q u)) x :=
  untouched_storeV_lanes base x v fun u hu => Nat.le_of_not_lt fun hlt => hx ⟨u, mem_lanes.mp hu, hlt⟩

theorem r4tBlocked_eq_add_mul (q : Sequencer) (b u : Nat) :
    r4tBlocked q b u = b / stageM q * (4 * stageM q) + b % stageM q + u * stageM q := rfl

theorem r4tStrided_eq_add_mul (q : Sequencer) (b p : Nat) :
    r4tStrided q b p = b / stageM q * stageM q + b % stageM q + p * (stageM q * stageF q) := by
  unfold r4tStrided
  ring

/-! ### `R4T.F` -/

theorem exec_r4tF_of_legal {s : State} {b : BitVec 24} (hdir : s.sq.dir = .forward)
    (hstage : inOuterStage s.sq = true) (hb : b.toNat < s.sq.m.toNat / 4) :
    exec (.r4tF b) s = .next (s.storeWords (r4tForwardStores s b.toNat)).advance :=
  issue_of_legal hdir (decide_eq_true hb) hstage

/-- Each lane of each output of the rotated inputs' tree reads back at its element. -/
theorem complexAt_r4tForwardStores (s : State) (b : Nat) (hpos : 1 ≤ stageM s.sq) (hmax : stageM s.sq ≤ 2 ^ 20)
    {u q : Nat} (hu : u < 4) (hq : q < 4) :
    (s.storeWords (r4tForwardStores s b)).complexAt (ea s.sq.dstsel (r4tBlocked s.sq b u) q) =
      (r4tForwardTree s b q).nth u :=
  complexAt_storeV_evenlySpaced s _ (fun q => (r4tForwardTree s b q).nth) (r4tBlocked_eq_add_mul s.sq b) hpos hmax hu hq

/-- Settles O39: the uop is legal and its effect is its stores; `m` of 1 to `2^20` keeps the four blocked elements apart, so
they read back, and no `m` lets a store reach a byte outside them. -/
theorem r4tForwardResult : Obligations.R4tForwardResult := by
  intro s b hdir hfrom hto hdepth hb m F tw f j
  refine ⟨uopWord_toNat _ b, _, exec_r4tF_of_legal hdir (inOuterStage_iff.mpr ⟨hfrom, hto, hdepth⟩) hb,
    onlyMemoryAndUpc_storeWords_advance s _, fun hpos hmax u q hu hq => ?_,
    sameMemoryOutside_storeWords_advance fun _ => untouched_storeV_of_not_inBytes _ (r4tBlocked s.sq b.toNat) _⟩
  exact (complexAt_advance _ _).trans (complexAt_r4tForwardStores s b.toNat hpos hmax hu hq)

/-! ### `R4T.I` -/

theorem exec_r4tI_of_legal {s : State} {b : BitVec 24} (hdir : s.sq.dir = .inverse)
    (hstage : inOuterStage s.sq = true) (hb : b.toNat < s.sq.m.toNat / 4) :
    exec (.r4tI b) s = .next (s.storeWords (r4tInverseStores s b.toNat)).advance :=
  issue_of_legal hdir (decide_eq_true hb) hstage

/-- Component 0 is kept, components 1 to 3 are rotated. -/
theorem nth_rotateQuad (t : Quad Cplx) (w : Nat → Cplx) {p : Nat} (hp : p < 4) :
    (rotateQuad t w).nth p = if p = 0 then t.x0 else cmul (t.nth p) (w p) := by
  match p, hp with
  | 0, _ => rfl
  | 1, _ => rfl
  | 2, _ => rfl
  | 3, _ => rfl

/-- Each lane of each rotated output of the inverse tree reads back at its element. -/
theorem complexAt_r4tInverseStores (s : State) (b : Nat) (hpos : 1 ≤ stageM s.sq * stageF s.sq)
    (hmax : stageM s.sq * stageF s.sq ≤ 2 ^ 20) {p q : Nat} (hp : p < 4) (hq : q < 4) :
    (s.storeWords (r4tInverseStores s b)).complexAt (ea s.sq.dstsel (r4tStrided s.sq b p) q) =
      (r4tInverseTree s b q).nth p :=
  complexAt_storeV_evenlySpaced s _ (fun q => (r4tInverseTree s b q).nth) (r4tStrided_eq_add_mul s.sq b) hpos hmax hp hq

/-- Settles O40: the uop is legal and its effect is its stores; `m·F` of 1 to `2^20` keeps the four strided elements apart, so
they read back with outputs 1 to 3 rotated (`nth_rotateQuad`), and no stride lets a store reach a byte outside them. -/
theorem r4tInverseResult : Obligations.R4tInverseResult := by
  intro s b hdir hfrom hto hdepth hb m F tw f j
  refine ⟨uopWord_toNat _ b, _, exec_r4tI_of_legal hdir (inOuterStage_iff.mpr ⟨hfrom, hto, hdepth⟩) hb,
    onlyMemoryAndUpc_storeWords_advance s _, fun hpos hmax p q hp hq => ?_,
    sameMemoryOutside_storeWords_advance fun _ => untouched_storeV_of_not_inBytes _ (r4tStrided s.sq b.toNat) _⟩
  calc
    _ = (r4tInverseTree s b.toNat q).nth p :=
      (complexAt_advance _ _).trans (complexAt_r4tInverseStores s b.toNat hpos hmax hp hq)
    _ = _ := nth_rotateQuad _ _ hp

end Sys2Proof.Machine
end

section
/-! PROOF. The radix-8 kernel (42_r8.md R140 to R142). -/

namespace Sys2Proof.Machine

/-! ### The outputs of the two butterflies -/

theorem mem_eightElements {v : Nat} : v ∈ eightElements ↔ v < 8 := by
  simp only [eightElements, List.mem_cons, List.not_mem_nil, or_false]
  omega

/-- The even outputs are those of the tree on the sums. -/
theorem bfly8Fwd_two_mul (a : Nat → Cplx) (u : Nat) :
    bfly8Fwd a (2 * u) = (bfly4Fwd (quadOf fun p => cadd (a p) (a (p + 4)))).nth u := by
  simp [bfly8Fwd]

/-- The odd outputs are those of the tree on the rotated differences. -/
theorem bfly8Fwd_two_mul_add_one (a : Nat → Cplx) (u : Nat) :
    bfly8Fwd a (2 * u + 1) = (bfly4Fwd (rot8Quad (quadOf fun p => csub (a p) (a (p + 4))))).nth u := by
  have hodd : (2 * u + 1) % 2 ≠ 0 := by omega
  have hhalf : (2 * u + 1) / 2 = u := by omega
  simp only [bfly8Fwd, if_neg hodd, hhalf]

/-- Outputs 0 to 3 of the inverse butterfly are the sums. -/
theorem bfly8Inv_of_lt (c : Nat → Cplx) {p : Nat} (hp : p < 4) :
    bfly8Inv c p = fadd ((bfly4Inv (quadOf fun u => c (2 * u))).nth p).r
      ((rot8cQuad (bfly4Inv (quadOf fun u => c (2 * u + 1)))).nth p).r :=
  if_pos hp

/-- Outputs 4 to 7 of the inverse butterfly are the differences. -/
theorem bfly8Inv_add_four (c : Nat → Cplx) (p : Nat) :
    bfly8Inv c (p + 4) = fsub ((bfly4Inv (quadOf fun u => c (2 * u))).nth p).r
      ((rot8cQuad (bfly4Inv (quadOf fun u => c (2 * u + 1)))).nth p).r := by
  have hnot : ¬ p + 4 < 4 := by omega
  simp only [bfly8Inv, if_neg hnot, Nat.add_sub_cancel]

/-! ### `R8.F` -/

theorem exec_r8F_of_legal {s : State} {f : BitVec 24} (hdir : s.sq.dir = .forward) (hstage : s.sq.stage = 1)
    (hr1 : s.sq.r1 = 8) (hf : f.toNat < s.sq.m.toNat / 8) :
    exec (.r8F f) s = .next (s.storeWords (r8ForwardStores s f.toNat)).advance :=
  issue_of_legal hdir (decide_eq_true hf) (inFirstStage_iff.mpr ⟨hstage, hr1⟩)

/-- Each lane of each output of the forward butterfly reads back at its element. -/
theorem complexAt_r8ForwardStores (s : State) (f : Nat) {v q : Nat} (hv : v < 8) (hq : q < 4) :
    (s.storeWords (r8ForwardStores s f)).complexAt (ea s.sq.dstsel (firstBlocked 8 f v) q) = r8ForwardOut s f q v := by
  refine complexAt_storeV_lanes s s.sq.dstsel (8 * f) (fun w hw => ?_) (by decide)
    (fun _ _ _ _ => firstBlocked_injective) hq (mem_eightElements.mpr hv)
  have := mem_eightElements.mp hw
  unfold firstBlocked
  omega

/-- The stores of `R8.F f` stay in the eight elements from `8·f` up. -/
theorem untouched_r8ForwardStores {s : State} {f : Nat} {x : Word}
    (hx : ¬ inBytes (ea s.sq.dstsel (8 * f) 0) 256 x) : Untouched (r8ForwardStores s f) x :=
  untouched_storeV_lanes s.sq.dstsel x _ fun _ hv =>
    outside_element_of_outside_block (n := 8) (Nat.le_of_not_lt hx) (mem_eightElements.mp hv)

/-- Settles O42: the uop is legal and its effect is its stores; the eight elements are contiguous, so they read back, the
even ones from the tree on the sums and the odd ones from the tree on the rotated differences, and they hold every byte
the stores reach. -/
theorem r8ForwardResult : Obligations.R8ForwardResult := by
  intro s f hdir hstage hr1 hf
  refine ⟨uopWord_toNat _ f, _, exec_r8F_of_legal hdir hstage hr1 hf, onlyMemoryAndUpc_storeWords_advance s _,
    fun q hq => ?_, sameMemoryOutside_storeWords_advance fun _ => untouched_r8ForwardStores⟩
  intro a d0 d1 e g u hu
  have hread : ∀ v, v < 8 → (s.storeWords (r8ForwardStores s f.toNat)).advance.complexAt
      (ea s.sq.dstsel (firstBlocked 8 f.toNat v) q) = r8ForwardOut s f.toNat q v := fun v hv =>
    (complexAt_advance _ _).trans (complexAt_r8ForwardStores s f.toNat hv hq)
  have heven : r8ForwardOut s f.toNat q (2 * u) = e.nth u := bfly8Fwd_two_mul _ u
  have hodd : r8ForwardOut s f.toNat q (2 * u + 1) = g.nth u := bfly8Fwd_two_mul_add_one _ u
  exact ⟨(hread (2 * u) (by omega)).trans heven, (hread (2 * u + 1) (by omega)).trans hodd⟩

/-! ### `R8.I` and `R8.IS` -/

/-- The word of either form: the scaled one has the `S` bit set (30_encoding.md R101). -/
theorem encode_r8Inverse_toNat (f : BitVec 24) (scaled : Bool) :
    (encode (if scaled then .r8IS f else .r8I f)).toNat = (if scaled then 0x43000000 else 0x41000000) + f.toNat := by
  cases scaled
  case false => exact uopWord_toNat _ f
  case true => exact uopWord_toNat _ f

/-- The form whose scaling agrees with the call is legal; the two differ in the store path only. -/
theorem exec_r8Inverse_of_legal {s : State} {f : BitVec 24} {scaled : Bool} (hdir : s.sq.dir = .inverse)
    (hstage : s.sq.stage = 1) (hr1 : s.sq.r1 = 8) (hscale : s.sq.scalef = scaled) (hf : f.toNat < s.sq.m.toNat / 8) :
    exec (if scaled then .r8IS f else .r8I f) s =
      .next (s.storeWords (r8InverseStores s f.toNat (inverseStorePath s.sq scaled))).advance := by
  have hpass : inFirstStage s.sq 8#4 = true := inFirstStage_iff.mpr ⟨hstage, hr1⟩
  cases scaled
  case false => exact issue_of_legal hdir (decide_eq_true hf) (by simp [hpass, hscale])
  case true => exact issue_of_legal hdir (decide_eq_true hf) (by simp [hpass, hscale])

/-- Each lane of each output of the inverse butterfly reads back at its element, where the stride keeps the elements
apart. -/
theorem word_r8InverseStores (s : State) (f : Nat) (g : F32 → F32) (hpos : 1 ≤ (s.sq.stFAt 1).toNat)
    (hmax : (s.sq.stFAt 1).toNat ≤ 2 ^ 20) {v q : Nat} (hv : v < 8) (hq : q < 4) :
    (s.storeWords (r8InverseStores s f g)).word (ra s.sq.dstsel (firstStrided s.sq f v) q) =
      g (r8InverseOut s f q v) :=
  word_storeR_lanes s s.sq.dstsel f (fun _ hw => firstStrided_bounds hmax (mem_eightElements.mp hw)) (by decide)
    (fun _ _ _ _ => firstStrided_injective hpos) hq (mem_eightElements.mpr hv)

/-- The stores of `R8.I f` and `R8.IS f` stay in the elements `f + p·F`, for every stride. -/
theorem untouched_r8InverseStores {s : State} {f : Nat} (g : F32 → F32) {x : Word}
    (hx : ¬ ∃ p, p < 8 ∧ inBytes (ra s.sq.dstsel (firstStrided s.sq f p) 0) 16 x) :
    Untouched (r8InverseStores s f g) x :=
  untouched_storeR_lanes s.sq.dstsel x _ fun p hp =>
    Nat.le_of_not_lt fun hlt => hx ⟨p, mem_eightElements.mp hp, hlt⟩

/-- Settles O43: for both forms at once, by the store path; a stride of 1 to `2^20` keeps the eight elements apart, so they
read back, the first four as sums and the last four as differences of the two trees, and no stride lets a store reach a
byte outside them. -/
theorem r8InverseResult : Obligations.R8InverseResult := by
  intro s f scaled hdir hstage hr1 hscale hf F
  refine ⟨encode_r8Inverse_toNat f scaled, _, exec_r8Inverse_of_legal hdir hstage hr1 hscale hf,
    onlyMemoryAndUpc_storeWords_advance s _, fun hpos hmax p q hp hq => ?_,
    sameMemoryOutside_storeWords_advance fun _ => untouched_r8InverseStores _⟩
  intro c d0 h d1 lo hi
  have hread : ∀ v, v < 8 →
      (s.storeWords (r8InverseStores s f.toNat (inverseStorePath s.sq scaled))).advance.word
        (ra s.sq.dstsel (firstStrided s.sq f.toNat v) q) =
      if scaled then fmul (r8InverseOut s f.toNat q v) s.sq.scale else r8InverseOut s f.toNat q v := fun v hv =>
    ((word_advance _ _).trans (word_r8InverseStores s f.toNat _ hpos hmax hv hq)).trans (inverseStorePath_apply _ _ _)
  have hlo : r8InverseOut s f.toNat q p = lo := bfly8Inv_of_lt _ hp
  have hhi : r8InverseOut s f.toNat q (p + 4) = hi := bfly8Inv_add_four _ p
  exact ⟨hlo ▸ hread p (by omega), hhi ▸ hread (p + 4) (by omega)⟩

end Sys2Proof.Machine
end

section
/-! PROOF. The end of a pass and the end of a call (43_sequencer.md R159, R160, R162, R163). -/

namespace Sys2Proof.Machine

/-! ### `SEQ.NEXT.F` and `SEQ.NEXT.I` -/

theorem exec_seqNextF_of_forward {s : State} (hdir : s.sq.dir = .forward) :
    exec .seqNextF s = .next (s.swapBuffers (s.sq.stage + 1)).advance :=
  issue_of_legal hdir rfl rfl

theorem exec_seqNextI_of_inverse {s : State} (hdir : s.sq.dir = .inverse) :
    exec .seqNextI s = .next (s.swapBuffers (s.sq.stage - 1)).advance :=
  issue_of_legal hdir rfl rfl

/-- Either form writes sequencer registers only; they differ in the stage they step to. -/
theorem onlySequencer_swapBuffers_advance (s : State) (stage : BitVec 4) :
    OnlySequencer s (s.swapBuffers stage).advance :=
  ⟨⟨rfl, rfl, rfl, rfl, rfl⟩, rfl⟩

/-- Settles O26: in its direction each form is legal, and its effect is the swap of the buffers with the stage up or
down, then the advance of `SQ.UPC`. -/
theorem seqNextSwapsTheBuffers : Obligations.SeqNextSwapsTheBuffers := by
  refine ⟨by decide, by decide, fun s => ⟨fun hdir => ?_, fun hdir => ?_⟩⟩
  · exact ⟨_, exec_seqNextF_of_forward hdir, onlySequencer_swapBuffers_advance s _, rfl⟩
  · exact ⟨_, exec_seqNextI_of_inverse hdir, onlySequencer_swapBuffers_advance s _, rfl⟩

/-! ### `SEQ.END.F` and `SEQ.END.I` -/

theorem exec_seqEndF_of_forward {s : State} (hdir : s.sq.dir = .forward) :
    exec .seqEndF s = .next s.finishCall.endUop :=
  issue_of_legal hdir rfl rfl

theorem exec_seqEndI_of_inverse {s : State} (hdir : s.sq.dir = .inverse) :
    exec .seqEndI s = .next s.finishCall.endUop :=
  issue_of_legal hdir rfl rfl

theorem onlySequencer_finishCall_endUop (s : State) : OnlySequencer s s.finishCall.endUop :=
  ⟨⟨rfl, rfl, rfl, rfl, rfl⟩, rfl⟩

/-- `DONE` alone is bit 1 of `STATUS` (10_state.md R33). -/
theorem readReg_status_of_done {s : State} (hbusy : s.sq.busy = false) (hdone : s.sq.done = true) :
    s.readReg .status = 0x00000002#32 := by
  rw [State.readReg, statusWord, hbusy, hdone]
  rfl

/-! ### The idle core -/

/-- With no action of the host pending, the idle core's step changes nothing (60_exceptions.md R223; log 22). -/
theorem step_of_idle {s : State} (hidle : s.sq.busy = false) (he : s.events = []) : step s = .next s := by
  simp [step, machineStep, coreStep, he, hidle]

/-- No address is unsettled while no call runs (70_reset_and_hazards.md R236). -/
theorem hostReadByte_of_idle {s : State} (hidle : s.sq.busy = false) (a : Word) : hostReadByte s a = s.byteAt a := by
  simp [hostReadByte, hidle]

/-- The host's read of one byte while no call runs answers the byte memory holds, and uses up the action. -/
theorem step_memRead_one_of_idle {s : State} (hidle : s.sq.busy = false) {a : Word} {rest : List HostEvent}
    (he : s.events = .memRead a 1 :: rest) :
    step s = .next { s with events := rest, hostBytes := [s.byteAt a], draws := s.draws + 1 } := by
  have hbyte : hostReadByte { s with events := rest } a = s.byteAt a := hostReadByte_of_idle hidle a
  rw [step_eq_hostStep he]
  simp [hostStep, memReadStep, hbyte]

/-- Settles O27: either form is legal in its direction and leaves the call finished; from there the core is idle
(`step_of_idle`), and the host's read answers memory, which the uop did not change. -/
theorem seqEndFinishesTheCall : Obligations.SeqEndFinishesTheCall := by
  intro s i w hend
  obtain ⟨hdecode, hexec⟩ : decodeUop w = .ok i ∧ exec i s = .next s.finishCall.endUop := by
    obtain ⟨rfl, rfl, hdir⟩ | ⟨rfl, rfl, hdir⟩ := hend
    · exact ⟨by decide, exec_seqEndF_of_forward hdir⟩
    · exact ⟨by decide, exec_seqEndI_of_inverse hdir⟩
  have hidle : s.finishCall.endUop.sq.busy = false := finishCall_sq_busy s
  have hdone : s.finishCall.endUop.sq.done = true := finishCall_sq_done s
  refine ⟨hdecode, _, hexec, onlySequencer_finishCall_endUop s, rfl, readReg_status_of_done hidle hdone,
    step_of_idle hidle, fun a rest he => ?_⟩
  exact ⟨_, step_memRead_one_of_idle hidle he, rfl, rfl, rfl⟩

end Sys2Proof.Machine
end

section
/-! PROOF. The Second uops of the finalizer: column `M/2` forward and element `M/2` inverse (44_finalizer.md R182, R185,
R188, R192). -/

namespace Sys2Proof.Machine

/-! ### Where the Second uops are legal -/

theorem inFinalizerPass_iff {q : Sequencer} : inFinalizerPass q = true ↔ q.stage.toNat = q.l.toNat + 1 :=
  decide_eq_true_iff

/-- The pass of the Second uops: the finalizer pass of a call with `M ≥ 8` (R185, R192). -/
theorem inSecondPass_iff {s : State} :
    (inFinalizerPass s.sq && decide (8 ≤ s.columns)) = true ↔ s.sq.stage.toNat = s.sq.l.toNat + 1 ∧ 8 ≤ s.sq.m.toNat := by
  rw [Bool.and_eq_true, inFinalizerPass_iff, decide_eq_true_iff, State.columns]

theorem exec_finSecF_of_legal {s : State} (hdir : s.sq.dir = .forward) (hstage : s.sq.stage.toNat = s.sq.l.toNat + 1)
    (hm : 8 ≤ s.sq.m.toNat) : exec .finSecF s = .next (s.storeWords (finFH s)).advance :=
  issue_of_legal hdir rfl (inSecondPass_iff.mpr ⟨hstage, hm⟩)

theorem exec_finSecI_of_legal {s : State} (hdir : s.sq.dir = .inverse) (hstage : s.sq.stage.toNat = s.sq.l.toNat + 1)
    (hm : 8 ≤ s.sq.m.toNat) : exec .finSecI s = .next (s.storeWords (finIH s)).advance :=
  issue_of_legal hdir rfl (inSecondPass_iff.mpr ⟨hstage, hm⟩)

/-! ### Stores that keep to given slots or elements -/

/-- Stores at slots of a set reach no byte outside the slots of the set. -/
theorem untouched_slotStores_of_not_inSlots {base x : Word} {l : List (Nat × Cplx)} {written : Nat → Prop}
    (hl : ∀ p ∈ l, written p.1) (hx : ¬ inSlots base written x) : Untouched (slotStores base l) x :=
  untouched_slotStores base x fun p hp => Nat.le_of_not_lt fun hlt => hx ⟨p.1, hl p hp, hlt⟩

/-- Four real results are the four lanes of one element. -/
theorem storeRealLanes_eq_storeV_lanes (base : Word) (e : Nat) (y : Quad F32) :
    storeRealLanes base e y = lanes.flatMap fun q => [e].flatMap fun u => storeV base u q ⟨y.nth q, 0⟩ := by
  simp only [storeRealLanes, List.flatMap_singleton]

/-- Each real result reads back in its lane, with imaginary part `+0.0`. -/
theorem complexAt_storeRealLanes (s : State) (base : Word) (e : Nat) (y : Quad F32) {q : Nat} (hq : q < 4) :
    (s.storeWords (storeRealLanes base e y)).complexAt (ea base e q) = ⟨y.nth q, 0⟩ := by
  rw [storeRealLanes_eq_storeV_lanes]
  refine complexAt_storeV_lanes s base (e := id) e (fun u hu => ?_) (List.nodup_singleton e) (fun _ _ _ _ h => h) hq
    (List.mem_singleton.mpr rfl)
  rw [List.mem_singleton.mp hu, id_eq]
  omega

/-- The four real results stay in the bytes of their element. -/
theorem untouched_storeRealLanes {base x : Word} {e : Nat} (y : Quad F32) (hx : ¬ inBytes (ea base e 0) 32 x) :
    Untouched (storeRealLanes base e y) x := by
  rw [storeRealLanes_eq_storeV_lanes]
  refine untouched_storeV_lanes base x (e := id) _ fun u hu => ?_
  rw [List.mem_singleton.mp hu]
  exact Nat.le_of_not_lt hx

/-! ### `FIN.SEC.F` -/

/-- The two outputs of the forward H column by their slots: lanes 1 and 3 weighted by the super-twiddles 1 and 3, then
the tree's outputs 0 and 1 with lane 2 rotated by `−i` (R182). -/
def finFHSlots (s : State) : List (Nat × Cplx) :=
  let b := sourceReal s (s.columns / 2)
  let t1 : Cplx := ⟨fmul (b 1) (s.superTwiddle 1).r, fmul (b 1) (s.superTwiddle 1).i⟩
  let t3 : Cplx := ⟨fmul (b 3) (s.superTwiddle 3).r, fmul (b 3) (s.superTwiddle 3).i⟩
  [(s.columns / 2, cadd ⟨b 0, fneg (b 2)⟩ (cadd t1 t3)),
   (3 * s.columns / 2, ⟨fadd (b 0) (csub t1 t3).i, fsub (b 2) (csub t1 t3).r⟩)]

theorem finFH_eq_slotStores (s : State) : finFH s = slotStores s.sq.dstsel (finFHSlots s) := rfl

theorem finFHSlots_map_fst (s : State) : (finFHSlots s).map Prod.fst = [s.sq.m.toNat / 2, 3 * s.sq.m.toNat / 2] := rfl

/-- The H column writes its two slots and no other. -/
theorem fst_of_mem_finFHSlots {s : State} {p : Nat × Cplx} (hp : p ∈ finFHSlots s) :
    p.1 = s.sq.m.toNat / 2 ∨ p.1 = 3 * s.sq.m.toNat / 2 := by
  have hfst : p.1 ∈ (finFHSlots s).map Prod.fst := List.mem_map_of_mem hp
  simpa [finFHSlots_map_fst] using hfst

/-- A state holds the H column where each of its outputs reads back at its slot. -/
theorem forwardH_of_slots {s t : State} (h : ∀ p ∈ finFHSlots s, t.complexAt (slot s.sq.dstsel p.1) = p.2) :
    ForwardH s t := by
  obtain ⟨hlow, hrest⟩ := List.forall_mem_cons.mp h
  obtain ⟨hhigh, -⟩ := List.forall_mem_cons.mp hrest
  exact ⟨hlow, hhigh⟩

/-- With `M` of 1 to `2^22` the two slots are different and do not meet modulo `2^32`, so both outputs read back. -/
theorem complexAt_finFH (s : State) (hpos : 1 ≤ s.sq.m.toNat) (hmax : s.sq.m.toNat ≤ 2 ^ 22) {p : Nat × Cplx}
    (hp : p ∈ finFHSlots s) : (s.storeWords (finFH s)).complexAt (slot s.sq.dstsel p.1) = p.2 := by
  have hne : s.sq.m.toNat / 2 ≠ 3 * s.sq.m.toNat / 2 := by omega
  have hnodup : ((finFHSlots s).map Prod.fst).Nodup := by
    simpa [finFHSlots_map_fst] using hne
  rw [finFH_eq_slotStores]
  refine complexAt_slotStores s s.sq.dstsel (s.sq.m.toNat / 2) (fun r hr => ?_) hnodup hp
  obtain hr | hr := fst_of_mem_finFHSlots hr <;> omega

/-- Settles O45: the uop is legal and its effect is the stores of the H column; `M` up to `2^22` keeps the two slots apart,
so they read back, and no `M` lets a store reach a byte outside them. -/
theorem finSecondForwardResult : Obligations.FinSecondForwardResult := by
  intro s hdir hstage hm
  refine ⟨by decide, _, exec_finSecF_of_legal hdir hstage hm, onlyMemoryAndUpc_storeWords_advance s _,
    fun hmax => forwardH_of_slots fun p hp => ?_, sameMemoryOutside_storeWords_advance fun x hx => ?_⟩
  · exact (complexAt_advance _ _).trans (complexAt_finFH s (by omega) hmax hp)
  · exact untouched_slotStores_of_not_inSlots (fun _ => fst_of_mem_finFHSlots) hx

/-! ### `FIN.SEC.I` -/

/-- A state holds element `M/2` where each result of `IH` reads back in its lane. -/
theorem inverseH_of_lanes {s t : State}
    (h : ∀ q, q < 4 → t.complexAt (ea s.sq.dstsel (s.sq.m.toNat / 2) q) = ⟨(finIHLanes s).nth q, 0⟩) : InverseH s t :=
  ⟨h 0 (by decide), h 1 (by decide), h 2 (by decide), h 3 (by decide)⟩

/-- Settles O48: the uop is legal and its effect is the stores of `IH`, four lanes of the one element `M/2`; they read back
for every `M`, and hold every byte the stores reach. -/
theorem finSecondInverseResult : Obligations.FinSecondInverseResult := by
  intro s hdir hstage hm
  refine ⟨by decide, _, exec_finSecI_of_legal hdir hstage hm, onlyMemoryAndUpc_storeWords_advance s _,
    inverseH_of_lanes fun q hq => ?_, sameMemoryOutside_storeWords_advance fun x hx => ?_⟩
  · exact (complexAt_advance _ _).trans (complexAt_storeRealLanes s _ _ _ hq)
  · exact untouched_storeRealLanes _ fun hin => hx ⟨_, rfl, hin⟩

end Sys2Proof.Machine
end

section
/-! PROOF. Pack, unpack and restore of the Nyquist bin (45_pack_scale.md R200 to R202). -/

namespace Sys2Proof.Machine

/-! ### Where the uops are legal -/

theorem beforeTheEnd_iff {q : Sequencer} : beforeTheEnd q = true ↔ q.upc.toNat + 2 = uprogLength q :=
  decide_eq_true_iff

/-- The place of `PACK.F`: the uop before `SEQ.END.F`, in the finalizer pass (R200). -/
theorem inPackPlace_iff {q : Sequencer} :
    (inFinalizerPass q && beforeTheEnd q) = true ↔
      q.stage.toNat = q.l.toNat + 1 ∧ q.upc.toNat + 2 = uprogLength q := by
  rw [Bool.and_eq_true, inFinalizerPass_iff, beforeTheEnd_iff]

theorem exec_packF_of_legal {s : State} (hdir : s.sq.dir = .forward) (hstage : s.sq.stage.toNat = s.sq.l.toNat + 1)
    (hend : s.sq.upc.toNat + 2 = uprogLength s.sq) : exec .packF s = .next (s.storeWords (packStores s)).advance :=
  issue_of_legal hdir rfl (inPackPlace_iff.mpr ⟨hstage, hend⟩)

theorem exec_unpackI_of_legal {s : State} (hdir : s.sq.dir = .inverse) (hupc : s.sq.upc = 1) :
    exec .unpackI s = .next ((s.saveWord (s.word (s.cr.src + 4))).storeWords
      [⟨s.cr.src + 4, s.word (nyquistSlot s.cr.src s.sq)⟩]).advance :=
  issue_of_legal hdir rfl (beq_iff_eq.mpr hupc)

theorem exec_restoreI_of_legal {s : State} (hdir : s.sq.dir = .inverse)
    (hend : s.sq.upc.toNat + 2 = uprogLength s.sq) :
    exec .restoreI s = .next (s.storeWords [⟨s.cr.src + 4, s.sq.save0i⟩]).advance :=
  issue_of_legal hdir rfl (beforeTheEnd_iff.mpr hend)

/-! ### One stored word -/

theorem word_storeWords_singleton (s : State) (a v : Word) : (s.storeWords [⟨a, v⟩]).word a = v :=
  readWord_writeWord_same s.mem a v

/-- One stored word reaches no byte outside its four. -/
theorem untouched_singleton_of_not_inBytes {a x : Word} (v : Word) (hx : ¬ inBytes a 4 x) : Untouched [⟨a, v⟩] x :=
  List.forall_mem_singleton.mpr (Nat.le_of_not_lt hx)

/-! ### `PACK.F` -/

/-- The stores of `PACK.F` by word number: the two words of slot `h` and word 1, the imaginary word of slot 0. -/
theorem packStores_eq_storesAt (s : State) :
    packStores s = storesAt s.cr.dst
      [(2 * (s.sq.n >>> 1).toNat, s.word (s.cr.dst + 4)), (1, 0), (2 * (s.sq.n >>> 1).toNat + 1, 0)] := by
  rw [packStores, nyquistSlot, slot_add_four, slot_eq]
  rfl

/-- With `h` of 1 to `2^23` the three words are different and do not meet modulo `2^32`. -/
theorem packStores_pairwise (s : State) (hpos : 1 ≤ (s.sq.n >>> 1).toNat) (hmax : (s.sq.n >>> 1).toNat ≤ 2 ^ 23) :
    (packStores s).Pairwise fun s t => Apart s.addr t.addr := by
  rw [packStores_eq_storesAt]
  generalize (s.sq.n >>> 1).toNat = h at hpos hmax
  refine storesAt_pairwise s.cr.dst 0 (fun p hp => ⟨Nat.zero_le _, ?_⟩) ?_
  · simp only [List.mem_cons, List.not_mem_nil, or_false] at hp
    obtain rfl | rfl | rfl := hp <;> dsimp only <;> omega
  · have hreal : 2 * h ≠ 1 := by omega
    have himag : h ≠ 0 := by omega
    simp [hreal, himag]

/-- Each word `PACK.F` stores reads back. -/
theorem word_packStores (s : State) (hpos : 1 ≤ (s.sq.n >>> 1).toNat) (hmax : (s.sq.n >>> 1).toNat ≤ 2 ^ 23) :
    ∀ st ∈ packStores s, (s.storeWords (packStores s)).word st.addr = st.value := fun _ =>
  word_storeWords_of_mem s (packStores_pairwise s hpos hmax)

/-- The stores of `PACK.F` stay in the imaginary word of slot 0 and in slot `h`, for every `h`. -/
theorem untouched_packStores {s : State} {x : Word}
    (hx : ¬ (inBytes (s.cr.dst + 4) 4 x ∨ inBytes (slot s.cr.dst (s.sq.n >>> 1).toNat) 8 x)) :
    Untouched (packStores s) x := by
  obtain ⟨hzero, hnyquist⟩ := not_or.mp hx
  have hslot : Untouched (slotStores s.cr.dst [((s.sq.n >>> 1).toNat, ⟨s.word (s.cr.dst + 4), 0⟩)]) x :=
    untouched_slotStores s.cr.dst x (List.forall_mem_singleton.mpr (Nat.le_of_not_lt hnyquist))
  obtain ⟨hreal, himag⟩ := List.forall_mem_cons.mp hslot
  exact List.forall_mem_cons.mpr
    ⟨hreal, List.forall_mem_cons.mpr ⟨Nat.le_of_not_lt hzero, himag⟩⟩

/-- Settles O51: the uop is legal and its effect is its three stores; `h` of 1 to `2^23` keeps them apart, so they read back,
and no `h` lets a store reach another byte. -/
theorem packForwardResult : Obligations.PackForwardResult := by
  intro s hdir hstage hend h o
  refine ⟨by decide, _, exec_packF_of_legal hdir hstage hend, onlyMemoryAndUpc_storeWords_advance s _,
    fun hpos hmax => ?_, sameMemoryOutside_storeWords_advance fun _ => untouched_packStores⟩
  obtain ⟨hreal, hrest⟩ := List.forall_mem_cons.mp (word_packStores s hpos hmax)
  obtain ⟨hzero, hrest⟩ := List.forall_mem_cons.mp hrest
  obtain ⟨himag, -⟩ := List.forall_mem_cons.mp hrest
  exact ⟨hreal, hzero, himag⟩

/-! ### `UNPACK.I` -/

/-- Saving a word, storing words and advancing changes `SAVE0I`, memory and `SQ.UPC` and no register outside the
sequencer. -/
theorem sameOutside_saveWord_storeWords_advance (s : State) (v : Word) (l : List Store) :
    SameOutside s ((s.saveWord v).storeWords l).advance :=
  ⟨rfl, rfl, rfl, rfl, rfl⟩

/-- Settles O52: the uop is legal; it saves a word in `SAVE0I`, which no memory byte depends on, and its one store reads
back and reaches no other byte. -/
theorem unpackInverseResult : Obligations.UnpackInverseResult := by
  intro s hdir hupc i
  have hframe : SameMemoryOutside (inBytes (i + 4) 4) (s.saveWord (s.word (i + 4)))
      ((s.saveWord (s.word (i + 4))).storeWords [⟨i + 4, s.word (nyquistSlot i s.sq)⟩]).advance :=
    sameMemoryOutside_storeWords_advance fun _ => untouched_singleton_of_not_inBytes _
  exact ⟨by decide, _, exec_unpackI_of_legal hdir hupc, sameOutside_saveWord_storeWords_advance s _ _, rfl,
    (word_advance _ _).trans (word_storeWords_singleton _ _ _), hframe⟩

/-! ### `RESTORE.I` -/

/-- Settles O53: the uop is legal and its effect is one store of the saved word, which reads back and reaches no other
byte. -/
theorem restoreInverseResult : Obligations.RestoreInverseResult := by
  intro s hdir hend
  exact ⟨by decide, _, exec_restoreI_of_legal hdir hend, onlyMemoryAndUpc_storeWords_advance s _,
    (word_advance _ _).trans (word_storeWords_singleton _ _ _),
    sameMemoryOutside_storeWords_advance fun _ => untouched_singleton_of_not_inBytes _⟩

end Sys2Proof.Machine
end

section
/-! PROOF. The idle core: what each action of the host can change while `BUSY = 0`, and that only a write to `CMD` starts
the core (60_exceptions.md R223). -/

namespace Sys2Proof.Machine

/-! ### Everything an action of the host can do to an idle core -/

theorem coreStep_of_idle {s : State} (hidle : s.sq.busy = false) : coreStep s = .next s := by
  simp [coreStep, hidle]

/-- `CMD` stands at offset 0 and nowhere else (R31). -/
theorem regAt_eq_cmd_iff {o : BitVec 6} : regAt o = some .cmd ↔ o = 0x00#6 := by
  refine ⟨fun h => ?_, fun h => h ▸ rfl⟩
  unfold regAt at h
  split at h
  case h_1 hzero => exact BitVec.eq_of_toNat_eq hzero
  all_goals cases h

/-- A register write other than the whole-word write to `CMD`, where an idle core performs it, changes no state or
writes one register (R43, R44). -/
theorem eq_or_writeReg_of_regWriteStep_eq_next {o : BitVec 6} {w : AccessWidth} {v : Word} {s t : State}
    (hidle : s.sq.busy = false) (hcmd : ¬ (o = 0x00#6 ∧ w = .word)) (h : regWriteStep o w v s = .next t) :
    t = s ∨ ∃ r, t = s.writeReg r v := by
  cases hform : wholeWordAccess o w with
  | false =>
    rw [regWriteStep_of_not_wholeWord hform] at h
    cases h
  | true =>
    cases hreg : regAt o with
    | none =>
      rw [regWriteStep_of_reserved hform hreg] at h
      cases h
      exact .inl rfl
    | some r =>
      have hr : r ≠ .cmd := by
        rintro rfl
        exact hcmd ⟨regAt_eq_cmd_iff.mp hreg, (wholeWordAccess_iff.mp hform).1⟩
      have hwrite : regWriteStep o w v s = .next (s.writeReg r v) := by
        simp [regWriteStep, hform, hreg, hidle, hr]
      rw [hwrite] at h
      cases h
      exact .inr ⟨r, rfl⟩

/-- A register read the block performs changes what the host was answered and nothing else (R43). -/
theorem answerWord_of_regReadStep_eq_next {o : BitVec 6} {w : AccessWidth} {s t : State}
    (h : regReadStep o w s = .next t) : ∃ v, t = s.answerWord v := by
  cases hform : wholeWordAccess o w with
  | false =>
    rw [regReadStep_of_not_wholeWord hform] at h
    cases h
  | true =>
    rw [regReadStep_of_wholeWord hform] at h
    cases h
    exact ⟨_, rfl⟩

/-- No region is closed to the host's writes while no call runs (70_reset_and_hazards.md R236). -/
theorem memWriteStep_of_idle {s : State} (hidle : s.sq.busy = false) (a : Word) (bs : List Byte) :
    memWriteStep a bs s = .next (s.hostWrite a bs) := by
  simp [memWriteStep, hidle]

/-! ### What an action of the host leaves alone -/

/-- What `e`, no write to `CMD`, may change of an idle core in a step from `s` to `t`: memory only where it is a memory
write, the control registers only where it is a register write or a reset, any other register only where it is a
reset. -/
structure IdleFrame (e : HostEvent) (s t : State) : Prop where
  idle : t.sq.busy = false
  mem : (∀ a bs, e ≠ .memWrite a bs) → t.mem = s.mem
  sequencer : e ≠ .reset → t.sq = s.sq ∧ t.vr = s.vr
  control : e ≠ .reset → (∀ o w v, e ≠ .regWrite o w v) → t.cr = s.cr

/-- The split is over the actions of the host: the core's turn changes nothing, an access to the block or to memory is one
update of the state, and reset clears `BUSY`. -/
theorem idleFrame_of_hostStep {e : HostEvent} {s t : State} (hidle : s.sq.busy = false)
    (hcmd : ∀ v, e ≠ .regWrite 0x00#6 .word v) (h : hostStep e s = .next t) : IdleFrame e s t := by
  cases e with
  | coreTurn =>
    cases (coreStep_of_idle hidle).symm.trans h
    exact ⟨hidle, fun _ => rfl, fun _ => ⟨rfl, rfl⟩, fun _ _ => rfl⟩
  | regWrite o w v =>
    have hother : ¬ (o = 0x00#6 ∧ w = .word) := by
      rintro ⟨rfl, rfl⟩
      exact hcmd v rfl
    obtain rfl | ⟨r, rfl⟩ := eq_or_writeReg_of_regWriteStep_eq_next hidle hother h
    all_goals exact ⟨hidle, fun _ => rfl, fun _ => ⟨rfl, rfl⟩, fun _ hno => absurd rfl (hno o w v)⟩
  | regRead o w =>
    obtain ⟨v, rfl⟩ := answerWord_of_regReadStep_eq_next h
    exact ⟨hidle, fun _ => rfl, fun _ => ⟨rfl, rfl⟩, fun _ _ => rfl⟩
  | memWrite a bs =>
    cases (memWriteStep_of_idle hidle a bs).symm.trans h
    exact ⟨hidle, fun hno => absurd rfl (hno a bs), fun _ => ⟨rfl, rfl⟩, fun _ _ => rfl⟩
  | memRead a n =>
    cases h
    exact ⟨hidle, fun _ => rfl, fun _ => ⟨rfl, rfl⟩, fun _ _ => rfl⟩
  | reset =>
    cases h
    exact ⟨rfl, fun _ => rfl, fun hno => absurd rfl hno, fun hno => absurd rfl hno⟩

/-- Settles O8: with nothing pending and at the core's turn the idle core's step changes nothing; any other pending action
but a write to `CMD` keeps to `IdleFrame`, and taking it off the host's queue touches no register and no memory. -/
theorem idleCoreChangesNothing : Obligations.IdleCoreChangesNothing := by
  intro s hidle
  refine ⟨step_of_idle hidle, fun rest he => ?_, fun e rest t he hstep hcmd => ?_⟩
  · exact (step_eq_hostStep he).trans (coreStep_of_idle (s := { s with events := rest }) hidle)
  · have hhost : hostStep e { s with events := rest } = .next t := (step_eq_hostStep he).symm.trans hstep
    obtain ⟨hbusy, hmem, hsequencer, hcontrol⟩ :=
      idleFrame_of_hostStep (s := { s with events := rest }) hidle hcmd hhost
    exact ⟨hbusy, hmem, hsequencer, hcontrol⟩

end Sys2Proof.Machine
end

section
/-! PROOF. The reset event (70_reset_and_hazards.md R230): the registers of the state after reset, whatever ran before, in
the memory that was there. -/

namespace Sys2Proof.Machine

/-- A register read sees the control registers and the sequencer bits, nothing else of the state. -/
theorem readReg_congr {s t : State} (hcr : t.cr = s.cr) (hsq : t.sq = s.sq) (r : CtrlReg) :
    t.readReg r = s.readReg r := by
  cases r <;> simp [State.readReg, hcr, hsq]

/-- A reset event leaves the host reading zero from every register, as after the machine's own reset (R58). -/
@[simp] theorem readReg_resetEvent (s : State) (r : CtrlReg) : s.resetEvent.readReg r = 0 :=
  (readReg_congr (resetEvent_cr s) (resetEvent_sq s) r).trans (readReg_reset r)

/-- Settles O10: the step is the reset event, running call or not; the sequencer bits are those of `Sequencer.reset`, the
registers read zero by `readReg_resetEvent`, and the event keeps memory (`resetEvent_mem`). -/
theorem resetEventClearsRegistersAndKeepsMemory : Obligations.ResetEventClearsRegistersAndKeepsMemory := by
  intro s rest he
  exact ⟨_, step_eq_hostStep he, rfl, rfl, rfl, rfl, fun r _ => readReg_resetEvent _ r, resetEvent_mem _⟩

end Sys2Proof.Machine
end

section
/-! PROOF. The decoder and the encoder are inverse to each other on the words of the opcode table (30_encoding.md R101 to
R107). -/

namespace Sys2Proof.Machine

/-- One of the 23 micro-operations: no host command. -/
def IsUop (i : Instr) : Prop := i ≠ .fwd ∧ i ≠ .inv

/-! ### The word of a uop -/

/-- A word whose unit is one of 1 to 6 decodes by the table of R104 (R103). -/
theorem decodeUop_uopWord {o : BitVec 8} {x : BitVec 24} (hpos : o.extractLsb' 4 4 ≠ 0)
    (hmax : (o.extractLsb' 4 4).toNat < 7) : decodeUop (uopWord o x) = decodeFields o x := by
  have hunit : unitField (uopWord o x) = o.extractLsb' 4 4 := by rw [unitField_eq_opcode, opcodeField_uopWord]
  rw [decodeUop, hunit, opcodeField_uopWord, indexField_uopWord, if_neg (not_or.mpr ⟨hpos, Nat.not_le.mpr hmax⟩)]

theorem withoutIndex_eq_ok_iff {i j : Instr} {x : BitVec 24} : withoutIndex i x = .ok j ↔ x = 0 ∧ i = j := by
  unfold withoutIndex
  split
  case isTrue hx => simp [hx]
  case isFalse hx => exact ⟨nofun, fun h => absurd h.1 hx⟩

/-- The decoder reads the word of each uop as that uop. -/
theorem decodeUop_encode {i : Instr} (hi : IsUop i) : decodeUop (encode i) = .ok i := by
  cases i
  case fwd => exact absurd rfl hi.1
  case inv => exact absurd rfl hi.2
  all_goals exact decodeUop_uopWord (by decide) (by decide)

/-- The fields the table accepts are those of the uop's own word. -/
theorem encode_of_decodeFields {o : BitVec 8} {x : BitVec 24} {i : Instr} (h : decodeFields o x = .ok i) :
    encode i = uopWord o x ∧ IsUop i := by
  unfold decodeFields at h
  split at h
  case h_24 => cases h
  case h_7 | h_8 | h_9 | h_10 | h_11 | h_12 | h_13 | h_14 | h_19 | h_20 =>
    cases h
    exact ⟨rfl, nofun, nofun⟩
  all_goals
    obtain ⟨rfl, rfl⟩ := withoutIndex_eq_ok_iff.mp h
    exact ⟨rfl, nofun, nofun⟩

/-- A word of format U is read as a uop, never as a command, and it is that uop's word. -/
theorem decodeUop_eq_ok_iff {w : Word} {i : Instr} : decodeUop w = .ok i ↔ encode i = w ∧ IsUop i := by
  refine ⟨fun h => ?_, fun ⟨hw, hi⟩ => hw ▸ decodeUop_encode hi⟩
  unfold decodeUop at h
  split at h
  case isTrue => cases h
  case isFalse =>
    obtain ⟨hw, hi⟩ := encode_of_decodeFields h
    exact ⟨hw.trans (uopWord_fields w), hi⟩

/-! ### Both formats -/

/-- The two formats do not overlap, so a uop's word is read as the uop. -/
theorem decodeWord_of_decodeUop {w : Word} {i : Instr} (h : decodeUop w = .ok i) : decodeWord w = .ok i := by
  have h1 : w ≠ 0x00000001#32 := by
    rintro rfl
    cases h
  have h2 : w ≠ 0x00000002#32 := by
    rintro rfl
    cases h
  rw [decodeWord, decodeCommand_of_ne h1 h2, h]

theorem decodeWord_encode (i : Instr) : decodeWord (encode i) = .ok i := by
  by_cases hi : IsUop i
  · exact decodeWord_of_decodeUop (decodeUop_encode hi)
  · obtain rfl | rfl : i = .fwd ∨ i = .inv := by
      by_contra hne
      exact hi (not_or.mp hne)
    all_goals rfl

/-- Settles O1: by `decodeWord_encode` on the word, and on its bytes because the word is the one its bytes make up. -/
theorem decodeOfEncodeIsTheInstruction : Obligations.DecodeOfEncodeIsTheInstruction := by
  intro i rest
  refine ⟨decodeWord_encode i, ?_⟩
  rw [decode, wordOfBytes_byteOfWord, decodeWord_encode]

theorem encode_of_decodeCommand {w : Word} {i : Instr} (h : decodeCommand w = .ok i) : encode i = w := by
  unfold decodeCommand at h
  split_ifs at h with h1 h2
  · cases h
    exact h1.symm
  · cases h
    exact h2.symm

/-- Settles O2: a word read as a command is one of the two values of R102, a word read as a uop is the uop's word
(`decodeUop_eq_ok_iff`). -/
theorem decodedWordIsTheEncoding : Obligations.DecodedWordIsTheEncoding := by
  intro w i h
  unfold decodeWord at h
  split at h
  case h_1 j hcommand =>
    cases h
    exact encode_of_decodeCommand hcommand
  case h_2 => exact (decodeUop_eq_ok_iff.mp h).1

/-! ### The rows of the opcode table -/

open Sys2Proof.Laws.EncodeMatchesTable

/-- One uop for each row of the table, with index 0 where it takes one. -/
def tableUops : List Instr :=
  [.seqBeginF, .seqBeginI, .seqNextF, .seqNextI, .seqEndF, .seqEndI, .r4fF 0, .r4fI 0, .r4fIS 0, .r4tF 0, .r4tI 0,
    .r8F 0, .r8I 0, .r8IS 0, .finEdgeF, .finEdgeI, .finSecF, .finSecI, .finIntF 0, .finIntI 0, .packF, .unpackI,
    .restoreI]

/-- The word of every instruction meets its row (R104, R110). -/
theorem encode_and_rowMask (i : Instr) : encode i &&& rowMask i = rowMatch i := by
  cases i
  case r4fF n | r4fI n | r4fIS n | r4tF n | r4tI n | r8F n | r8I n | r8IS n | finIntF n | finIntI n =>
    exact uopWord_and_opcodeMask _ n
  all_goals decide

/-- The row of a uop is a row of the table. -/
theorem row_mem_tableUops {i : Instr} (hi : IsUop i) :
    (rowMatch i, rowMask i) ∈ tableUops.map fun j => (rowMatch j, rowMask j) := by
  cases i
  case fwd => exact absurd rfl hi.1
  case inv => exact absurd rfl hi.2
  all_goals simp [tableUops, rowMatch, rowMask]

/-- The mask of a row with a free index field keeps the opcode byte. -/
theorem opcodeField_and_opcodeMask (w : Word) : opcodeField (w &&& 0xFF000000#32) = opcodeField w := by
  have h := uopWord_and_opcodeMask (opcodeField w) (indexField w)
  rw [uopWord_fields] at h
  rw [h, opcodeField_uopWord]

/-- A word that meets a row with a free index field decodes by the row's opcode and its own index. -/
theorem decodeUop_of_opcodeMask {w v : Word} (h : w &&& 0xFF000000#32 = v)
    (hpos : (opcodeField v).extractLsb' 4 4 ≠ 0) (hmax : ((opcodeField v).extractLsb' 4 4).toNat < 7) :
    decodeUop w = decodeFields (opcodeField v) (indexField w) := by
  have ho : opcodeField v = opcodeField w := h ▸ opcodeField_and_opcodeMask w
  rw [← decodeUop_uopWord hpos hmax, ho, uopWord_fields]

/-- A word that meets the row of a uop is the word of a uop. -/
theorem exists_decodeUop_of_row {w : Word} {j : Instr} (hj : IsUop j) (h : w &&& rowMask j = rowMatch j) :
    ∃ i, decodeUop w = .ok i := by
  cases j
  case fwd => exact absurd rfl hj.1
  case inv => exact absurd rfl hj.2
  case r4fF n | r4fI n | r4fIS n | r4tF n | r4tI n | r8F n | r8I n | r8IS n | finIntF n | finIntI n =>
    dsimp only [rowMask, rowMatch] at h
    exact ⟨_, (decodeUop_of_opcodeMask h (by decide) (by decide)).trans rfl⟩
  all_goals
    obtain rfl := BitVec.and_allOnes.symm.trans h
    exact ⟨_, rfl⟩

theorem isUop_of_mem_tableUops {j : Instr} (hj : j ∈ tableUops) : IsUop j := by
  have hall : ∀ j ∈ tableUops, j ≠ .fwd ∧ j ≠ .inv := by decide
  exact hall j hj

/-- Settles O3: a uop's word meets its row (`encode_and_rowMask`), and a word that meets a row decodes by the row's opcode. -/
theorem uopWordsAreThoseOfTheOpcodeTable : Obligations.UopWordsAreThoseOfTheOpcodeTable := by
  intro w
  constructor
  · rintro ⟨i, hdecode⟩
    obtain ⟨rfl, hi⟩ := decodeUop_eq_ok_iff.mp hdecode
    exact ⟨_, row_mem_tableUops hi, encode_and_rowMask i⟩
  · rintro ⟨row, hrow, hw⟩
    obtain ⟨j, hj, rfl⟩ := List.mem_map.mp (show row ∈ tableUops.map fun j => (rowMatch j, rowMask j) from hrow)
    exact exists_decodeUop_of_row (isUop_of_mem_tableUops hj) hw

/-- Settles O4: each word is decoded by evaluation. -/
theorem sampleWordsDecodeAsTheSpecSays : Obligations.SampleWordsDecodeAsTheSpecSays := by
  unfold Obligations.SampleWordsDecodeAsTheSpecSays
  decide

end Sys2Proof.Machine
end

section
/-! PROOF. What an instruction can do, once for all 25: where a uop is legal, which registers it sets and which words it
stores (30_encoding.md R105, R106; 00_scope.md R16). -/

namespace Sys2Proof.Machine

/-! ### A uop as legality and effect -/

/-- The `IDX` of a uop is in the range of the running call (R105). -/
def uopInRange (i : Instr) (s : State) : Bool :=
  match i with
  | .r4fF n | .r4fI n | .r4fIS n | .r4tF n | .r4tI n => inRadix4Range s.sq n
  | .r8F n | .r8I n | .r8IS n => inRadix8Range s.sq n
  | .finIntF n | .finIntI n => inInteriorRange s.sq n
  | _ => true

/-- The call is in the pass the rule of the uop names. -/
def uopInPass (i : Instr) (s : State) : Bool :=
  match i with
  | .r4fF _ => inFirstStage s.sq 4
  | .r4fI _ => inFirstStage s.sq 4 && !s.sq.scalef
  | .r4fIS _ => inFirstStage s.sq 4 && s.sq.scalef
  | .r4tF _ | .r4tI _ => inOuterStage s.sq
  | .r8F _ => inFirstStage s.sq 8
  | .r8I _ => inFirstStage s.sq 8 && !s.sq.scalef
  | .r8IS _ => inFirstStage s.sq 8 && s.sq.scalef
  | .finEdgeF | .finEdgeI => inFinalizerPass s.sq
  | .finSecF | .finSecI => inFinalizerPass s.sq && decide (8 ≤ s.columns)
  | .finIntF _ | .finIntI _ => inFinalizerPass s.sq && decide (16 ≤ s.columns)
  | .packF => inFinalizerPass s.sq && beforeTheEnd s.sq
  | .unpackI => s.sq.upc == 1#32
  | .restoreI => beforeTheEnd s.sq
  | _ => true

/-- What a uop does to the sequencer registers other than `SQ.UPC`. -/
def uopRegisters (i : Instr) (s : State) : State :=
  match i with
  | .seqBeginF => s.latchPlan false 1
  | .seqBeginI => s.latchPlan (scaleInverse s.cr.flags) ((passCount s).setWidth 4 + 1)
  | .seqNextF => s.swapBuffers (s.sq.stage + 1)
  | .seqNextI => s.swapBuffers (s.sq.stage - 1)
  | .seqEndF | .seqEndI => s.finishCall
  | .unpackI => s.saveWord (s.word (s.cr.src + 4))
  | _ => s

/-- The words a uop stores. -/
def uopStores (i : Instr) (s : State) : List Store :=
  match i with
  | .r4fF n => r4fForwardStores s n.toNat
  | .r4fI n => r4fInverseStores s n.toNat id
  | .r4fIS n => r4fInverseStores s n.toNat (scaleUnit s.sq)
  | .r4tF n => r4tForwardStores s n.toNat
  | .r4tI n => r4tInverseStores s n.toNat
  | .r8F n => r8ForwardStores s n.toNat
  | .r8I n => r8InverseStores s n.toNat id
  | .r8IS n => r8InverseStores s n.toNat (scaleUnit s.sq)
  | .finEdgeF => finEdgeForwardStores s
  | .finEdgeI => finEdgeInverseStores s
  | .finSecF => finFH s
  | .finSecI => finIH s
  | .finIntF n => finInteriorForwardStores s n.toNat
  | .finIntI n => finInteriorInverseStores s n.toNat
  | .packF => packStores s
  | .unpackI => [⟨s.cr.src + 4, s.word (nyquistSlot s.cr.src s.sq)⟩]
  | .restoreI => [⟨s.cr.src + 4, s.sq.save0i⟩]
  | _ => []

/-- `SEQ.END.F` or `SEQ.END.I`, the uops that do not advance `SQ.UPC` (10_state.md R46). -/
def IsEnd (i : Instr) : Prop := i = .seqEndF ∨ i = .seqEndI

/-- The state a uop leaves before the micro-program counter moves. -/
def uopBody (i : Instr) (s : State) : State := (uopRegisters i s).storeWords (uopStores i s)

/-- The state a legal uop leaves. -/
def uopEffect (i : Instr) (s : State) : State :=
  match i with
  | .seqEndF | .seqEndI => (uopBody i s).endUop
  | _ => (uopBody i s).advance

theorem uopEffect_of_isEnd {i : Instr} (hi : IsEnd i) (s : State) : uopEffect i s = s.finishCall.endUop := by
  obtain rfl | rfl := hi
  all_goals rfl

theorem uopEffect_of_not_isEnd {i : Instr} (hi : ¬ IsEnd i) (s : State) : uopEffect i s = (uopBody i s).advance := by
  cases i
  case seqEndF => exact absurd (.inl rfl) hi
  case seqEndI => exact absurd (.inr rfl) hi
  all_goals rfl

/-- The `D` bit of a uop's word is bit 0 of its opcode (R101). -/
theorem uopDirection_eq {i : Instr} {o : BitVec 8} {x : BitVec 24} (h : encode i = uopWord o x) :
    uopDirection i = if o.getLsbD 0 then .inverse else .forward := by
  rw [uopDirection, h, getLsbD_uopWord, if_neg (by decide : ¬ 24 < 24)]

/-- Every uop is issued by its direction bit, its index and its pass, in this order (log 10). -/
theorem exec_eq_issue {i : Instr} (hi : IsUop i) (s : State) :
    exec i s = issue (uopDirection i) (uopInRange i s) (uopInPass i s) s (uopEffect i s) := by
  cases i
  case fwd => exact absurd rfl hi.1
  case inv => exact absurd rfl hi.2
  all_goals
    rw [uopDirection_eq rfl]
    rfl

/-- A uop answers a next state exactly where it is legal, and then its effect. -/
theorem exec_eq_next_iff {i : Instr} (hi : IsUop i) {s t : State} :
    exec i s = .next t ↔
      s.sq.dir = uopDirection i ∧ uopInRange i s = true ∧ uopInPass i s = true ∧ uopEffect i s = t := by
  rw [exec_eq_issue hi, issue_eq_next_iff]

/-! ### What the effect of a uop leaves in each field -/

theorem uopRegisters_mem (i : Instr) (s : State) : (uopRegisters i s).mem = s.mem := by
  cases i <;> rfl

/-- The registers a uop sets are sequencer registers. -/
theorem sameOutside_uopRegisters (i : Instr) (s : State) : SameOutside s (uopRegisters i s) := by
  cases i <;> exact ⟨rfl, rfl, rfl, rfl, rfl⟩

/-- The effect of a uop on memory is its stores. -/
theorem uopEffect_mem (i : Instr) (s : State) : (uopEffect i s).mem = Memory.storeWords s.mem (uopStores i s) := by
  have hbody : (uopBody i s).mem = Memory.storeWords s.mem (uopStores i s) := by
    rw [uopBody, storeWords_mem, uopRegisters_mem]
  unfold uopEffect
  split
  all_goals exact hbody

/-- No uop touches the host's side or a control register (20_memory.md R91). -/
theorem sameOutside_uopEffect (i : Instr) (s : State) : SameOutside s (uopEffect i s) := by
  obtain ⟨hcr, hwritten, hevents, hword, hbytes⟩ := sameOutside_uopRegisters i s
  unfold uopEffect
  split
  all_goals exact ⟨hcr, hwritten, hevents, hword, hbytes⟩

theorem uopRegisters_upc (i : Instr) (s : State) : (uopRegisters i s).sq.upc = s.sq.upc := by
  cases i <;> rfl

theorem uopRegisters_busy {i : Instr} (hi : ¬ IsEnd i) (s : State) : (uopRegisters i s).sq.busy = s.sq.busy := by
  cases i
  case seqEndF => exact absurd (.inl rfl) hi
  case seqEndI => exact absurd (.inr rfl) hi
  all_goals rfl

theorem uopRegisters_done {i : Instr} (hi : ¬ IsEnd i) (s : State) : (uopRegisters i s).sq.done = s.sq.done := by
  cases i
  case seqEndF => exact absurd (.inl rfl) hi
  case seqEndI => exact absurd (.inr rfl) hi
  all_goals rfl

theorem uopEffect_upc_of_not_isEnd {i : Instr} (hi : ¬ IsEnd i) (s : State) :
    (uopEffect i s).sq.upc = s.sq.upc + 1 := by
  rw [uopEffect_of_not_isEnd hi, advance_sq_upc, uopBody, storeWords_sq, uopRegisters_upc]

theorem uopEffect_busy_of_not_isEnd {i : Instr} (hi : ¬ IsEnd i) (s : State) :
    (uopEffect i s).sq.busy = s.sq.busy := by
  rw [uopEffect_of_not_isEnd hi, advance_sq_busy, uopBody, storeWords_sq, uopRegisters_busy hi]

theorem uopEffect_done_of_not_isEnd {i : Instr} (hi : ¬ IsEnd i) (s : State) :
    (uopEffect i s).sq.done = s.sq.done := by
  rw [uopEffect_of_not_isEnd hi, advance_sq_done, uopBody, storeWords_sq, uopRegisters_done hi]

/-! ### The commands -/

/-- The command of a direction. -/
def commandOf : Direction → Instr
  | .forward => .fwd
  | .inverse => .inv

theorem exec_commandOf (dir : Direction) (s : State) : exec (commandOf dir) s = launch dir s := by
  cases dir <;> rfl

/-- Every instruction is a command or a uop. -/
theorem eq_commandOf_or_isUop (i : Instr) : (∃ dir, i = commandOf dir) ∨ IsUop i := by
  by_cases hf : i = .fwd
  · exact .inl ⟨.forward, hf⟩
  · by_cases hi : i = .inv
    · exact .inl ⟨.inverse, hi⟩
    · exact .inr ⟨hf, hi⟩

theorem commandOf_eq_or (dir : Direction) : commandOf dir = .fwd ∨ commandOf dir = .inv := by
  cases dir
  case forward => exact .inl rfl
  case inverse => exact .inr rfl

/-- A command answers a next state exactly where its contract holds, and then the start of the call. -/
theorem launch_eq_next_iff {dir : Direction} {s t : State} :
    launch dir s = .next t ↔ contractFailure dir s = none ∧ s.startCall dir = t := by
  unfold launch
  split
  case h_1 r hr => simp [hr]
  case h_2 hr => simp [hr]

/-- Everything an instruction can answer as a next state. -/
theorem exec_eq_next_cases {i : Instr} {s t : State} (h : exec i s = .next t) :
    (∃ dir, i = commandOf dir ∧ contractFailure dir s = none ∧ t = s.startCall dir) ∨
      (IsUop i ∧ t = uopEffect i s) := by
  obtain ⟨dir, rfl⟩ | hi := eq_commandOf_or_isUop i
  · obtain ⟨hcontract, rfl⟩ := launch_eq_next_iff.mp ((exec_commandOf dir s).symm.trans h)
    exact .inl ⟨dir, rfl, hcontract, rfl⟩
  · obtain ⟨-, -, -, rfl⟩ := (exec_eq_next_iff hi).mp h
    exact .inr ⟨hi, rfl⟩

/-! ### The micro-program counter and `BUSY` -/

/-- Settles O30: a command starts the call with the counter at 0; of the uops only `SEQ.END.*` leave it. -/
theorem upcAdvancesByOneExceptAtTheEnd : Obligations.UpcAdvancesByOneExceptAtTheEnd := by
  intro i s t h
  obtain ⟨dir, rfl, -, rfl⟩ | ⟨hi, rfl⟩ := exec_eq_next_cases h
  · rw [if_pos (commandOf_eq_or dir), startCall_sq_upc]
  · rw [if_neg (not_or.mpr hi)]
    by_cases hend : IsEnd i
    · rw [if_pos (show i = .seqEndF ∨ i = .seqEndI from hend), uopEffect_of_isEnd hend, endUop_sq, finishCall_sq_upc]
    · rw [if_neg (show ¬ (i = .seqEndF ∨ i = .seqEndI) from hend), uopEffect_upc_of_not_isEnd hend]

/-- The sequencer uops store nothing. -/
theorem uopStores_of_sequencer {i : Instr} (hi : i = .seqBeginF ∨ i = .seqBeginI ∨ i = .seqNextF ∨ i = .seqNextI ∨
    i = .seqEndF ∨ i = .seqEndI) (s : State) : uopStores i s = [] := by
  obtain rfl | rfl | rfl | rfl | rfl | rfl := hi <;> rfl

/-- Settles O31: a command changes sequencer bits only; a uop touches neither the control registers nor the host's side
(`sameOutside_uopEffect`), and `BUSY` only where it ends the call. -/
theorem noInstructionWritesAControlRegister : Obligations.NoInstructionWritesAControlRegister := by
  intro i s t h
  obtain ⟨dir, rfl, -, rfl⟩ | ⟨hi, rfl⟩ := exec_eq_next_cases h
  · exact ⟨⟨rfl, rfl, rfl, rfl, rfl⟩, by rw [if_pos (commandOf_eq_or dir), startCall_sq_busy], fun _ => rfl⟩
  · refine ⟨sameOutside_uopEffect i s, ?_, fun hseq => ?_⟩
    · rw [if_neg (not_or.mpr hi)]
      by_cases hend : IsEnd i
      · rw [if_pos (show i = .seqEndF ∨ i = .seqEndI from hend), uopEffect_of_isEnd hend, endUop_sq, finishCall_sq_busy]
      · rw [if_neg (show ¬ (i = .seqEndF ∨ i = .seqEndI) from hend), uopEffect_busy_of_not_isEnd hend]
    · obtain hf | hi' | hseq := hseq
      · exact absurd hf hi.1
      · exact absurd hi' hi.2
      · rw [uopEffect_mem, uopStores_of_sequencer hseq]
        rfl

/-! ### The refusals of a uop and the vector registers -/

/-- Settles O35: a uop is issued by its direction bit before anything else (`exec_eq_issue`). -/
theorem wrongDirectionIsRefused : Obligations.WrongDirectionIsRefused := by
  intro i s hf hi hdir
  rw [exec_eq_issue ⟨hf, hi⟩, issue, if_pos (show s.sq.dir ≠ uopDirection i from hdir.symm)]

/-- In its direction a uop whose index is out of range is refused for the index, in whatever pass. -/
theorem exec_of_index_out_of_range {i : Instr} (hi : IsUop i) {s : State} (hdir : s.sq.dir = uopDirection i)
    (hrange : uopInRange i s = false) : exec i s = .refused .indexOutOfRange := by
  rw [exec_eq_issue hi, issue, if_neg (not_not.mpr hdir), hrange]
  rfl

/-- Settles O36: in the uop's direction the index is checked next; at or above the bound of its range the check fails. -/
theorem indexOutOfRangeIsRefused : Obligations.IndexOutOfRangeIsRefused := by
  intro n s m
  have refused : ∀ {i : Instr} {o : BitVec 8}, IsUop i → encode i = uopWord o n →
      s.sq.dir = (if o.getLsbD 0 then .inverse else .forward) → uopInRange i s = false →
      exec i s = .refused .indexOutOfRange := fun hi hword hdir hrange =>
    exec_of_index_out_of_range hi (hdir.trans (uopDirection_eq hword).symm) hrange
  have hradix4 : m / 4 ≤ n.toNat → inRadix4Range s.sq n = false := fun h => decide_eq_false (Nat.not_lt.mpr h)
  have hradix8 : m / 8 ≤ n.toNat → inRadix8Range s.sq n = false := fun h => decide_eq_false (Nat.not_lt.mpr h)
  have hinterior : (m - 8) / 8 ≤ n.toNat → inInteriorRange s.sq n = false := fun h =>
    decide_eq_false (Nat.not_lt.mpr h)
  refine ⟨fun hdir h => ⟨?_, ?_⟩, fun hdir h => ⟨?_, ?_, ?_⟩, fun hdir h => ?_, fun hdir h => ⟨?_, ?_⟩,
    fun hdir h => ?_, fun hdir h => ?_⟩
  · exact refused ⟨nofun, nofun⟩ rfl hdir (hradix4 h)
  · exact refused ⟨nofun, nofun⟩ rfl hdir (hradix4 h)
  · exact refused ⟨nofun, nofun⟩ rfl hdir (hradix4 h)
  · exact refused ⟨nofun, nofun⟩ rfl hdir (hradix4 h)
  · exact refused ⟨nofun, nofun⟩ rfl hdir (hradix4 h)
  · exact refused ⟨nofun, nofun⟩ rfl hdir (hradix8 h)
  · exact refused ⟨nofun, nofun⟩ rfl hdir (hradix8 h)
  · exact refused ⟨nofun, nofun⟩ rfl hdir (hradix8 h)
  · exact refused ⟨nofun, nofun⟩ rfl hdir (hinterior h)
  · exact refused ⟨nofun, nofun⟩ rfl hdir (hinterior h)

/-- Neither the stores of a uop nor the registers it sets depend on the vector registers. -/
theorem uopBody_vr (i : Instr) (s : State) (v : Vector (BitVec 128) Config.vectorRegisters) :
    uopBody i { s with vr := v } = { uopBody i s with vr := v } := by
  have hstores : uopStores i { s with vr := v } = uopStores i s := by cases i <;> rfl
  have hregisters : uopRegisters i { s with vr := v } = { uopRegisters i s with vr := v } := by cases i <;> rfl
  rw [uopBody, hstores, hregisters]
  rfl

/-- The vector registers a uop leaves are drawn, whatever they held (10_state.md R55; log 3). -/
theorem uopEffect_vr (i : Instr) (s : State) (v : Vector (BitVec 128) Config.vectorRegisters) :
    uopEffect i { s with vr := v } = uopEffect i s := by
  by_cases hend : IsEnd i
  · rw [uopEffect_of_isEnd hend, uopEffect_of_isEnd hend]
    rfl
  · rw [uopEffect_of_not_isEnd hend, uopEffect_of_not_isEnd hend, uopBody_vr]
    rfl

/-- Settles O34: legality reads the sequencer alone, and the effect overwrites the vector registers (`uopEffect_vr`). -/
theorem uopsDoNotReadTheVectorRegisters : Obligations.UopsDoNotReadTheVectorRegisters := by
  intro i s v hf hi
  have hrange : uopInRange i { s with vr := v } = uopInRange i s := rfl
  have hpass : uopInPass i { s with vr := v } = uopInPass i s := rfl
  rw [exec_eq_issue ⟨hf, hi⟩, exec_eq_issue ⟨hf, hi⟩, hrange, hpass, uopEffect_vr]
  rfl

end Sys2Proof.Machine
end

section
/-! PROOF. The invariant of the machine: it holds after reset and every step keeps it, so the last pass of a call writes
`CR[DST]` (43_sequencer.md R161; 60_exceptions.md R214). -/

namespace Sys2Proof.Machine

/-! ### The core's step as a uop -/

/-- `SEQ.BEGIN` of a direction, the first uop of its call. -/
def beginOf : Direction → Instr
  | .forward => .seqBeginF
  | .inverse => .seqBeginI

/-- Whatever the latches hold, a call begins with `SEQ.BEGIN` (43_sequencer.md R158). -/
theorem busWord_of_upc_zero {s : State} (h : s.sq.upc = 0) : s.busWord = some (encode (beginOf s.sq.dir)) := by
  rw [State.busWord, uprogLines, h]
  cases s.sq.dir <;> rfl

/-- The busy core runs the uop whose word is on the bus. -/
theorem coreStep_of_busWord {s : State} {i : Instr} (hbusy : s.sq.busy = true) (hi : IsUop i)
    (hword : s.busWord = some (encode i)) : coreStep s = exec i s := by
  simp [coreStep, hbusy, hword, decodeUop_encode hi]

/-- A step of the busy core that has a meaning is that of a uop whose word is on the bus. -/
theorem uop_of_coreStep_eq_next {s t : State} (hbusy : s.sq.busy = true) (h : coreStep s = .next t) :
    ∃ i, IsUop i ∧ s.busWord = some (encode i) ∧ exec i s = .next t := by
  rw [coreStep, if_pos hbusy] at h
  split at h
  case h_1 => cases h
  case h_2 w hword =>
    split at h
    case h_1 i hdecode =>
      obtain ⟨rfl, hi⟩ := decodeUop_eq_ok_iff.mp hdecode
      exact ⟨i, hi, hword, h⟩
    case h_2 => cases h

theorem encode_injective {i j : Instr} (h : encode i = encode j) : i = j := by
  have hi := decodeWord_encode i
  rw [h, decodeWord_encode j] at hi
  cases hi
  rfl

theorem step_of_no_events {s : State} (he : s.events = []) : step s = coreStep s := by
  rw [step, machineStep, he]

/-- Settles O5: the decoded uop is the one the busy core runs, with the pending turn used up where there is one. -/
theorem stepRunsTheUopOnTheBus : Obligations.StepRunsTheUopOnTheBus := by
  intro s w i hbusy hword hdecode
  obtain ⟨rfl, hi⟩ := decodeUop_eq_ok_iff.mp hdecode
  refine ⟨fun he => (step_of_no_events he).trans (coreStep_of_busWord hbusy hi hword), fun rest he => ?_⟩
  exact (step_eq_hostStep he).trans (coreStep_of_busWord (s := { s with events := rest }) hbusy hi hword)

/-! ### The latches agree with the Plan -/

theorem radixOne_eq_or (s : State) : radixOne s = 4 ∨ radixOne s = 8 := by
  unfold radixOne
  split
  case isTrue => exact .inr rfl
  case isFalse => exact .inl rfl

/-- The parity of the number of passes is bit 0 of `SQ.L`. -/
theorem getLsbD_zero_setWidth (w : Word) : (w.setWidth 4).getLsbD 0 = decide (w.toNat % 2 ≠ 0) := by
  rw [BitVec.getLsbD_setWidth, BitVec.getLsbD, Nat.testBit_zero]
  simp

/-- `SEQ.BEGIN` selects the destination by the parity of the passes that come after the first. -/
theorem dstsel_latchPlan (s : State) (scalef : Bool) (stage : BitVec 4) :
    (s.latchPlan scalef stage).sq.dstsel =
      if ((s.latchPlan scalef stage).sq.l).getLsbD 0 then s.cr.scratch else s.cr.dst := by
  rw [latchPlan_sq_dstsel, latchPlan_sq_l, getLsbD_zero_setWidth]
  by_cases h : (passCount s).toNat % 2 = 0 <;> simp [h]

/-- The number of passes after the current one (43_sequencer.md R161). -/
def passesAfter (q : Sequencer) : BitVec 4 :=
  match q.dir with
  | .forward => q.l + 1 - q.stage
  | .inverse => q.stage - 1

theorem passesAfter_of_forward {q : Sequencer} (hdir : q.dir = .forward) : passesAfter q = q.l + 1 - q.stage := by
  rw [passesAfter, hdir]

theorem passesAfter_of_inverse {q : Sequencer} (hdir : q.dir = .inverse) : passesAfter q = q.stage - 1 := by
  rw [passesAfter, hdir]

theorem pingPong_iff {s : State} :
    pingPong s = true ↔ s.sq.dstsel = if (passesAfter s.sq).getLsbD 0 then s.cr.scratch else s.cr.dst :=
  beq_iff_eq

/-- `SEQ.BEGIN.F` latches what agrees with the Plan: `L` passes come after stage 1. -/
theorem latched_seqBeginF {s : State} (hdir : s.sq.dir = .forward) : Latched (s.latchPlan false 1) := by
  refine ⟨rfl, rfl, rfl, rfl, ?_, radixOne_eq_or s, pingPong_iff.mpr ?_⟩
  · rw [latchPlan_sq_dir, hdir]
    rfl
  · have hafter : passesAfter (s.latchPlan false 1).sq = (s.latchPlan false 1).sq.l :=
      (passesAfter_of_forward (q := (s.latchPlan false 1).sq) hdir).trans (BitVec.add_sub_cancel _ _)
    rw [hafter]
    exact dstsel_latchPlan s false 1

/-- `SEQ.BEGIN.I` latches what agrees with the Plan: `L` passes come after the finalizer pass. -/
theorem latched_seqBeginI {s : State} (hdir : s.sq.dir = .inverse) : Latched (uopRegisters .seqBeginI s) := by
  refine ⟨rfl, rfl, rfl, rfl, ?_, radixOne_eq_or s, pingPong_iff.mpr ?_⟩
  · rw [uopRegisters, latchPlan_sq_dir, hdir]
    rfl
  · have hafter : passesAfter (uopRegisters .seqBeginI s).sq = (uopRegisters .seqBeginI s).sq.l :=
      (passesAfter_of_inverse (q := (uopRegisters .seqBeginI s).sq) hdir).trans (BitVec.add_sub_cancel _ _)
    rw [hafter]
    exact dstsel_latchPlan s _ _

theorem getLsbD_zero_sub_one (x : BitVec 4) : (x - 1).getLsbD 0 = !x.getLsbD 0 := by
  revert x
  decide

/-- Exchanging the buffers with one pass fewer to come keeps the ping-pong rule (R159, R161). -/
theorem swap_pingPong {dst scratch d : Word} {x : BitVec 4} (h : d = if x.getLsbD 0 then scratch else dst) :
    (if d = dst then scratch else dst) = if (x - 1).getLsbD 0 then scratch else dst := by
  rw [getLsbD_zero_sub_one, h]
  cases x.getLsbD 0 <;> simp_all

theorem latched_seqNextF {s : State} (hdir : s.sq.dir = .forward) (h : Latched s) :
    Latched (s.swapBuffers (s.sq.stage + 1)) := by
  obtain ⟨hn, hk, hm, hscale, hscalef, hradix, hbuffers⟩ := h
  refine ⟨hn, hk, hm, hscale, hscalef, hradix, pingPong_iff.mpr ?_⟩
  rw [pingPong_iff, passesAfter_of_forward hdir] at hbuffers
  have hafter : passesAfter (s.swapBuffers (s.sq.stage + 1)).sq = s.sq.l + 1 - s.sq.stage - 1 := by
    rw [passesAfter_of_forward (q := (s.swapBuffers (s.sq.stage + 1)).sq) hdir, swapBuffers_sq_l, swapBuffers_sq_stage]
    bv_omega
  rw [hafter]
  exact swap_pingPong hbuffers

theorem latched_seqNextI {s : State} (hdir : s.sq.dir = .inverse) (h : Latched s) :
    Latched (s.swapBuffers (s.sq.stage - 1)) := by
  obtain ⟨hn, hk, hm, hscale, hscalef, hradix, hbuffers⟩ := h
  refine ⟨hn, hk, hm, hscale, hscalef, hradix, pingPong_iff.mpr ?_⟩
  rw [pingPong_iff, passesAfter_of_inverse hdir] at hbuffers
  rw [passesAfter_of_inverse (q := (s.swapBuffers (s.sq.stage - 1)).sq) hdir, swapBuffers_sq_stage]
  exact swap_pingPong hbuffers

/-- Memory, `SAVE0I`, the vector registers and `SQ.UPC` are not what `Latched` speaks of. -/
theorem latched_storeWords_advance {s : State} (l : List Store) (h : Latched s) : Latched (s.storeWords l).advance := by
  obtain ⟨hn, hk, hm, hscale, hscalef, hradix, hbuffers⟩ := h
  exact ⟨hn, hk, hm, hscale, hscalef, hradix, hbuffers⟩

theorem latched_saveWord {s : State} (v : Word) (h : Latched s) : Latched (s.saveWord v) := by
  obtain ⟨hn, hk, hm, hscale, hscalef, hradix, hbuffers⟩ := h
  exact ⟨hn, hk, hm, hscale, hscalef, hradix, hbuffers⟩

/-- The registers a uop of a running call sets agree with the Plan, `SEQ.BEGIN` from any latches and the others from latches
that agree. -/
theorem latched_uopRegisters {i : Instr} {s : State} (hdir : s.sq.dir = uopDirection i) (hend : ¬ IsEnd i)
    (h : i ≠ beginOf s.sq.dir → Latched s) : Latched (uopRegisters i s) := by
  cases i
  case seqBeginF => exact latched_seqBeginF hdir
  case seqBeginI => exact latched_seqBeginI hdir
  case seqNextF => exact latched_seqNextF hdir (h (by rw [hdir]; decide))
  case seqNextI => exact latched_seqNextI hdir (h (by rw [hdir]; decide))
  case seqEndF => exact absurd (.inl rfl) hend
  case seqEndI => exact absurd (.inr rfl) hend
  case unpackI => exact latched_saveWord _ (h (by rw [hdir]; decide))
  all_goals exact h (by cases s.sq.dir <;> nofun)

/-! ### Every step keeps the invariant -/

/-- A uop of a running call keeps the invariant; the first one must be `SEQ.BEGIN`. -/
theorem invariant_uopEffect {i : Instr} {s : State} (hinv : Invariant s) (hbusy : s.sq.busy = true)
    (hdir : s.sq.dir = uopDirection i) (hfirst : s.sq.upc = 0 → i = beginOf s.sq.dir) :
    Invariant (uopEffect i s) := by
  obtain ⟨hmem, hwritten, hlisted, hflags, hstatus, hlatched⟩ := hinv
  obtain ⟨hcr, hhost, -, -, -⟩ := sameOutside_uopEffect i s
  have hmemEffect := uopEffect_mem i s
  refine ⟨?_, hhost ▸ hwritten, fun a ha => ?_, hcr ▸ hflags, ?_, ?_⟩
  · rw [hmemEffect]
    exact wf_storeWords _ hmem
  · rw [hmemEffect]
    exact byte?_isSome_storeWords _ (hlisted a (hhost ▸ ha))
  · by_cases hend : IsEnd i
    · rw [uopEffect_of_isEnd hend]
      exact fun h => Bool.false_ne_true h.1
    · rw [uopEffect_busy_of_not_isEnd hend, uopEffect_done_of_not_isEnd hend]
      exact hstatus
  · intro hbusy' hupc'
    by_cases hend : IsEnd i
    · rw [uopEffect_of_isEnd hend] at hbusy'
      exact absurd hbusy' Bool.false_ne_true
    · rw [uopEffect_of_not_isEnd hend]
      refine latched_storeWords_advance _ (latched_uopRegisters hdir hend fun hne => hlatched hbusy fun hupc => ?_)
      exact hne (hfirst hupc)

/-- The core's own step keeps the invariant. -/
theorem invariant_coreStep {s t : State} (hinv : Invariant s) (h : coreStep s = .next t) : Invariant t := by
  cases hbusy : s.sq.busy with
  | false =>
    cases (coreStep_of_idle hbusy).symm.trans h
    exact hinv
  | true =>
    obtain ⟨i, hi, hword, hexec⟩ := uop_of_coreStep_eq_next hbusy h
    obtain ⟨hdir, -, -, rfl⟩ := (exec_eq_next_iff hi).mp hexec
    refine invariant_uopEffect hinv hbusy hdir fun hupc => encode_injective (Option.some.inj ?_)
    exact hword.symm.trans (busWord_of_upc_zero hupc)

/-- The start of a call: the counter is 0, so nothing is asked of the latches yet. -/
theorem invariant_startCall {s : State} (hinv : Invariant s) (dir : Direction) : Invariant (s.startCall dir) := by
  obtain ⟨hmem, hwritten, hlisted, hflags, -, -⟩ := hinv
  exact ⟨hmem, hwritten, hlisted, hflags, fun h => Bool.false_ne_true h.2, fun _ h => absurd rfl h⟩

/-- `FLAGS[31:1]` stay zero under every register write (10_state.md R36). -/
theorem flags_reserved_write {c : Control} (h : c.flags &&& 0xFFFFFFFE#32 = 0) (r : CtrlReg) (v : Word) :
    (c.write r v).flags &&& 0xFFFFFFFE#32 = 0 := by
  cases r
  case flags =>
    show v &&& 1#32 &&& 0xFFFFFFFE#32 = 0
    rw [BitVec.and_assoc]
    exact BitVec.and_zero
  all_goals exact h

/-- An idle core's control registers are free. -/
theorem invariant_writeReg {s : State} (hinv : Invariant s) (hidle : s.sq.busy = false) (r : CtrlReg) (v : Word) :
    Invariant (s.writeReg r v) := by
  obtain ⟨hmem, hwritten, hlisted, hflags, hstatus, -⟩ := hinv
  exact ⟨hmem, hwritten, hlisted, flags_reserved_write hflags r v, hstatus,
    fun hbusy => absurd (hidle.symm.trans hbusy) Bool.false_ne_true⟩

/-- A `CMD` write that has a meaning starts a call whose contract holds. -/
theorem startCall_of_commandWrite_eq_next {v : Word} {s t : State} (h : commandWrite v s = .next t) :
    ∃ dir, contractFailure dir s = none ∧ t = s.startCall dir := by
  by_cases h1 : v = 0x00000001#32
  · obtain ⟨hcontract, rfl⟩ := launch_eq_next_iff.mp ((commandWrite_fwd s).symm.trans (h1 ▸ h))
    exact ⟨_, hcontract, rfl⟩
  · by_cases h2 : v = 0x00000002#32
    · obtain ⟨hcontract, rfl⟩ := launch_eq_next_iff.mp ((commandWrite_inv s).symm.trans (h2 ▸ h))
      exact ⟨_, hcontract, rfl⟩
    · cases (commandWrite_of_ne h1 h2 s).symm.trans h

/-- While a call runs no register can be written (10_state.md R43). -/
theorem regWriteStep_of_busy {o : BitVec 6} {r : CtrlReg} {s : State} (hform : wholeWordAccess o .word = true)
    (hreg : regAt o = some r) (hbusy : s.sq.busy = true) (v : Word) :
    regWriteStep o .word v s = .refused .writeWhileBusy := by
  simp [regWriteStep, hform, hreg, hbusy]

/-- Everything a register write can answer as a next state: nothing changed, or, of an idle core, one register written or a
call started. -/
theorem regWriteStep_eq_next_cases {o : BitVec 6} {w : AccessWidth} {v : Word} {s t : State}
    (h : regWriteStep o w v s = .next t) :
    t = s ∨ (s.sq.busy = false ∧ ((∃ r, t = s.writeReg r v) ∨ ∃ dir, t = s.startCall dir)) := by
  cases hbusy : s.sq.busy with
  | false =>
    by_cases hcmd : o = 0x00#6 ∧ w = .word
    · obtain ⟨rfl, rfl⟩ := hcmd
      rw [regWriteStep_cmd_of_idle hbusy] at h
      obtain ⟨dir, -, ht⟩ := startCall_of_commandWrite_eq_next h
      exact .inr ⟨rfl, .inr ⟨dir, ht⟩⟩
    · exact (eq_or_writeReg_of_regWriteStep_eq_next hbusy hcmd h).imp_right fun hr => ⟨rfl, .inl hr⟩
  | true =>
    cases hform : wholeWordAccess o w with
    | false => cases (regWriteStep_of_not_wholeWord hform v s).symm.trans h
    | true =>
      cases hreg : regAt o with
      | none =>
        cases (regWriteStep_of_reserved hform hreg v s).symm.trans h
        exact .inl rfl
      | some r =>
        obtain ⟨rfl, -⟩ := wholeWordAccess_iff.mp hform
        cases (regWriteStep_of_busy hform hreg hbusy v).symm.trans h

theorem invariant_regWriteStep {o : BitVec 6} {w : AccessWidth} {v : Word} {s t : State} (hinv : Invariant s)
    (h : regWriteStep o w v s = .next t) : Invariant t := by
  obtain rfl | ⟨hidle, ⟨r, rfl⟩ | ⟨dir, rfl⟩⟩ := regWriteStep_eq_next_cases h
  · exact hinv
  · exact invariant_writeReg hinv hidle r v
  · exact invariant_startCall hinv dir

/-- A host write adds bytes to memory and to the record of what the host has written. -/
theorem invariant_hostWrite {s : State} (hinv : Invariant s) (a : Word) (bs : List Byte) :
    Invariant (s.hostWrite a bs) := by
  obtain ⟨hmem, hwritten, hlisted, hflags, hstatus, hlatched⟩ := hinv
  refine ⟨wf_writeBytes a bs hmem, wf_addBytes a _ hwritten, hostWrite_listed a bs hlisted, hflags, hstatus,
    fun hbusy hupc => ?_⟩
  obtain ⟨hn, hk, hm, hscale, hscalef, hradix, hbuffers⟩ := hlatched hbusy hupc
  exact ⟨hn, hk, hm, hscale, hscalef, hradix, hbuffers⟩

/-- A host write that has a meaning performs the write. -/
theorem hostWrite_of_memWriteStep_eq_next {a : Word} {bs : List Byte} {s t : State}
    (h : memWriteStep a bs s = .next t) : t = s.hostWrite a bs := by
  unfold memWriteStep at h
  split at h
  case isTrue => cases h
  case isFalse =>
    cases h
    rfl

/-- What the invariant does not speak of: the host's queue, its last answers, the draws. -/
theorem invariant_hostSide {s : State} (hinv : Invariant s) (events : List HostEvent) (word : Word)
    (bytes : List Byte) (draws : Nat) :
    Invariant { s with events := events, hostWord := word, hostBytes := bytes, draws := draws } := by
  obtain ⟨hmem, hwritten, hlisted, hflags, hstatus, hlatched⟩ := hinv
  refine ⟨hmem, hwritten, hlisted, hflags, hstatus, fun hbusy hupc => ?_⟩
  obtain ⟨hn, hk, hm, hscale, hscalef, hradix, hbuffers⟩ := hlatched hbusy hupc
  exact ⟨hn, hk, hm, hscale, hscalef, hradix, hbuffers⟩

/-- The split is over the actions of the host, the core's turn among them. -/
theorem invariant_hostStep {e : HostEvent} {s t : State} (hinv : Invariant s) (h : hostStep e s = .next t) :
    Invariant t := by
  cases e with
  | coreTurn => exact invariant_coreStep hinv h
  | regWrite o w v => exact invariant_regWriteStep hinv h
  | regRead o w =>
    obtain ⟨v, rfl⟩ := answerWord_of_regReadStep_eq_next h
    exact invariant_hostSide hinv _ _ _ _
  | memWrite a bs =>
    obtain rfl := hostWrite_of_memWriteStep_eq_next h
    exact invariant_hostWrite hinv a bs
  | memRead a n =>
    cases h
    exact invariant_hostSide hinv _ _ _ _
  | reset =>
    cases h
    have hflags : Control.reset.flags &&& 0xFFFFFFFE#32 = 0 := by decide
    exact ⟨hinv.memory_wf, hinv.hostWritten_wf, hinv.hostWritten_listed, hflags, fun h => Bool.false_ne_true h.1,
      fun h => absurd h Bool.false_ne_true⟩

/-- Settles O56: the core's step by `invariant_coreStep`, the host's by `invariant_hostStep` on the rest of its queue. -/
theorem everyStepKeepsTheInvariant : Obligations.EveryStepKeepsTheInvariant := by
  intro s t hinv h
  cases he : s.events with
  | nil => exact invariant_coreStep hinv ((step_of_no_events he).symm.trans h)
  | cons e rest =>
    exact invariant_hostStep (invariant_hostSide hinv rest _ _ _) ((step_eq_hostStep he).symm.trans h)

/-- Settles O55: after reset memory and the host's record are empty and the core is idle. -/
theorem invariantHoldsAtReset : Obligations.InvariantHoldsAtReset :=
  ⟨rfl, rfl, nofun, rfl, fun h => Bool.false_ne_true h.1, fun h => absurd h Bool.false_ne_true⟩

/-- Settles O57: in the last pass of either direction no pass comes after, so the ping-pong rule names `CR[DST]`. -/
theorem lastPassWritesTheDestination : Obligations.LastPassWritesTheDestination := by
  intro s hinv hbusy hupc
  have hbuffers := pingPong_iff.mp (hinv.latched hbusy hupc).buffers
  refine ⟨fun hdir hstage => ?_, fun hdir hstage => ?_⟩
  · have hafter : passesAfter s.sq = 0#4 := by rw [passesAfter_of_forward hdir, hstage, BitVec.sub_self]
    rw [hafter] at hbuffers
    exact hbuffers
  · have hafter : passesAfter s.sq = 0#4 := by
      rw [passesAfter_of_inverse hdir, hstage]
      rfl
    rw [hafter] at hbuffers
    exact hbuffers

end Sys2Proof.Machine
end

section
/-! PROOF. The host's accesses: the register block (10_state.md R31 to R36, R43), the words of the shared memory
(20_memory.md R71) and memory accesses while a call runs (70_reset_and_hazards.md R236). -/

namespace Sys2Proof.Machine

/-! ### A command written to `CMD` -/

/-- A write of a command's code runs the command, and any other value is refused. -/
theorem commandWrite_cases (v : Word) (s : State) :
    (v = 1 → commandWrite v s = exec .fwd s) ∧ (v = 2 → commandWrite v s = exec .inv s) ∧
      (v ≠ 1 → v ≠ 2 → commandWrite v s = .refused .reservedCommand) :=
  ⟨fun h => h ▸ rfl, fun h => h ▸ rfl, fun h1 h2 => commandWrite_of_ne h1 h2 s⟩

/-- The host's write of a word to `CMD` of the idle core. -/
theorem step_cmdWrite_of_idle {s : State} {v : Word} {rest : List HostEvent}
    (he : s.events = .regWrite 0x00#6 .word v :: rest) (hidle : s.sq.busy = false) :
    step s = commandWrite v { s with events := rest } :=
  (step_eq_hostStep he).trans (regWriteStep_cmd_of_idle (s := { s with events := rest }) hidle v)

/-- Settles O6: the step is the command write (`step_cmdWrite_of_idle`). -/
theorem commandWriteRunsTheCommand : Obligations.CommandWriteRunsTheCommand := by
  intro s v rest he hidle
  rw [step_cmdWrite_of_idle he hidle]
  exact commandWrite_cases v _

/-! ### Reading a register back -/

@[simp] theorem write_nfft (c : Control) (r : CtrlReg) (v : Word) :
    (c.write r v).nfft = if r = .nfft then v else c.nfft := by cases r <;> rfl
@[simp] theorem write_factors (c : Control) (r : CtrlReg) (v : Word) :
    (c.write r v).factors = if r = .factors then v else c.factors := by cases r <;> rfl
@[simp] theorem write_twf (c : Control) (r : CtrlReg) (v : Word) :
    (c.write r v).twf = if r = .twf then v else c.twf := by cases r <;> rfl
@[simp] theorem write_twb (c : Control) (r : CtrlReg) (v : Word) :
    (c.write r v).twb = if r = .twb then v else c.twb := by cases r <;> rfl
@[simp] theorem write_stw (c : Control) (r : CtrlReg) (v : Word) :
    (c.write r v).stw = if r = .stw then v else c.stw := by cases r <;> rfl
@[simp] theorem write_scratch (c : Control) (r : CtrlReg) (v : Word) :
    (c.write r v).scratch = if r = .scratch then v else c.scratch := by cases r <;> rfl
@[simp] theorem write_flags (c : Control) (r : CtrlReg) (v : Word) :
    (c.write r v).flags = if r = .flags then flagsWritten v else c.flags := by cases r <;> rfl
@[simp] theorem write_src (c : Control) (r : CtrlReg) (v : Word) :
    (c.write r v).src = if r = .src then v else c.src := by cases r <;> rfl
@[simp] theorem write_dst (c : Control) (r : CtrlReg) (v : Word) :
    (c.write r v).dst = if r = .dst then v else c.dst := by cases r <;> rfl

/-- `FLAGS` reads back bit 0 of what was written (R36). -/
theorem flagsRead_flagsWritten (v : Word) : flagsRead (flagsWritten v) = v &&& 1 := by
  rw [flagsRead, flagsWritten, BitVec.and_assoc]
  rfl

theorem readReg_writeReg_same (s : State) {r : CtrlReg} (hcmd : r ≠ .cmd) (hstatus : r ≠ .status) (v : Word) :
    (s.writeReg r v).readReg r = if r = .flags then v &&& 1 else v := by
  cases r
  case cmd => exact absurd rfl hcmd
  case status => exact absurd rfl hstatus
  case flags => exact flagsRead_flagsWritten v
  all_goals rfl

theorem readReg_writeReg_of_ne (s : State) {r r' : CtrlReg} (h : r' ≠ r) (v : Word) :
    (s.writeReg r v).readReg r' = s.readReg r' := by
  cases r' <;> simp [State.readReg, h.symm]

/-! ### The access rule -/

/-- The eleven registers at their offsets (R31). -/
def registerMap : List (BitVec 6 × CtrlReg) :=
  [(0x00#6, .cmd), (0x04#6, .status), (0x08#6, .nfft), (0x0C#6, .factors), (0x10#6, .twf), (0x14#6, .twb),
    (0x18#6, .stw), (0x1C#6, .scratch), (0x20#6, .flags), (0x24#6, .src), (0x28#6, .dst)]

theorem regAt_of_mem_registerMap {o : BitVec 6} {r : CtrlReg} (h : (o, r) ∈ registerMap) :
    regAt o = some r ∧ wholeWordAccess o .word = true := by
  have hall : ∀ p ∈ registerMap, regAt p.1 = some p.2 ∧ wholeWordAccess p.1 .word = true := by decide
  exact hall _ h

/-- An idle core takes a write of any register but `CMD`; `STATUS` ignores it (`Control.write`). -/
theorem regWriteStep_of_idle {o : BitVec 6} {r : CtrlReg} {s : State} (hform : wholeWordAccess o .word = true)
    (hreg : regAt o = some r) (hidle : s.sq.busy = false) (hcmd : r ≠ .cmd) (v : Word) :
    regWriteStep o .word v s = .next (s.writeReg r v) := by
  simp [regWriteStep, hform, hreg, hidle, hcmd]

/-- Settles O11: the access is a whole word at a register's offset (`regAt_of_mem_registerMap`); each clause is the rule of
the block for that register and for `BUSY`. -/
theorem registerAccessRule : Obligations.RegisterAccessRule := by
  intro s o r v rest hmem
  obtain ⟨hreg, hform⟩ := regAt_of_mem_registerMap hmem
  refine ⟨fun he => ?_, fun hbusy he => ?_, fun hidle he hcmd hstatus => ?_, fun hidle he hstatus => ?_,
    fun hidle he hcmd => ?_, rfl⟩
  · refine (step_eq_hostStep he).trans ((regReadStep_of_wholeWord hform _).trans ?_)
    rw [hreg, Option.map_some, Option.getD_some, readReg_congr (t := { s with events := rest }) rfl rfl r]
    rfl
  · exact (step_eq_hostStep he).trans (regWriteStep_of_busy (s := { s with events := rest }) hform hreg hbusy v)
  · refine ⟨_, (step_eq_hostStep he).trans
      (regWriteStep_of_idle (s := { s with events := rest }) hform hreg hidle hcmd v),
      readReg_writeReg_same _ hcmd hstatus v, fun r' hne => ?_, rfl, rfl⟩
    exact (readReg_writeReg_of_ne _ hne v).trans (readReg_congr rfl rfl r')
  · subst hstatus
    exact (step_eq_hostStep he).trans
      (regWriteStep_of_idle (s := { s with events := rest }) hform hreg hidle (by decide) v)
  · obtain rfl := regAt_eq_cmd_iff.mp (hcmd ▸ hreg)
    rw [step_cmdWrite_of_idle he hidle]
    exact commandWrite_cases v _

/-- The bits of `STATUS` (R33). -/
theorem getLsbD_statusWord (q : Sequencer) (n : Nat) :
    (statusWord q).getLsbD n = if n = 0 then q.busy else if n = 1 then q.done else false := by
  have h : (statusWord q).getLsbD n = (0#30 ++ BitVec.ofBool q.done ++ BitVec.ofBool q.busy).getLsbD n := rfl
  rw [h, BitVec.getLsbD_append, BitVec.getLsbD_append]
  match n with
  | 0 => simp
  | 1 => simp
  | n + 2 => simp

/-- Settles O13: bit by bit (`getLsbD_statusWord`). -/
theorem statusShowsBusyAndDone : Obligations.StatusShowsBusyAndDone := fun s =>
  ⟨getLsbD_statusWord s.sq 0, getLsbD_statusWord s.sq 1, fun n hn => by
    rw [State.readReg, getLsbD_statusWord, if_neg (by omega), if_neg (by omega)]⟩

/-! ### Words of memory -/

/-- Byte `n` of the word at `a` is byte `n` of the value stored there. -/
theorem byteAt_writeWord_offset (m : Memory) (a v : Word) {n : Nat} (hn : n < 4) :
    Memory.byteAt (Memory.writeWord m a v) (a + BitVec.ofNat 32 n).toNat = byteOfWord v n := by
  have hoffset : (a + BitVec.ofNat 32 n - a).toNat = n := by
    rw [BitVec.add_comm, BitVec.add_sub_cancel, BitVec.toNat_ofNat, Nat.mod_eq_of_lt (by omega)]
  rw [byteAt_writeWord, hoffset, if_pos hn]

/-- Settles O14: by the laws of one stored word. -/
theorem wordStoreReadsBackAndLeavesTheRest : Obligations.WordStoreReadsBackAndLeavesTheRest := fun m a v =>
  ⟨readWord_writeWord_same m a v, fun _ hn => byteAt_writeWord_offset m a v hn,
    fun _ hx => byteAt_writeWord_other m v hx, fun hm => wf_writeWord hm a v⟩

/-! ### The host's memory accesses -/

/-- The byte at `a` belongs to a region of the running call exactly where the model's check says so. -/
theorem inRunningCall_iff {s : State} {a : Word} :
    inRunningCall s a = true ↔
      ∃ r ∈ callRegions s.cr s.sq.dir (Nat.log2 s.cr.nfft.toNat), r.base ≤ a.toNat ∧ a.toNat < r.base + r.size := by
  simp only [inRunningCall, callLog2, List.any_eq_true, holds_iff]

/-- What a running call leaves unsettled lies inside its regions (R236). -/
theorem inRunningCall_of_unsettledAddress {s : State} {a : Word} (h : unsettledAddress s a = true) :
    inRunningCall s a = true := by
  rw [inRunningCall, List.any_eq_true]
  simp only [unsettledAddress, Bool.or_eq_true, Bool.and_eq_true, beq_iff_eq] at h
  obtain (hdst | hscratch) | ⟨hdir, hslot⟩ := h
  · exact ⟨_, .tail _ (.head _), hdst⟩
  · exact ⟨_, .tail _ (.tail _ (.head _)), hscratch⟩
  · refine ⟨_, .head _, ?_⟩
    obtain ⟨hlo, hhi⟩ := holds_iff.mp hslot
    rw [hdir]
    refine holds_iff.mpr ⟨hlo, lt_of_lt_of_le hhi (Nat.add_le_add_left ?_ _)⟩
    exact Nat.le_mul_of_pos_right 8 (Nat.succ_pos _)

/-- One byte is one access of the regions' check. -/
theorem memWriteStep_singleton (s : State) (a : Word) (b : Byte) :
    memWriteStep a [b] s =
      if s.sq.busy && inRunningCall s a then .refused .hostAccessWhileBusy else .next (s.hostWrite a [b]) := by
  simp [memWriteStep]

theorem byteAt_hostWrite_singleton (s : State) (a x : Word) (b : Byte) :
    (s.hostWrite a [b]).byteAt x = if x = a then b else s.byteAt x := by
  have h : (s.hostWrite a [b]).byteAt x = if x.toNat = a.toNat then b else s.byteAt x := byteAt_writeByte _ _ _ _
  rw [h]
  simp only [BitVec.toNat_inj]

/-- Settles O15: a one-byte write is refused exactly where the byte is in a region of the running call, and performed
otherwise; a read elsewhere answers memory because what a call leaves unsettled lies inside its regions. -/
theorem hostMemoryAccessDuringACall : Obligations.HostMemoryAccessDuringACall := by
  intro s a b rest k touched
  have htouched : inRunningCall { s with events := rest } a = true ↔ touched :=
    inRunningCall_iff (s := { s with events := rest })
  refine ⟨fun he hbusy htouch => ?_, fun he hfree => ?_, fun he hfree => ?_⟩
  · refine (step_eq_hostStep he).trans ((memWriteStep_singleton _ a b).trans (if_pos ?_))
    exact (Bool.and_eq_true _ _).mpr ⟨hbusy, htouched.mpr htouch⟩
  · have hopen : ¬ (s.sq.busy && inRunningCall { s with events := rest } a) = true := fun h =>
      have ⟨hbusy, hin⟩ := (Bool.and_eq_true _ _).mp h
      hfree hbusy (htouched.mp hin)
    refine ⟨_, (step_eq_hostStep he).trans ((memWriteStep_singleton _ a b).trans (if_neg hopen)), ?_, ?_, ?_,
      rfl, rfl⟩
    · rw [byteAt_hostWrite_singleton, if_pos rfl]
    · intro x hx
      rw [byteAt_hostWrite_singleton, if_neg hx]
      rfl
    · intro x
      rw [hostWrite_hostWritten, List.length_singleton, AddressSet.addBytes, AddressSet.addBytes]
      exact mem_add
  · have hread : hostReadByte { s with events := rest } a = s.byteAt a := by
      refine if_neg fun h => ?_
      obtain ⟨hbusy, hunsettled⟩ := (Bool.and_eq_true _ _).mp h
      exact hfree hbusy (htouched.mp (inRunningCall_of_unsettledAddress hunsettled))
    refine ⟨_, step_eq_hostStep he, ?_, rfl, rfl, rfl, rfl⟩
    simp [hread]

end Sys2Proof.Machine
end

section
/-! PROOF. The launch contract and the reasons a command is refused for (43_sequencer.md R150, R151, R153;
60_exceptions.md R211). -/

namespace Sys2Proof.Machine

/-! ### The checks in their order (log 11) -/

theorem contractFailure_of_busy {dir : Direction} {s : State} (hbusy : s.sq.busy = true) :
    contractFailure dir s = some .writeWhileBusy := by
  simp [contractFailure, hbusy]

theorem contractFailure_of_size_out_of_range {dir : Direction} {s : State} (hidle : s.sq.busy = false)
    (hsize : ∀ k, 4 ≤ k → k ≤ 24 → s.cr.nfft.toNat ≠ 2 ^ k) : contractFailure dir s = some .contractViolation := by
  have hbad : sizeAccepted s.cr.nfft = false := Bool.eq_false_iff.mpr fun h => by
    obtain ⟨k, hlo, hhi, hk⟩ := sizeAccepted_iff.mp h
    exact hsize k hlo hhi hk
  simp [contractFailure, hidle, hbad]

/-- The checks after the size, for an idle core and an accepted `N = 2^k`. -/
theorem contractFailure_of_size {dir : Direction} {s : State} {k : Nat} (hidle : s.sq.busy = false) (hlo : 4 ≤ k)
    (hhi : k ≤ 24) (hk : s.cr.nfft.toNat = 2 ^ k) :
    contractFailure dir s =
      if !basesAligned s.cr then some .misalignedBase
      else if !(callRegions s.cr dir k).all Region.fits then some .regionWraps
      else if !regionsDisjoint s.cr dir k then some .regionsOverlap
      else if !factorListCanonical s.mem s.cr.factors k then some .contractViolation
      else if !inputsWritten s.cr s.hostWritten dir k then some .contractViolation
      else none := by
  have hsize : sizeAccepted s.cr.nfft = true := sizeAccepted_iff.mpr ⟨k, hlo, hhi, hk⟩
  have hlog : Nat.log2 s.cr.nfft.toNat = k := by rw [hk, Nat.log2_two_pow]
  simp only [contractFailure, hidle, hsize, hlog, Bool.not_true, Bool.false_eq_true, if_false]

theorem launchable_iff {dir : Direction} {s : State} : launchable dir s = true ↔ contractFailure dir s = none := by
  rw [launchable, Option.isNone_iff_eq_none]

/-- With the size accepted the contract is the rest of its items. -/
theorem contractFailure_eq_none_iff_of_size {dir : Direction} {s : State} {k : Nat} (hidle : s.sq.busy = false)
    (hlo : 4 ≤ k) (hhi : k ≤ 24) (hk : s.cr.nfft.toNat = 2 ^ k) :
    contractFailure dir s = none ↔ BasesAligned s.cr ∧ RegionsFit s.cr dir k ∧ NoByteShared s.cr dir k ∧
      CanonicalList s k ∧ InputsFromHost s dir k := by
  rw [contractFailure_of_size hidle hlo hhi hk, ← basesAligned_iff, ← regionsFit_iff, ← regionsDisjoint_iff,
    ← factorListCanonical_iff, ← inputsWritten_iff]
  split_ifs <;> simp_all

/-- Settles O21: a command outside the size range or of a busy core fails; otherwise item by item. -/
theorem launchContractItemByItem : Obligations.LaunchContractItemByItem := by
  intro dir s
  rw [launchable_iff]
  constructor
  · intro h
    have hidle : s.sq.busy = false := Bool.eq_false_iff.mpr fun hbusy => by
      rw [contractFailure_of_busy hbusy] at h
      cases h
    by_contra hno
    have hsize : ∀ k, 4 ≤ k → k ≤ 24 → s.cr.nfft.toNat ≠ 2 ^ k := fun k hlo hhi hk =>
      hno ⟨k, hlo, hhi, hk, hidle, (contractFailure_eq_none_iff_of_size hidle hlo hhi hk).mp h⟩
    rw [contractFailure_of_size_out_of_range hidle hsize] at h
    cases h
  · rintro ⟨k, hlo, hhi, hk, hidle, hitems⟩
    exact (contractFailure_eq_none_iff_of_size hidle hlo hhi hk).mpr hitems

/-- The reasons an idle core can refuse a command for. -/
theorem contractFailure_mem_of_idle {dir : Direction} {s : State} {r : Refusal} (hidle : s.sq.busy = false)
    (h : contractFailure dir s = some r) :
    r ∈ [Refusal.contractViolation, .misalignedBase, .regionWraps, .regionsOverlap] := by
  simp only [contractFailure, hidle, Bool.false_eq_true, if_false] at h
  split_ifs at h <;> cases h <;> decide

/-! ### The two commands -/

theorem exec_commandOf_of_failure {dir : Direction} {s : State} {r : Refusal} (h : contractFailure dir s = some r) :
    exec (commandOf dir) s = .refused r := by
  rw [exec_commandOf, launch, h]

theorem exec_commandOf_of_launchable {dir : Direction} {s : State} (h : launchable dir s = true) :
    exec (commandOf dir) s = .next (s.startCall dir) := by
  rw [exec_commandOf, launch, launchable_iff.mp h]

/-- Settles O22: a failing contract names its reason, which for an idle core is not `write_while_busy`. -/
theorem commandsStartACallWhereTheContractHolds : Obligations.CommandsStartACallWhereTheContractHolds := by
  refine ⟨rfl, rfl, fun s dir => ?_⟩
  intro command
  have hcommand : command = commandOf dir := by cases dir <;> rfl
  rw [hcommand]
  refine ⟨fun hbusy => exec_commandOf_of_failure (contractFailure_of_busy hbusy), fun hidle hfail => ?_,
    exec_commandOf_of_launchable⟩
  obtain ⟨r, hr⟩ : ∃ r, contractFailure dir s = some r := by
    rw [← Option.isSome_iff_exists, ← Option.not_isNone]
    exact congrArg not hfail
  exact ⟨r, contractFailure_mem_of_idle hidle hr, exec_commandOf_of_failure hr⟩

/-- Settles O23: each clause is the first check of the chain that fails (`contractFailure_of_size`). -/
theorem commandsAreRefusedOutsideTheContract : Obligations.CommandsAreRefusedOutsideTheContract := by
  intro s dir command hidle
  have hcommand : command = commandOf dir := by cases dir <;> rfl
  rw [hcommand]
  refine ⟨fun hsize => exec_commandOf_of_failure (contractFailure_of_size_out_of_range hidle hsize),
    fun k hlo hhi hk => ?_⟩
  have hfails : ∀ {b : Bool}, ¬ b = true → (!b) = true := fun h => by simp [h]
  have hholds : ∀ {b : Bool}, b = true → ¬ (!b) = true := fun h => by simp [h]
  have hchain := contractFailure_of_size (dir := dir) hidle hlo hhi hk
  rw [← basesAligned_iff, ← regionsFit_iff, ← regionsDisjoint_iff, ← factorListCanonical_iff, ← inputsWritten_iff]
  refine ⟨fun haligned => ?_, fun haligned hfit => ?_, fun haligned hfit hdisjoint => ?_,
    fun haligned hfit hdisjoint hlast => ?_⟩
  all_goals refine exec_commandOf_of_failure (hchain.trans ?_)
  · rw [if_pos (hfails haligned)]
  · rw [if_neg (hholds haligned), if_pos (hfails hfit)]
  · rw [if_neg (hholds haligned), if_neg (hholds hfit), if_pos (hfails hdisjoint)]
  · rw [if_neg (hholds haligned), if_neg (hholds hfit), if_neg (hholds hdisjoint)]
    by_cases hlist : factorListCanonical s.mem s.cr.factors k = true
    · rw [if_neg (hholds hlist), if_pos (hfails (hlast.resolve_left (not_not.mpr hlist)))]
    · rw [if_pos (hfails hlist)]

end Sys2Proof.Machine
end

section
/-! PROOF. `SEQ.BEGIN`: what it latches from the Plan, and the plan of `N = 2^k` it latches from the canonical list
(43_sequencer.md R154 to R157). -/

namespace Sys2Proof.Machine

/-! ### The plan words of the factor list -/

theorem fused_iff {s : State} : fused s = true ↔ listWord s 3 = 2 := beq_iff_eq

theorem passCount_eq (s : State) :
    passCount s = if listWord s 3 = 2 then listWord s 0 - 1 else listWord s 0 := by
  simp only [passCount, fused_iff]
  rfl

theorem radixOne_eq (s : State) : radixOne s = if listWord s 3 = 2 then 8 else 4 := by
  simp only [radixOne, fused_iff]
  rfl

theorem strideOne_eq (s : State) :
    strideOne s = if listWord s 3 = 2 then listWord s 1 >>> 2 else listWord s 1 := by
  simp only [strideOne, fused_iff]
  rfl

theorem listMstride_eq (s : State) {n : Nat} (hn : 2 ≤ n) :
    listMstride s n = listWord s (if listWord s 3 = 2 then 2 + 2 * n else 2 * n) := by
  simp only [listMstride, fused_iff]
  split
  case isTrue => rw [Nat.add_sub_cancel_left]; rfl
  case isFalse =>
    have hindex : 2 + 2 * (1 + n - 2) = 2 * n := by omega
    rw [hindex]
    rfl

/-! ### The stage tables after `SEQ.BEGIN` -/

theorem stMAt_add_one (q : Sequencer) {t : Nat} (ht : t < Config.stageDepth) : q.stMAt (t + 1) = q.stM[t] := by
  rw [Sequencer.stMAt, Nat.add_sub_cancel, Vector.getElem?_eq_getElem ht, Option.getD_some]

theorem stFAt_add_one (q : Sequencer) {t : Nat} (ht : t < Config.stageDepth) : q.stFAt (t + 1) = q.stF[t] := by
  rw [Sequencer.stFAt, Nat.add_sub_cancel, Vector.getElem?_eq_getElem ht, Option.getD_some]

theorem stTWAt_add_two (q : Sequencer) {t : Nat} (ht : t < Config.stageDepth - 1) : q.stTWAt (t + 2) = q.stTW[t] := by
  rw [Sequencer.stTWAt, Nat.add_sub_cancel, Vector.getElem?_eq_getElem ht, Option.getD_some]

section
variable (s : State) (scalef : Bool) (stage : BitVec 4)

theorem stMAt_one_latchPlan : (s.latchPlan scalef stage).sq.stMAt 1 = 1 := by
  simp [State.latchPlan, Sequencer.stMAt]

theorem stMAt_latchPlan {n : Nat} (hlo : 2 ≤ n) (hhi : n ≤ Config.stageDepth) :
    (s.latchPlan scalef stage).sq.stMAt n =
      if n ≤ (passCount s).toNat then listMstride s n else s.sq.stMAt n := by
  obtain ⟨t, rfl⟩ : ∃ t, n = t + 1 := ⟨n - 1, by omega⟩
  have hne : t ≠ 0 := by omega
  rw [stMAt_add_one _ hhi, stMAt_add_one _ hhi]
  simp only [State.latchPlan, Vector.getElem_ofFn, if_neg hne]
  rfl

theorem stFAt_latchPlan {n : Nat} (hlo : 1 ≤ n) (hhi : n ≤ Config.stageDepth) :
    (s.latchPlan scalef stage).sq.stFAt n =
      if n = 1 ∨ n ≤ (passCount s).toNat then listFstride s (n - 1) else s.sq.stFAt n := by
  obtain ⟨t, rfl⟩ : ∃ t, n = t + 1 := ⟨n - 1, by omega⟩
  rw [stFAt_add_one _ hhi, stFAt_add_one _ hhi]
  simp only [State.latchPlan, Vector.getElem_ofFn, Nat.add_eq_right, Nat.add_sub_cancel]
  rfl

theorem stTWAt_latchPlan {n : Nat} (hlo : 2 ≤ n) (hhi : n ≤ Config.stageDepth) :
    (s.latchPlan scalef stage).sq.stTWAt n =
      if n ≤ (passCount s).toNat then listTwiddle s (n - 2) else s.sq.stTWAt n := by
  obtain ⟨t, rfl⟩ : ∃ t, n = t + 2 := ⟨n - 2, by omega⟩
  have ht : t < Config.stageDepth - 1 := by omega
  rw [stTWAt_add_two _ ht, stTWAt_add_two _ ht]
  simp only [State.latchPlan, Vector.getElem_ofFn, Nat.add_sub_cancel]
  rfl

end

/-- What either form latches, with its scaling flag and its first stage. -/
theorem planLatched_latchPlan_advance (s : State) (inverse : Bool) {scalef : Bool} {stage : BitVec 4}
    (hscalef : scalef = (inverse && s.cr.flags.getLsbD 0))
    (hstage : stage = if inverse then (passCount s).setWidth 4 + 1 else 1) :
    PlanLatched s (s.latchPlan scalef stage).advance inverse where
  n_eq := rfl
  k_eq := rfl
  m_eq := rfl
  l_eq := congrArg (BitVec.setWidth 4) (passCount_eq s)
  r1_eq := radixOne_eq s
  scale_eq := rfl
  scalef_eq := hscalef
  stage_eq := hstage
  srcsel_eq := rfl
  dstsel_eq := dstsel_latchPlan s scalef stage
  upc_eq := rfl
  kept := ⟨rfl, rfl, rfl, rfl⟩
  stage_one :=
    ⟨stMAt_one_latchPlan s scalef stage,
      (stFAt_latchPlan s scalef stage le_rfl (by decide)).trans ((if_pos (.inl rfl)).trans (strideOne_eq s))⟩
  stages := fun n hlo hhi hpass => by
    rw [← passCount_eq] at hpass
    obtain ⟨t, rfl⟩ : ∃ t, n = t + 2 := ⟨n - 2, by omega⟩
    have hprev : t + 2 - 1 = t + 1 := rfl
    refine ⟨?_, ?_, ?_⟩
    · exact (stMAt_latchPlan s scalef stage hlo hhi).trans ((if_pos hpass).trans (listMstride_eq s hlo))
    · refine (stFAt_latchPlan s scalef stage (by omega) hhi).trans ((if_pos (.inr hpass)).trans ?_)
      have hf := (stFAt_latchPlan s scalef stage (n := t + 1) (by omega) (by omega)).trans (if_pos (.inr (by omega)))
      exact congrArg (fun a : Word => a >>> 2) hf.symm
    · refine (stTWAt_latchPlan s scalef stage hlo hhi).trans ((if_pos hpass).trans ?_)
      cases t with
      | zero => rfl
      | succ t =>
        rw [if_neg (by omega)]
        have htw := (stTWAt_latchPlan s scalef stage (n := t + 2) (by omega) (by omega)).trans (if_pos (by omega))
        have hm := (stMAt_latchPlan s scalef stage (n := t + 2) (by omega) (by omega)).trans (if_pos (by omega))
        exact (congrArg₂ (fun a b => a + 3 * b) htw hm).symm
  above := fun n hlo hhi hpass => by
    rw [← passCount_eq] at hpass
    refine ⟨?_, ?_, ?_⟩
    · exact (stMAt_latchPlan s scalef stage hlo hhi).trans (if_neg (by omega))
    · exact (stFAt_latchPlan s scalef stage (by omega) hhi).trans (if_neg (by omega))
    · exact (stTWAt_latchPlan s scalef stage hlo hhi).trans (if_neg (by omega))

theorem onlySequencer_latchPlan_advance (s : State) (scalef : Bool) (stage : BitVec 4) :
    OnlySequencer s (s.latchPlan scalef stage).advance :=
  ⟨⟨rfl, rfl, rfl, rfl, rfl⟩, rfl⟩

theorem exec_seqBeginF_of_forward {s : State} (hdir : s.sq.dir = .forward) :
    exec .seqBeginF s = .next (s.latchPlan false 1).advance :=
  issue_of_legal hdir rfl rfl

theorem exec_seqBeginI_of_inverse {s : State} (hdir : s.sq.dir = .inverse) :
    exec .seqBeginI s = .next (s.latchPlan (scaleInverse s.cr.flags) ((passCount s).setWidth 4 + 1)).advance :=
  issue_of_legal hdir rfl rfl

/-- Settles O24: both forms latch the same plan, with their own scaling flag and first stage. -/
theorem seqBeginLatchesThePlan : Obligations.SeqBeginLatchesThePlan := by
  refine fun s => ⟨fun hdir => ?_, fun hdir => ?_⟩
  · exact ⟨_, exec_seqBeginF_of_forward hdir, onlySequencer_latchPlan_advance s _ _,
      planLatched_latchPlan_advance s false rfl rfl⟩
  · exact ⟨_, exec_seqBeginI_of_inverse hdir, onlySequencer_latchPlan_advance s _ _,
      planLatched_latchPlan_advance s true rfl rfl⟩

/-! ### The latches before `SEQ.BEGIN` -/

/-- The sequencer with other values in the latches `SEQ.BEGIN` writes. -/
def Sequencer.withLatches (q : Sequencer) (n m : Word) (k : BitVec 5) (l r1 stage : BitVec 4) (scalef : Bool)
    (scale src dst : Word) (stM stF : Vector Word Config.stageDepth) (stTW : Vector Word (Config.stageDepth - 1)) :
    Sequencer :=
  { q with
    n := n, m := m, k := k, l := l, r1 := r1, stage := stage, scalef := scalef, scale := scale,
    srcsel := src, dstsel := dst, stM := stM, stF := stF, stTW := stTW }

/-- The list's strides and offsets are read from memory, not from the sequencer. -/
theorem listFstride_sq (s : State) (q : Sequencer) (n : Nat) : listFstride { s with sq := q } n = listFstride s n := by
  induction n with
  | zero => rfl
  | succ n ih => exact congrArg (fun w : Word => w >>> 2) ih

theorem listTwiddle_sq (s : State) (q : Sequencer) (n : Nat) : listTwiddle { s with sq := q } n = listTwiddle s n := by
  induction n with
  | zero => rfl
  | succ n ih => exact congrArg (fun w : Word => w + 3 * listMstride s (n + 2)) ih

/-- `SEQ.BEGIN` overwrites the ten scalar latches and the entries of the stage tables up to `L`, so its effect depends on
the entries above `L` alone (log 13). -/
theorem latchPlan_withLatches {s : State} {n m : Word} {k : BitVec 5} {l r1 stage : BitVec 4} {scalef : Bool}
    {scale src dst : Word} {stM stF : Vector Word Config.stageDepth} {stTW : Vector Word (Config.stageDepth - 1)}
    (habove : ∀ e, 2 ≤ e → e ≤ Config.stageDepth → (passCount s).toNat < e →
      (s.sq.withLatches n m k l r1 stage scalef scale src dst stM stF stTW).stMAt e = s.sq.stMAt e ∧
      (s.sq.withLatches n m k l r1 stage scalef scale src dst stM stF stTW).stFAt e = s.sq.stFAt e ∧
      (s.sq.withLatches n m k l r1 stage scalef scale src dst stM stF stTW).stTWAt e = s.sq.stTWAt e)
    (scalef' : Bool) (stage' : BitVec 4) :
    ({ s with sq := s.sq.withLatches n m k l r1 stage scalef scale src dst stM stF stTW } : State).latchPlan
      scalef' stage' = s.latchPlan scalef' stage' := by
  generalize hq : s.sq.withLatches n m k l r1 stage scalef scale src dst stM stF stTW = q at habove ⊢
  have hkept : (q.busy, q.done, q.dir, q.upc, q.save0i) =
      (s.sq.busy, s.sq.done, s.sq.dir, s.sq.upc, s.sq.save0i) := by
    subst hq
    rfl
  have hstM : (({ s with sq := q } : State).latchPlan scalef' stage').sq.stM =
      (s.latchPlan scalef' stage').sq.stM := by
    refine Vector.ext fun t ht => ?_
    cases t with
    | zero => simp [State.latchPlan]
    | succ t =>
      rw [← stMAt_add_one _ ht, ← stMAt_add_one _ ht, stMAt_latchPlan _ _ _ (by omega) ht,
        stMAt_latchPlan _ _ _ (by omega) ht]
      refine ite_congr rfl (fun _ => rfl) fun h => (habove _ (by omega) ht (Nat.lt_of_not_le h)).1
  have hstF : (({ s with sq := q } : State).latchPlan scalef' stage').sq.stF =
      (s.latchPlan scalef' stage').sq.stF := by
    refine Vector.ext fun t ht => ?_
    rw [← stFAt_add_one _ ht, ← stFAt_add_one _ ht, stFAt_latchPlan _ _ _ (by omega) ht,
      stFAt_latchPlan _ _ _ (by omega) ht]
    refine ite_congr rfl (fun _ => listFstride_sq s q _) fun h => ?_
    obtain ⟨hne, hpass⟩ := not_or.mp h
    exact (habove _ (by omega) ht (Nat.lt_of_not_le hpass)).2.1
  have hstTW : (({ s with sq := q } : State).latchPlan scalef' stage').sq.stTW =
      (s.latchPlan scalef' stage').sq.stTW := by
    refine Vector.ext fun t ht => ?_
    rw [← stTWAt_add_two _ ht, ← stTWAt_add_two _ ht, stTWAt_latchPlan _ _ _ (by omega) (by omega),
      stTWAt_latchPlan _ _ _ (by omega) (by omega)]
    refine ite_congr rfl (fun _ => listTwiddle_sq s q _) fun h => (habove _ (by omega) (by omega) (Nat.lt_of_not_le h)).2.2
  simp only [Prod.mk.injEq] at hkept
  obtain ⟨hbusy, hdone, hdirection, hupc, hsave⟩ := hkept
  simp only [State.latchPlan] at hstM hstF hstTW ⊢
  rw [hstM, hstF, hstTW, hbusy, hdone, hdirection, hupc, hsave]
  rfl

/-- Settles O33: both forms latch the plan and advance, and the latched plan is the same (`latchPlan_withLatches`). -/
theorem beginForgetsTheOldLatches : Obligations.BeginForgetsTheOldLatches := by
  intro s n m k l r1 stage scalef scale src dst stM stF stTW q passes habove
  have hpasses : passes = (passCount s).toNat := by rw [passCount_eq]
  rw [hpasses] at habove
  have hlatch := latchPlan_withLatches habove
  have hbegin : ∀ dir scalef' stage', issue dir true true { s with sq := q }
      (({ s with sq := q } : State).latchPlan scalef' stage').advance =
      issue dir true true s (s.latchPlan scalef' stage').advance := fun dir scalef' stage' =>
    congrArg (fun e : State => issue dir true true s e.advance) (hlatch scalef' stage')
  exact ⟨hbegin .forward false 1, hbegin .inverse _ _⟩

end Sys2Proof.Machine
end

section
/-! PROOF. The stage plan of `N = 2^k`: what `SEQ.BEGIN` latches from the canonical factor list (43_sequencer.md R154,
R155). -/

namespace Sys2Proof.Machine

/-! ### The plan as powers of 4 -/

/-- The number of passes after fusion, and the radix of stage 1, of an even or an odd `k` (R155). -/
theorem even_or_odd_plan {k : Nat} (hk : 4 ≤ k) :
    ∃ j, driverPasses k = j + 1 ∧ ((k = 2 * j + 4 ∧ firstRadix k = 4) ∨ (k = 2 * j + 5 ∧ firstRadix k = 8)) := by
  refine ⟨(k - 4) / 2, by unfold driverPasses; omega, ?_⟩
  unfold firstRadix
  obtain hpar | hpar : k % 2 = 0 ∨ k % 2 = 1 := by omega
  · exact .inl ⟨by omega, by rw [if_pos hpar]⟩
  · exact .inr ⟨by omega, by rw [if_neg (by omega)]⟩

theorem two_pow_two_mul (j : Nat) : 2 ^ (2 * j) = 4 ^ j := pow_mul 2 2 j

/-- `M = r_1 · 4^(L − 1)`. -/
theorem columns_eq {k : Nat} (hk : 4 ≤ k) : 2 ^ (k - 2) = firstRadix k * 4 ^ (driverPasses k - 1) := by
  obtain ⟨j, hL, ⟨rfl, hr⟩ | ⟨rfl, hr⟩⟩ := even_or_odd_plan hk
  · rw [hL, hr, Nat.add_sub_cancel, ← two_pow_two_mul, show 2 * j + 4 - 2 = 2 + 2 * j by omega, pow_add]
    rfl
  · rw [hL, hr, Nat.add_sub_cancel, ← two_pow_two_mul, show 2 * j + 5 - 2 = 3 + 2 * j by omega, pow_add]
    rfl

/-- `1 ≤ L ≤ 11`. -/
theorem driverPasses_bounds {k : Nat} (hk : 4 ≤ k) (hmax : k ≤ 24) : 1 ≤ driverPasses k ∧ driverPasses k ≤ 11 := by
  unfold driverPasses
  omega

theorem firstRadix_eq_or (k : Nat) : firstRadix k = 4 ∨ firstRadix k = 8 := by
  unfold firstRadix
  split
  case isTrue => exact .inl rfl
  case isFalse => exact .inr rfl

theorem four_pow_eq_mul {n : Nat} (hn : 1 ≤ n) : 4 ^ n = 4 * 4 ^ (n - 1) := by
  rw [← pow_succ', Nat.sub_add_cancel hn]

/-- Powers of 4 up to the largest plan fit a word. -/
theorem four_pow_le {n : Nat} (hn : n ≤ 11) : 4 ^ n ≤ 4 ^ 11 := Nat.pow_le_pow_right (by decide) hn

theorem driverMstride_of_two_le (k : Nat) {n : Nat} (hn : 2 ≤ n) :
    driverMstride k n = firstRadix k * 4 ^ (n - 2) := by
  rw [driverMstride, if_neg (by omega)]

theorem twiddleOffset_succ (k n : Nat) :
    twiddleOffset k (n + 1 + 2) = twiddleOffset k (n + 2) + 3 * driverMstride k (n + 2) := by
  simp [twiddleOffset, List.range_succ]

/-- The twiddle blocks of the stages before `n` fill the table up to `m_n − r_1` slots. -/
theorem twiddleOffset_add_firstRadix (k n : Nat) :
    twiddleOffset k (n + 2) + firstRadix k = firstRadix k * 4 ^ n := by
  induction n with
  | zero => simp [twiddleOffset]
  | succ n ih =>
    have hnext := twiddleOffset_succ k n
    have hm : driverMstride k (n + 2) = firstRadix k * 4 ^ n := driverMstride_of_two_le k (by omega)
    have hpow : firstRadix k * 4 ^ (n + 1) = 4 * (firstRadix k * 4 ^ n) := by rw [pow_succ]; ring
    omega

/-! ### The words of the canonical list -/

/-- The list counts the passes before fusion, and its stride is that of pair 0. -/
theorem canon_head {k : Nat} (hk : 4 ≤ k) :
    canonStageCount k = (if firstRadix k = 8 then driverPasses k + 1 else driverPasses k) ∧
      canonFstride k = (if firstRadix k = 8 then 4 ^ driverPasses k else 4 ^ (driverPasses k - 1)) := by
  obtain ⟨j, hL, ⟨rfl, hr⟩ | ⟨rfl, hr⟩⟩ := even_or_odd_plan hk
  · have hpar : (2 * j + 4) % 2 = 0 := by omega
    simp only [canonStageCount, canonFstride, hL, hr, if_pos hpar, Nat.reduceEqDiff, if_false, ← two_pow_two_mul]
    exact ⟨by omega, congrArg (2 ^ ·) (by omega)⟩
  · have hpar : ¬ (2 * j + 5) % 2 = 0 := by omega
    simp only [canonStageCount, canonFstride, hL, hr, if_neg hpar, if_true, ← two_pow_two_mul]
    exact ⟨by omega, congrArg (2 ^ ·) (by omega)⟩

/-- Pair `t` of an unfused list has `mstride = 4^t`; of a fused one, from pair 1 on, `2·4^(t − 1)`. -/
theorem canonPair_fst {k : Nat} (t : Nat) :
    (canonPair k t).1 =
      if firstRadix k = 8 then (if t = 0 then 1 else 2 * 4 ^ (t - 1)) else 4 ^ t := by
  unfold canonPair firstRadix
  split
  case isTrue => rfl
  case isFalse => split <;> rfl

/-- Pairs laid out one after the other: the word at an even position is the first of its pair, at an odd position the
second. -/
theorem getElem?_flatMap_pairs {α : Type} (f g : Nat → α) {c t : Nat} (ht : t < c) :
    ((List.range c).flatMap fun t => [f t, g t])[2 * t]? = some (f t) ∧
      ((List.range c).flatMap fun t => [f t, g t])[2 * t + 1]? = some (g t) := by
  induction c with
  | zero => omega
  | succ c ih =>
    have hlen : ((List.range c).flatMap fun t => [f t, g t]).length = 2 * c := by simp [mul_comm]
    rw [List.range_succ, List.flatMap_append, List.getElem?_append, List.getElem?_append, hlen]
    obtain hlt | rfl : t < c ∨ t = c := by omega
    · rw [if_pos (by omega), if_pos (by omega)]
      exact ih hlt
    · simp

/-- Memory holds `canon(k)` at `CR[FACTORS]`, as the reads of `SEQ.BEGIN` see it. -/
def ListHolds (s : State) (k : Nat) : Prop :=
  ∀ n v, (canon k)[n]? = some v → factorWord s n = BitVec.ofNat 32 v

section
variable {s : State} {k : Nat} (hlist : ListHolds s k) (hk : 4 ≤ k) (hmax : k ≤ 24)
include hlist

theorem factorWord_zero : factorWord s 0 = BitVec.ofNat 32 (canonStageCount k) := hlist 0 _ rfl

theorem factorWord_one : factorWord s 1 = BitVec.ofNat 32 (canonFstride k) := hlist 1 _ rfl

/-- The pairs follow the two words of the head. -/
theorem factorWord_pair {t : Nat} (ht : t < canonStageCount k) :
    factorWord s (2 * t + 2) = BitVec.ofNat 32 (canonPair k t).1 ∧
      factorWord s (2 * t + 3) = BitVec.ofNat 32 (canonPair k t).2 := by
  obtain ⟨h1, h2⟩ := getElem?_flatMap_pairs (fun t => (canonPair k t).1) (fun t => (canonPair k t).2) ht
  exact ⟨hlist _ _ h1, hlist _ _ h2⟩

include hk

/-- The radix-2 factor is there exactly where `k` is odd. -/
theorem fused_canon : fused s = decide (firstRadix k = 8) := by
  have hcount : 0 < canonStageCount k := by
    unfold canonStageCount
    split <;> omega
  rw [fused, (factorWord_pair hlist hcount).2]
  unfold canonPair firstRadix
  split <;> rfl

include hmax

/-- `L` of the canonical list (R155). -/
theorem passCount_canon : (passCount s).toNat = driverPasses k := by
  obtain ⟨hcount, -⟩ := canon_head hk
  obtain ⟨hlo, hhi⟩ := driverPasses_bounds hk hmax
  rw [passCount, fused_canon hlist hk, factorWord_zero hlist, hcount]
  obtain hr | hr := firstRadix_eq_or k
  · simp only [hr, Nat.reduceEqDiff, decide_false, Bool.false_eq_true, if_false, BitVec.toNat_ofNat]
    omega
  · simp only [hr, decide_true, if_true]
    bv_omega

/-- `F_1 = 4^(L − 1)`. -/
theorem strideOne_canon : (strideOne s).toNat = 4 ^ (driverPasses k - 1) := by
  obtain ⟨-, hstride⟩ := canon_head hk
  obtain ⟨hlo, hhi⟩ := driverPasses_bounds hk hmax
  have hpow := four_pow_le hhi
  have hsucc := four_pow_eq_mul hlo
  rw [strideOne, fused_canon hlist hk, factorWord_one hlist, hstride]
  obtain hr | hr := firstRadix_eq_or k
  · simp only [hr, Nat.reduceEqDiff, decide_false, Bool.false_eq_true, if_false, BitVec.toNat_ofNat]
    omega
  · simp only [hr, decide_true, if_true, BitVec.toNat_ushiftRight, BitVec.toNat_ofNat, Nat.shiftRight_eq_div_pow]
    omega

/-- `F_n = 4^(L − n)`. -/
theorem listFstride_canon {n : Nat} (hn : n ≤ driverPasses k - 1) :
    (listFstride s n).toNat = 4 ^ (driverPasses k - 1 - n) := by
  induction n with
  | zero => exact strideOne_canon hlist hk hmax
  | succ n ih =>
    have hprev := ih (by omega)
    have hpow := four_pow_eq_mul (n := driverPasses k - 1 - n) (by omega)
    rw [listFstride, BitVec.toNat_ushiftRight, hprev, hpow, Nat.shiftRight_eq_div_pow,
      show driverPasses k - 1 - n - 1 = driverPasses k - 1 - (n + 1) by omega]
    omega

/-- `m_n` is the `mstride` of the list's pair of stage `n` (R155). -/
theorem listMstride_canon {n : Nat} (hlo : 2 ≤ n) (hhi : n ≤ driverPasses k) :
    (listMstride s n).toNat = driverMstride k n := by
  obtain ⟨hcount, -⟩ := canon_head hk
  obtain ⟨-, hL⟩ := driverPasses_bounds hk hmax
  have hpow := four_pow_le (n := n - 1) (by omega)
  have hsucc := four_pow_eq_mul (n := n - 1) (by omega)
  have hprev : n - 1 - 1 = n - 2 := by omega
  rw [hprev] at hsucc
  rw [listMstride, fused_canon hlist hk, driverMstride_of_two_le k hlo]
  obtain hr | hr := firstRadix_eq_or k
  · simp only [hr, Nat.reduceEqDiff, decide_false, Bool.false_eq_true, if_false] at hcount ⊢
    have hpair := (factorWord_pair hlist (t := n - 1) (by omega)).1
    rw [canonPair_fst, hr, if_neg (by decide)] at hpair
    rw [show 2 + 2 * (1 + n - 2) = 2 * (n - 1) + 2 by omega, hpair, BitVec.toNat_ofNat]
    omega
  · simp only [hr, decide_true, if_true] at hcount ⊢
    have hpair := (factorWord_pair hlist (t := n) (by omega)).1
    rw [canonPair_fst, hr, if_pos rfl, if_neg (by omega)] at hpair
    rw [show 2 + 2 * (2 + n - 2) = 2 * n + 2 by omega, hpair, BitVec.toNat_ofNat]
    omega

/-- The twiddle offset of stage `n + 2`: no sum of it leaves the word. -/
theorem listTwiddle_canon {n : Nat} (hn : n + 2 ≤ driverPasses k) :
    (listTwiddle s n).toNat = twiddleOffset k (n + 2) := by
  obtain ⟨-, hL⟩ := driverPasses_bounds hk hmax
  induction n with
  | zero => simp [listTwiddle, twiddleOffset]
  | succ n ih =>
    have hprev := ih (by omega)
    have hm := listMstride_canon hlist hk hmax (n := n + 2) (by omega) (by omega)
    have hoffset := twiddleOffset_add_firstRadix k (n + 1)
    have hnext := twiddleOffset_succ k n
    have hpow := four_pow_le (n := n + 1) (by omega)
    have hr := firstRadix_eq_or k
    have hthree : BitVec.toNat (3 : Word) = 3 := rfl
    have hfit : twiddleOffset k (n + 1 + 2) < 2 ^ 32 := by
      obtain hr | hr := hr <;> rw [hr] at hoffset <;> omega
    rw [listTwiddle, BitVec.toNat_add, BitVec.toNat_mul, hprev, hm, hthree, hnext]
    omega

end

/-- What `SEQ.BEGIN` latches from the canonical list of `N = 2^k`, the plan of R155. -/
structure CanonicalPlan (k : Nat) (q : Sequencer) : Prop where
  k_eq : q.k.toNat = k
  m_eq : q.m.toNat = 2 ^ (k - 2)
  l_eq : q.l.toNat = driverPasses k
  r1_eq : q.r1.toNat = firstRadix k
  stM_one : q.stMAt 1 = 1
  stF_eq : ∀ n, 1 ≤ n → n ≤ driverPasses k → (q.stFAt n).toNat = 4 ^ (driverPasses k - n)
  stM_eq : ∀ n, 2 ≤ n → n ≤ driverPasses k → (q.stMAt n).toNat = driverMstride k n
  stTW_eq : ∀ n, 2 ≤ n → n ≤ driverPasses k → (q.stTWAt n).toNat = twiddleOffset k n

/-- The latch of the canonical list is the plan of R155, whatever the tables held above `L`. -/
theorem canonicalPlan_latchPlan {s : State} {k : Nat} (hlist : ListHolds s k) (hk : 4 ≤ k) (hmax : k ≤ 24)
    (hn : s.cr.nfft.toNat = 2 ^ k) (scalef : Bool) (stage : BitVec 4) :
    CanonicalPlan k (s.latchPlan scalef stage).sq := by
  obtain ⟨hlo, hhi⟩ := driverPasses_bounds hk hmax
  have hpass := passCount_canon hlist hk hmax
  have hdepth : driverPasses k ≤ Config.stageDepth := hhi.trans (by decide)
  refine ⟨?_, ?_, ?_, ?_, stMAt_one_latchPlan s scalef stage, fun n h1 hL => ?_, fun n h2 hL => ?_, fun n h2 hL => ?_⟩
  · rw [latchPlan_sq_k, hn, Nat.log2_two_pow, BitVec.toNat_ofNat, Nat.mod_eq_of_lt (by omega)]
  · rw [latchPlan_sq_m, BitVec.toNat_ushiftRight, hn, Nat.shiftRight_eq_div_pow, Nat.pow_div (by omega) (by decide)]
  · rw [latchPlan_sq_l, BitVec.toNat_setWidth, hpass, Nat.mod_eq_of_lt (by omega)]
  · rw [latchPlan_sq_r1, radixOne, fused_canon hlist hk]
    obtain hr | hr := firstRadix_eq_or k <;> rw [hr] <;> rfl
  · rw [stFAt_latchPlan s scalef stage h1 (by omega), hpass, if_pos (.inr hL),
      listFstride_canon hlist hk hmax (by omega)]
    exact congrArg (4 ^ ·) (by omega)
  · rw [stMAt_latchPlan s scalef stage h2 (by omega), hpass, if_pos hL, listMstride_canon hlist hk hmax h2 hL]
  · obtain ⟨m, rfl⟩ : ∃ m, n = m + 2 := ⟨n - 2, by omega⟩
    rw [stTWAt_latchPlan s scalef stage h2 (by omega), hpass, if_pos hL]
    exact listTwiddle_canon hlist hk hmax hL

/-- `m_n · F_n = M/4` for the later stages (R155). -/
theorem mstride_mul_fstride {k n : Nat} (hk : 4 ≤ k) (hlo : 2 ≤ n) (hhi : n ≤ driverPasses k) :
    driverMstride k n * 4 ^ (driverPasses k - n) = 2 ^ (k - 2) / 4 := by
  have hcolumns := columns_eq hk
  have hpow : 4 ^ (n - 2) * 4 ^ (driverPasses k - n) * 4 = 4 ^ (driverPasses k - 1) := by
    rw [← pow_add, ← pow_succ]
    exact congrArg (4 ^ ·) (by omega)
  rw [driverMstride_of_two_le k hlo, hcolumns, ← hpow, ← mul_assoc, ← mul_assoc, Nat.mul_div_cancel _ (by decide)]

/-- Settles O25: every latch of the plan by its word of the canonical list; `m_n · F_n = r_1 · 4^(L − 2)` for every later
stage. -/
theorem seqBeginOnTheCanonicalList : Obligations.SeqBeginOnTheCanonicalList := by
  intro s k hk hmax hn hlist i t hi hexec
  have hlist : ListHolds s k := hlist
  obtain ⟨scalef, stage, rfl⟩ : ∃ scalef stage, t = (s.latchPlan scalef stage).advance := by
    have hexecUop := exec_eq_next_iff (i := i) (s := s) (t := t)
    obtain rfl | rfl := hi
    · obtain ⟨-, -, -, rfl⟩ := (hexecUop ⟨nofun, nofun⟩).mp hexec
      exact ⟨_, _, rfl⟩
    · obtain ⟨-, -, -, rfl⟩ := (hexecUop ⟨nofun, nofun⟩).mp hexec
      exact ⟨_, _, rfl⟩
  obtain ⟨hk', hm, hl, hr, hM1, hF, hM, hTW⟩ := canonicalPlan_latchPlan hlist hk hmax hn scalef stage
  obtain ⟨hlo, hhi⟩ := driverPasses_bounds hk hmax
  have hlast := hF (driverPasses k) hlo le_rfl
  rw [Nat.sub_self, pow_zero] at hlast
  refine ⟨hk', hm, hl, hr, hM1, ?_, fun n h2 hL => ⟨hM n h2 hL, ?_, hTW n h2 hL⟩, hlast⟩
  · rw [columns_eq hk, mul_comm]
    exact congrArg₂ (· * ·) hr (hF 1 le_rfl hlo)
  · rw [← mstride_mul_fstride hk h2 hL]
    exact congrArg₂ (· * ·) (hM n h2 hL) (hF n (by omega) hL)

end Sys2Proof.Machine
end

section
/-! PROOF. The listing of `uprog`: which uop stands at each position, its length, and that the sequencer issues only words of
the table (43_sequencer.md R158, R164; 30_encoding.md R106). -/

namespace Sys2Proof.Machine

/-! ### Walking a listing -/

/-- How many uops a listing stands for. -/
def uopCount (l : List Line) : Nat := (l.map Line.count).sum

@[simp] theorem uopCount_nil : uopCount [] = 0 := rfl

@[simp] theorem uopCount_cons (ln : Line) (l : List Line) : uopCount (ln :: l) = ln.count + uopCount l := by
  simp [uopCount]

@[simp] theorem uopCount_append (l l' : List Line) : uopCount (l ++ l') = uopCount l + uopCount l' := by
  simp [uopCount]

/-- Passes of equal length. -/
theorem uopCount_flatMap_range {f : Nat → List Line} {c : Nat} (hf : ∀ t, uopCount (f t) = c) (n : Nat) :
    uopCount ((List.range n).flatMap f) = n * c := by
  induction n with
  | zero => simp
  | succ n ih => simp [List.range_succ, ih, hf, Nat.succ_mul]

/-- From position `n` on the listing `l` reads as `rest`. -/
def Follows (l : List Line) (n : Nat) (rest : List Line) : Prop := ∀ m, uopAt l (n + m) = uopAt rest m

theorem Follows.start (l : List Line) : Follows l 0 l := fun m => by rw [Nat.zero_add]

theorem Follows.at_eq {l rest : List Line} {n n' : Nat} (h : Follows l n rest) (hn : n = n') : Follows l n' rest :=
  hn ▸ h

/-- Past a line. -/
theorem Follows.next {l rest : List Line} {ln : Line} {n : Nat} (h : Follows l n (ln :: rest)) :
    Follows l (n + ln.count) rest := fun m => by
  rw [Nat.add_assoc, h (ln.count + m), uopAt, if_neg (by omega), Nat.add_sub_cancel_left]

/-- Past a part of the listing. -/
theorem Follows.skip {l : List Line} (a : List Line) {rest : List Line} {n : Nat} (h : Follows l n (a ++ rest)) :
    Follows l (n + uopCount a) rest := by
  induction a generalizing n with
  | nil => exact h
  | cons ln a ih => exact (ih h.next).at_eq (by rw [uopCount_cons, Nat.add_assoc])

/-- Into pass `t` of a run of passes of equal length. -/
theorem Follows.pass {l rest : List Line} {f : Nat → List Line} {c m n t : Nat} (hf : ∀ t, uopCount (f t) = c)
    (h : Follows l n ((List.range m).flatMap f ++ rest)) (ht : t < m) :
    ∃ rest', Follows l (n + t * c) (f t ++ rest') := by
  obtain ⟨r, rfl⟩ : ∃ r, m = t + (r + 1) := ⟨m - t - 1, by omega⟩
  rw [List.range_add, List.flatMap_append, List.append_assoc] at h
  have hpass := h.skip
  rw [uopCount_flatMap_range hf, List.range_succ_eq_map, List.map_cons, List.flatMap_cons, List.append_assoc,
    Nat.add_zero] at hpass
  exact ⟨_, hpass⟩

/-- The uop of a line that stands for one. -/
theorem Follows.one {l rest : List Line} {st n : Nat} {i : Instr} (h : Follows l n (.one st i :: rest)) :
    uopAt l n = some i := h 0

/-- Uop `b` of a repeated line. -/
theorem Follows.rep {l rest : List Line} {st c b n : Nat} {x : Indexed} (h : Follows l n (.rep st x c :: rest))
    (hb : b < c) : uopAt l (n + b) = some (x.uop (BitVec.ofNat 24 b)) :=
  (h b).trans (if_pos hb)

/-- Past the end nothing is issued (log 23). -/
theorem Follows.none {l : List Line} {n m : Nat} (h : Follows l n []) (hm : n ≤ m) : uopAt l m = .none := by
  obtain ⟨d, rfl⟩ := Nat.exists_eq_add_of_le hm
  exact h d

/-! ### The two listings part by part -/

/-- The later stages of a forward call. -/
def forwardPass (q : Sequencer) (t : Nat) : List Line :=
  [.rep (t + 2) .r4tF (q.m.toNat / 4), .one (t + 2) .seqNextF]

/-- The later stages of an inverse call. -/
def inversePass (q : Sequencer) (t : Nat) : List Line :=
  [.rep (q.l.toNat - t) .r4tI (q.m.toNat / 4), .one (q.l.toNat - t) .seqNextI]

/-- The Second uop of the finalizer, where `M ≥ 8`. -/
def secondLine (q : Sequencer) (i : Instr) : List Line :=
  if 8 ≤ q.m.toNat then [.one (q.l.toNat + 1) i] else []

theorem forwardLines_eq (q : Sequencer) :
    forwardLines q =
      .one 1 .seqBeginF :: .rep 1 (firstKernelForward q) (firstCount q) :: .one 1 .seqNextF ::
        ((List.range (q.l.toNat - 1)).flatMap (forwardPass q) ++
          .one (q.l.toNat + 1) .finEdgeF :: (secondLine q .finSecF ++
            [.rep (q.l.toNat + 1) .finIntF (interiorCount q.m.toNat), .one (q.l.toNat + 1) .packF,
              .one (q.l.toNat + 1) .seqEndF])) := by
  simp only [forwardLines, List.append_assoc]
  rfl

theorem inverseLines_eq (q : Sequencer) :
    inverseLines q =
      .one (q.l.toNat + 1) .seqBeginI :: .one (q.l.toNat + 1) .unpackI :: .one (q.l.toNat + 1) .finEdgeI ::
        (secondLine q .finSecI ++
          .rep (q.l.toNat + 1) .finIntI (interiorCount q.m.toNat) :: .one (q.l.toNat + 1) .seqNextI ::
            ((List.range (q.l.toNat - 1)).flatMap (inversePass q) ++
              [.rep 1 (firstKernelInverse q) (firstCount q), .one 1 .restoreI, .one 1 .seqEndI])) := by
  simp only [inverseLines, List.append_assoc]
  rfl

theorem uopCount_forwardPass (q : Sequencer) (t : Nat) : uopCount (forwardPass q t) = q.m.toNat / 4 + 1 := rfl

theorem uopCount_inversePass (q : Sequencer) (t : Nat) : uopCount (inversePass q t) = q.m.toNat / 4 + 1 := rfl

theorem uopCount_secondLine (q : Sequencer) (i : Instr) :
    uopCount (secondLine q i) = if 8 ≤ q.m.toNat then 1 else 0 := by
  unfold secondLine
  split <;> rfl

/-- `nI` is 0 below `M = 8`, with or without the case. -/
theorem interiorCount_eq (m : Nat) : interiorCount m = if 8 ≤ m then (m - 8) / 8 else 0 := by
  unfold interiorCount
  split <;> omega

theorem uprogLines_of_forward {q : Sequencer} (hdir : q.dir = .forward) : uprogLines q = forwardLines q := by
  rw [uprogLines, hdir]

theorem uprogLines_of_inverse {q : Sequencer} (hdir : q.dir = .inverse) : uprogLines q = inverseLines q := by
  rw [uprogLines, hdir]

/-- Settles O28: the parts of the listing counted one by one. -/
theorem uprogHasTheStatedLength : Obligations.UprogHasTheStatedLength := by
  intro q hl
  dsimp only
  have hlength : uprogLength q = uopCount (uprogLines q) := rfl
  have hfirst : firstCount q = (q.stFAt 1).toNat := rfl
  cases hdir : q.dir with
  | forward =>
    rw [hlength, uprogLines_of_forward hdir, forwardLines_eq, ← hfirst, ← interiorCount_eq]
    simp only [uopCount_cons, uopCount_append, uopCount_flatMap_range (uopCount_forwardPass q), uopCount_nil,
      uopCount_secondLine, Line.count]
    omega
  | inverse =>
    rw [hlength, uprogLines_of_inverse hdir, inverseLines_eq, ← hfirst, ← interiorCount_eq]
    simp only [uopCount_cons, uopCount_append, uopCount_flatMap_range (uopCount_inversePass q), uopCount_nil,
      uopCount_secondLine, Line.count]
    omega

/-- Settles O29: the rows are evaluated. -/
theorem uprogLengthTable : Obligations.UprogLengthTable := by
  unfold Obligations.UprogLengthTable
  decide

/-! ### Every position -/

/-- The uop at the position of the counter is on the bus. -/
theorem busWord_of_uopAt {s : State} {n : Nat} {i : Instr} (h : uopAt (uprogLines s.sq) n = some i)
    (hn : s.sq.upc.toNat = n) : s.busWord = some (encode i) := by
  rw [State.busWord, hn, h]
  rfl

theorem busWord_eq_none {s : State} (h : uopAt (uprogLines s.sq) s.sq.upc.toNat = none) : s.busWord = none := by
  rw [State.busWord, h]
  rfl

theorem firstKernelForward_uop (q : Sequencer) (f : BitVec 24) :
    (firstKernelForward q).uop f = if q.r1 = 8 then .r8F f else .r4fF f := by
  by_cases hr : q.r1 = 8#4 <;> simp [firstKernelForward, hr, Indexed.uop]

theorem firstKernelInverse_uop (q : Sequencer) (f : BitVec 24) :
    (firstKernelInverse q).uop f =
      if q.r1 = 8 then (if q.scalef then .r8IS f else .r8I f) else if q.scalef then .r4fIS f else .r4fI f := by
  by_cases hr : q.r1 = 8#4 <;> cases hs : q.scalef <;> simp [firstKernelInverse, hr, hs, Indexed.uop]

/-- `F1` as the listing reads it. -/
theorem firstCount_eq (q : Sequencer) : firstCount q = (q.stFAt 1).toNat := rfl

/-- Settles O60: a walk along the listing of either direction, part by part (`Follows`). -/
theorem eachPositionOfTheListingIsTheStatedUop : Obligations.EachPositionOfTheListingIsTheStatedUop := by
  intro s
  dsimp only
  rw [← interiorCount_eq, ← firstCount_eq, ← uopCount_secondLine s.sq .finSecF]
  refine ⟨fun hdir => ?_, fun hdir => ?_⟩
  · have hbegin := Follows.start (uprogLines s.sq)
    nth_rw 2 [uprogLines_of_forward hdir] at hbegin
    rw [forwardLines_eq] at hbegin
    have hfirst := hbegin.next
    have hnext := hfirst.next
    have hpasses := hnext.next
    have hedge := hpasses.skip
    rw [uopCount_flatMap_range (uopCount_forwardPass s.sq)] at hedge
    have hsecond := hedge.next
    have hinterior := hsecond.skip
    have hpack := hinterior.next
    have hend := hpack.next
    have hpast := hend.next
    dsimp only [Line.count] at hfirst hnext hpasses hedge hsecond hinterior hpack hend hpast
    refine ⟨busWord_of_uopAt hbegin.one, fun f hf hupc => ?_, fun hupc => ?_, fun t ht => ?_, fun hupc => ?_,
      fun hm hupc => ?_, fun i hi hupc => ?_, fun hupc => ?_, fun hupc => ?_, fun hupc => ?_⟩
    · rw [← firstKernelForward_uop]
      exact busWord_of_uopAt (hfirst.rep hf) (by omega)
    · exact busWord_of_uopAt hnext.one (by omega)
    · obtain ⟨rest, hpass⟩ := hpasses.pass (uopCount_forwardPass s.sq) ht
      refine ⟨fun b hb hupc => busWord_of_uopAt (hpass.rep hb) (by omega), fun hupc => ?_⟩
      exact busWord_of_uopAt hpass.next.one (by dsimp only [Line.count]; omega)
    · exact busWord_of_uopAt hedge.one (by omega)
    · rw [secondLine, if_pos hm] at hsecond
      exact busWord_of_uopAt hsecond.one (by omega)
    · exact busWord_of_uopAt (hinterior.rep hi) (by omega)
    · exact busWord_of_uopAt hpack.one (by omega)
    · exact busWord_of_uopAt hend.one (by omega)
    · exact busWord_eq_none (hpast.none (by omega))
  · rw [uopCount_secondLine, ← uopCount_secondLine s.sq .finSecI]
    have hbegin := Follows.start (uprogLines s.sq)
    nth_rw 2 [uprogLines_of_inverse hdir] at hbegin
    rw [inverseLines_eq] at hbegin
    have hunpack := hbegin.next
    have hedge := hunpack.next
    have hsecond := hedge.next
    have hinterior := hsecond.skip
    have hnext := hinterior.next
    have hpasses := hnext.next
    have hfirst := hpasses.skip
    rw [uopCount_flatMap_range (uopCount_inversePass s.sq)] at hfirst
    have hrestore := hfirst.next
    have hend := hrestore.next
    have hpast := hend.next
    dsimp only [Line.count] at hunpack hedge hsecond hinterior hnext hpasses hfirst hrestore hend hpast
    refine ⟨busWord_of_uopAt hbegin.one, busWord_of_uopAt hunpack.one, busWord_of_uopAt hedge.one, fun hm hupc => ?_,
      fun i hi hupc => ?_, fun hupc => ?_, fun t ht => ?_, fun f hf hupc => ?_, fun hupc => ?_, fun hupc => ?_,
      fun hupc => ?_⟩
    · rw [secondLine, if_pos hm] at hsecond
      exact busWord_of_uopAt hsecond.one (by omega)
    · exact busWord_of_uopAt (hinterior.rep hi) (by omega)
    · exact busWord_of_uopAt hnext.one (by omega)
    · obtain ⟨rest, hpass⟩ := hpasses.pass (uopCount_inversePass s.sq) ht
      refine ⟨fun b hb hupc => busWord_of_uopAt (hpass.rep hb) (by omega), fun hupc => ?_⟩
      exact busWord_of_uopAt hpass.next.one (by dsimp only [Line.count]; omega)
    · rw [← firstKernelInverse_uop]
      exact busWord_of_uopAt (hfirst.rep hf) (by omega)
    · exact busWord_of_uopAt hrestore.one (by omega)
    · exact busWord_of_uopAt hend.one (by omega)
    · exact busWord_eq_none (hpast.none (by omega))

/-! ### Only uops of the call's direction -/

/-- Every uop the line stands for is one of the table with the direction bit `dir`. -/
def LineOf (dir : Direction) (ln : Line) : Prop := ∀ n, IsUop (ln.uop n) ∧ uopDirection (ln.uop n) = dir

theorem lineOf_one {dir : Direction} {i : Instr} (hi : i ≠ .fwd ∧ i ≠ .inv ∧ uopDirection i = dir) (st : Nat) :
    LineOf dir (.one st i) := fun _ => ⟨⟨hi.1, hi.2.1⟩, hi.2.2⟩

/-- The direction of a repeated uop does not depend on its index. -/
theorem uopDirection_indexed (x : Indexed) (f : BitVec 24) :
    IsUop (x.uop f) ∧ uopDirection (x.uop f) = uopDirection (x.uop 0) := by
  cases x
  all_goals
    refine ⟨⟨nofun, nofun⟩, ?_⟩
    rw [Indexed.uop, uopDirection_eq rfl, Indexed.uop, uopDirection_eq rfl]

theorem lineOf_rep {dir : Direction} {x : Indexed} (hx : uopDirection (x.uop 0) = dir) (st c : Nat) :
    LineOf dir (.rep st x c) := fun n => (uopDirection_indexed x (BitVec.ofNat 24 n)).imp_right (·.trans hx)

theorem lineOf_secondLine {dir : Direction} {i : Instr} (hi : i ≠ .fwd ∧ i ≠ .inv ∧ uopDirection i = dir)
    (q : Sequencer) : ∀ ln ∈ secondLine q i, LineOf dir ln := by
  unfold secondLine
  split
  case isTrue => exact List.forall_mem_singleton.mpr (lineOf_one hi _)
  case isFalse => exact nofun

theorem firstKernelForward_direction (q : Sequencer) : uopDirection ((firstKernelForward q).uop 0) = .forward := by
  unfold firstKernelForward
  split <;> decide

theorem firstKernelInverse_direction (q : Sequencer) : uopDirection ((firstKernelInverse q).uop 0) = .inverse := by
  unfold firstKernelInverse
  split <;> split <;> decide

theorem lineOf_forwardLines (q : Sequencer) : ∀ ln ∈ forwardLines q, LineOf .forward ln := by
  have hpass : ∀ t, ∀ ln ∈ forwardPass q t, LineOf .forward ln := fun t =>
    List.forall_mem_cons.mpr ⟨lineOf_rep (by decide) _ _, List.forall_mem_singleton.mpr (lineOf_one (by decide) _)⟩
  rw [forwardLines_eq]
  simp only [List.forall_mem_cons, List.forall_mem_append, List.forall_mem_flatMap, List.not_mem_nil, false_implies,
    implies_true, and_true]
  exact ⟨lineOf_one (by decide) _, lineOf_rep (firstKernelForward_direction q) _ _, lineOf_one (by decide) _,
    fun t _ => hpass t, lineOf_one (by decide) _, lineOf_secondLine (by decide) q, lineOf_rep (by decide) _ _,
    lineOf_one (by decide) _, lineOf_one (by decide) _⟩

theorem lineOf_inverseLines (q : Sequencer) : ∀ ln ∈ inverseLines q, LineOf .inverse ln := by
  have hpass : ∀ t, ∀ ln ∈ inversePass q t, LineOf .inverse ln := fun t =>
    List.forall_mem_cons.mpr ⟨lineOf_rep (by decide) _ _, List.forall_mem_singleton.mpr (lineOf_one (by decide) _)⟩
  rw [inverseLines_eq]
  simp only [List.forall_mem_cons, List.forall_mem_append, List.forall_mem_flatMap, List.not_mem_nil, false_implies,
    implies_true, and_true]
  exact ⟨lineOf_one (by decide) _, lineOf_one (by decide) _, lineOf_one (by decide) _,
    lineOf_secondLine (by decide) q, lineOf_rep (by decide) _ _, lineOf_one (by decide) _, fun t _ => hpass t,
    lineOf_rep (firstKernelInverse_direction q) _ _, lineOf_one (by decide) _, lineOf_one (by decide) _⟩

/-- What a listing issues is a uop of one of its lines. -/
theorem exists_line_of_uopAt {l : List Line} {n : Nat} {i : Instr} (h : uopAt l n = some i) :
    ∃ ln ∈ l, ∃ m, ln.uop m = i := by
  induction l generalizing n with
  | nil => cases h
  | cons ln l ih =>
    rw [uopAt] at h
    split at h
    case isTrue =>
      cases h
      exact ⟨ln, .head _, n, rfl⟩
    case isFalse =>
      obtain ⟨ln', hmem, hm⟩ := ih h
      exact ⟨ln', .tail _ hmem, hm⟩

/-- Whatever the latches hold, the listing issues uops of the call's direction. -/
theorem isUop_of_uopAt {q : Sequencer} {n : Nat} {i : Instr} (h : uopAt (uprogLines q) n = some i) :
    IsUop i ∧ uopDirection i = q.dir := by
  obtain ⟨ln, hmem, m, rfl⟩ := exists_line_of_uopAt h
  cases hdir : q.dir with
  | forward => exact lineOf_forwardLines q ln (uprogLines_of_forward hdir ▸ hmem) m
  | inverse => exact lineOf_inverseLines q ln (uprogLines_of_inverse hdir ▸ hmem) m

/-- Settles O32: the word is that of a uop of the listing, whose direction bit is that of the call (`isUop_of_uopAt`). -/
theorem sequencerIssuesOnlyTableWords : Obligations.SequencerIssuesOnlyTableWords := by
  intro s w hword
  obtain ⟨i, hat, rfl⟩ := Option.map_eq_some_iff.mp hword
  obtain ⟨hi, hdir⟩ := isUop_of_uopAt hat
  refine ⟨⟨i, decodeUop_encode hi, rfl⟩, ?_⟩
  rw [← hdir, uopDirection]
  split
  case isTrue hbit => exact ⟨fun _ => rfl, fun _ => hbit⟩
  case isFalse hbit => exact ⟨fun h => absurd h hbit, nofun⟩

end Sys2Proof.Machine
end

section
/-! PROOF. The arithmetic of binary32: one rounding to nearest, ties to even (00_scope.md R17). A pattern without its sign is
read as a number of units of `2^−149`; the patterns of one exponent are evenly spaced. -/

namespace Sys2Proof.Machine

/-! ### The fields of a pattern -/

theorem f32Exp_eq (a : F32) : f32Exp a = a.toNat / 2 ^ 23 % 2 ^ 8 := by
  rw [f32Exp, BitVec.extractLsb'_toNat, Nat.shiftRight_eq_div_pow]

theorem f32Frac_eq (a : F32) : f32Frac a = a.toNat % 2 ^ 23 := by
  rw [f32Frac, BitVec.extractLsb'_toNat, Nat.shiftRight_zero]

theorem f32Sign_eq (a : F32) : f32Sign a = decide (2 ^ 31 ≤ a.toNat) := BitVec.msb_eq_decide a

/-- The pattern of a value without its sign bit. -/
def magBits (a : F32) : Nat := a.toNat % 2 ^ 31

/-- The magnitude a pattern without sign stands for, in units of `2^−149`. -/
def patternMag (b : Nat) : Nat :=
  if b / 2 ^ 23 = 0 then b % 2 ^ 23 else (2 ^ 23 + b % 2 ^ 23) * 2 ^ (b / 2 ^ 23 - 1)

theorem f32Mag_eq (a : F32) : f32Mag a = patternMag (magBits a) := by
  have hexp : a.toNat / 2 ^ 23 % 2 ^ 8 = magBits a / 2 ^ 23 := by unfold magBits; omega
  have hfrac : a.toNat % 2 ^ 23 = magBits a % 2 ^ 23 := by unfold magBits; omega
  rw [f32Mag, f32Exp_eq, f32Frac_eq, hexp, hfrac, patternMag]

theorem f32Finite_iff {a : F32} : f32Finite a = true ↔ magBits a < 0x7F800000 := by
  rw [f32Finite, bne_iff_ne, f32Exp_eq, magBits]
  omega

theorem f32Pack_toNat (neg : Bool) {bits : Nat} (h : bits < 2 ^ 31) :
    (f32Pack neg bits).toNat = neg.toNat * 2 ^ 31 + bits := by
  have happend : (f32Pack neg bits).toNat = (BitVec.ofBool neg ++ BitVec.ofNat 31 bits).toNat := rfl
  rw [happend, BitVec.toNat_append, BitVec.toNat_ofBool, ← Nat.shiftLeft_add_eq_or_of_lt (BitVec.isLt _),
    BitVec.toNat_ofNat, Nat.mod_eq_of_lt h, Nat.shiftLeft_eq]

@[simp] theorem f32Sign_f32Pack (neg : Bool) {bits : Nat} (h : bits < 2 ^ 31) : f32Sign (f32Pack neg bits) = neg := by
  rw [f32Sign_eq, f32Pack_toNat neg h]
  cases neg
  case false => exact decide_eq_false (by simpa using h)
  case true => exact decide_eq_true (Nat.le_add_right _ _)

theorem magBits_f32Pack (neg : Bool) {bits : Nat} (h : bits < 2 ^ 31) : magBits (f32Pack neg bits) = bits := by
  rw [magBits, f32Pack_toNat neg h]
  omega

theorem f32Int_f32Pack (neg : Bool) {bits : Nat} (h : bits < 2 ^ 31) :
    f32Int (f32Pack neg bits) = if neg then -(patternMag bits : Int) else patternMag bits := by
  rw [f32Int, f32Sign_f32Pack neg h, f32Mag_eq, magBits_f32Pack neg h]

theorem natAbs_f32Int (a : F32) : (f32Int a).natAbs = patternMag (magBits a) := by
  rw [f32Int, ← f32Mag_eq]
  split
  case isTrue => rw [Int.natAbs_neg, Int.natAbs_natCast]
  case isFalse => rw [Int.natAbs_natCast]

/-! ### The spacing of the patterns -/

/-- In the binade of exponent `e` the patterns are the multiples `r · 2^(e − 1)`; `r = 2^24` is the first of the next one, and
`e = 1` covers the subnormals. -/
theorem patternMag_binade {e r : Nat} (he : 1 ≤ e) (hr : r ≤ 2 ^ 24) (hlo : e = 1 ∨ 2 ^ 23 ≤ r) :
    patternMag ((e - 1) * 2 ^ 23 + r) = r * 2 ^ (e - 1) := by
  obtain ⟨d, rfl⟩ : ∃ d, e = d + 1 := ⟨e - 1, by omega⟩
  rw [Nat.add_sub_cancel, patternMag]
  obtain hsub | hnormal | rfl : r < 2 ^ 23 ∨ (2 ^ 23 ≤ r ∧ r < 2 ^ 24) ∨ r = 2 ^ 24 := by omega
  · obtain rfl : d = 0 := by omega
    rw [if_pos (by omega), pow_zero]
    omega
  · have hexp : (d * 2 ^ 23 + r) / 2 ^ 23 = d + 1 := by omega
    have hfrac : 2 ^ 23 + (d * 2 ^ 23 + r) % 2 ^ 23 = r := by omega
    rw [hexp, if_neg (by omega), hfrac, Nat.add_sub_cancel]
  · have hexp : (d * 2 ^ 23 + 2 ^ 24) / 2 ^ 23 = d + 2 := by omega
    have hfrac : 2 ^ 23 + (d * 2 ^ 23 + 2 ^ 24) % 2 ^ 23 = 2 ^ 23 := by omega
    rw [hexp, if_neg (by omega), hfrac, show d + 2 - 1 = d + 1 by omega, pow_succ 2 d]
    ring

/-- A pattern below the binade of exponent `e` is below its first value; any other is a multiple of the binade's spacing. -/
theorem patternMag_lt_or_dvd (b e : Nat) : patternMag b < 2 ^ 23 * 2 ^ (e - 1) ∨ 2 ^ (e - 1) ∣ patternMag b := by
  have hfrac := Nat.mod_lt b (show 0 < 2 ^ 23 by decide)
  unfold patternMag
  split
  case isTrue =>
    exact .inl (lt_of_lt_of_le hfrac (Nat.le_mul_of_pos_right _ (Nat.two_pow_pos _)))
  case isFalse hexp =>
    by_cases hlt : b / 2 ^ 23 - 1 < e - 1
    · refine .inl ?_
      have hpow : 2 * 2 ^ (b / 2 ^ 23 - 1) ≤ 2 ^ (e - 1) := by
        rw [← pow_succ']
        exact Nat.pow_le_pow_right (by decide) hlt
      have hpos := Nat.two_pow_pos (b / 2 ^ 23 - 1)
      calc (2 ^ 23 + b % 2 ^ 23) * 2 ^ (b / 2 ^ 23 - 1) < 2 ^ 24 * 2 ^ (b / 2 ^ 23 - 1) :=
            Nat.mul_lt_mul_of_pos_right (by omega) hpos
        _ = 2 ^ 23 * (2 * 2 ^ (b / 2 ^ 23 - 1)) := by ring
        _ ≤ 2 ^ 23 * 2 ^ (e - 1) := Nat.mul_le_mul_left _ hpow
    · exact .inr (Dvd.dvd.mul_left (Nat.pow_dvd_pow 2 (by omega)) _)

/-! ### Rounding to a multiple -/

/-- `roundShift` is within half a step, and half a step away only when it is even. -/
theorem roundShift_spec (n : Nat) {k : Nat} (hk : 1 ≤ k) :
    2 * (roundShift n k * 2 ^ k) ≤ 2 * n + 2 ^ k ∧ 2 * n ≤ 2 * (roundShift n k * 2 ^ k) + 2 ^ k ∧
      (2 * (roundShift n k * 2 ^ k) = 2 * n + 2 ^ k ∨ 2 * n = 2 * (roundShift n k * 2 ^ k) + 2 ^ k →
        roundShift n k % 2 = 0) := by
  have hhalf : 2 ^ k = 2 * 2 ^ (k - 1) := by rw [← pow_succ', Nat.sub_add_cancel hk]
  have hdiv := Nat.div_add_mod n (2 ^ k)
  have hmod := Nat.mod_lt n (Nat.two_pow_pos k)
  rw [mul_comm] at hdiv
  unfold roundShift
  dsimp only
  generalize n / 2 ^ k = q at *
  generalize n % 2 ^ k = r at *
  generalize 2 ^ (k - 1) = half at *
  split
  case isTrue h =>
    rw [Nat.add_mul, Nat.one_mul]
    generalize q * 2 ^ k = x at *
    omega
  case isFalse h =>
    generalize q * 2 ^ k = x at *
    omega

/-- A multiple within half a step is nearest among the multiples, and another is as near only at exactly half a step. -/
theorem nearest_multiple {p r n c : Int} (hlo : 2 * (r * p) ≤ 2 * n + p) (hhi : 2 * n ≤ 2 * (r * p) + p) (hp : 0 < p) :
    |r * p - n| ≤ |c * p - n| ∧
      (|c * p - n| = |r * p - n| → c ≠ r → 2 * (r * p) = 2 * n + p ∨ 2 * n = 2 * (r * p) + p) := by
  obtain rfl | hne := eq_or_ne c r
  · exact ⟨le_rfl, fun _ h => absurd rfl h⟩
  · have hstep : c * p ≤ r * p - p ∨ r * p + p ≤ c * p := by
      obtain hlt | hgt := lt_or_gt_of_ne hne
      · exact .inl (by nlinarith)
      · exact .inr (by nlinarith)
    rcases abs_cases (r * p - n) with h | h <;> rcases abs_cases (c * p - n) with h' | h' <;> constructor <;> omega

/-- The exponent `e` and the significand `r` that `roundMag` gives `n · 2^−298`: `r` steps of `2^(e + 148)`. -/
structure Rounding (n e r : Nat) : Prop where
  e_pos : 1 ≤ e
  below : n < 2 ^ 24 * 2 ^ (e + 148)
  le : 2 * (r * 2 ^ (e + 148)) ≤ 2 * n + 2 ^ (e + 148)
  ge : 2 * n ≤ 2 * (r * 2 ^ (e + 148)) + 2 ^ (e + 148)
  even : 2 * (r * 2 ^ (e + 148)) = 2 * n + 2 ^ (e + 148) ∨ 2 * n = 2 * (r * 2 ^ (e + 148)) + 2 ^ (e + 148) → r % 2 = 0
  normal : e = 1 ∨ 2 ^ 23 * 2 ^ (e + 148) ≤ n

theorem exists_rounding (n : Nat) :
    ∃ e r, Rounding n e r ∧ roundMag n = min ((e - 1) * 2 ^ 23 + r) 0x7F800000 := by
  have hspec := roundShift_spec n (k := max (Nat.log2 n - 171) 1 + 148) (by omega)
  refine ⟨max (Nat.log2 n - 171) 1, _, ⟨le_max_right _ _, ?_, hspec.1, hspec.2.1, hspec.2.2, ?_⟩, rfl⟩
  · rw [← pow_add]
    exact lt_of_lt_of_le Nat.lt_log2_self (Nat.pow_le_pow_right (by decide) (by omega))
  · by_cases hlog : Nat.log2 n ≤ 172
    · exact .inl (by omega)
    · refine .inr ?_
      have hn : n ≠ 0 := by
        rintro rfl
        exact hlog (by decide)
      rw [← pow_add]
      exact (Nat.pow_le_pow_right (by decide) (by omega)).trans (Nat.log2_self_le hn)

namespace Rounding

variable {n e r : Nat} (h : Rounding n e r)
include h

theorem significand_le : r ≤ 2 ^ 24 := by
  have hpos := Nat.two_pow_pos (e + 148)
  have hlt := h.below
  have hle := h.le
  generalize 2 ^ (e + 148) = p at *
  by_contra hr
  have : (2 ^ 24 + 1) * p ≤ r * p := Nat.mul_le_mul_right p (by omega)
  omega

theorem significand_ge : e = 1 ∨ 2 ^ 23 ≤ r := by
  refine h.normal.imp_right fun hn => ?_
  have hpos := Nat.two_pow_pos (e + 148)
  have hge := h.ge
  generalize 2 ^ (e + 148) = p at *
  by_contra hr
  have : r * p ≤ (2 ^ 23 - 1) * p := Nat.mul_le_mul_right p (by omega)
  omega

/-- The value of the rounded pattern, in units of `2^−298`. -/
theorem patternMag_eq : patternMag ((e - 1) * 2 ^ 23 + r) * 2 ^ 149 = r * 2 ^ (e + 148) := by
  rw [patternMag_binade h.e_pos h.significand_le h.significand_ge, mul_assoc, ← pow_add]
  congr 2
  have := h.e_pos
  omega

/-- From the threshold `2^128 − 2^103` on the pattern reaches the infinity, and below it stays finite: in the last binade,
`e = 254`, the threshold is half a step below `2^24` steps. -/
theorem overflow_iff {p : Nat} (hp : p = 2 ^ (252 + 149)) :
    (2 ^ 25 - 1) * p ≤ n ↔ 0x7F800000 ≤ (e - 1) * 2 ^ 23 + r := by
  have hsig := h.significand_le
  have hsig' := h.significand_ge
  have hpos : 0 < p := by
    rw [hp]
    exact pow_pos Nat.two_pos _
  obtain hlt | rfl | hgt : e ≤ 253 ∨ e = 254 ∨ 255 ≤ e := by omega
  · have hbelow := h.below
    have hpow : 2 ^ (e + 148) ≤ p := by
      rw [hp]
      exact pow_le_pow_right₀ (by decide) (by omega)
    generalize 2 ^ (e + 148) = p' at *
    omega
  · have hbelow := h.below
    have hle := h.le
    have hge := h.ge
    have heven := h.even
    have hpow : 2 ^ (254 + 148) = 2 * p := by rw [hp, ← pow_succ']
    rw [hpow] at hbelow hle hge heven
    constructor
    · intro hn
      by_contra hr
      obtain rfl | hr : r = 2 ^ 24 - 1 ∨ r ≤ 2 ^ 24 - 2 := by omega
      · omega
      · have : r * (2 * p) ≤ (2 ^ 24 - 2) * (2 * p) := Nat.mul_le_mul_right _ hr
        omega
    · intro hr
      obtain rfl : r = 2 ^ 24 := by omega
      omega
  · have hnormal := h.normal
    have hpow : 4 * p ≤ 2 ^ (e + 148) := by
      rw [hp, show (4 : Nat) = 2 ^ 2 by decide, ← pow_add]
      exact pow_le_pow_right₀ (by decide) (by omega)
    generalize 2 ^ (e + 148) = p' at *
    omega

/-- No finite value is nearer than the rounded one, and where one is as near the significand is even. A value that is no
multiple of the step lies below the binade, and the binade's first value is nearer. -/
theorem nearest (b : Nat) {c : Int} (hc : c.natAbs = patternMag b) :
    |(r * 2 ^ (e + 148) : Int) - n| ≤ |c * 2 ^ 149 - n| ∧
      (|c * 2 ^ 149 - n| = |(r * 2 ^ (e + 148) : Int) - n| → c * 2 ^ 149 ≠ r * 2 ^ (e + 148) → r % 2 = 0) := by
  have hp : (0 : Int) < 2 ^ (e + 148) := by positivity
  have hle : 2 * ((r : Int) * 2 ^ (e + 148)) ≤ 2 * n + 2 ^ (e + 148) := by exact_mod_cast h.le
  have hge : 2 * (n : Int) ≤ 2 * (r * 2 ^ (e + 148)) + 2 ^ (e + 148) := by exact_mod_cast h.ge
  have heven := h.even
  have hstep : (2 : Int) ^ (e + 148) = 2 ^ (e - 1) * 2 ^ 149 := by
    rw [← pow_add]
    congr 1
    have := h.e_pos
    omega
  by_cases hdvd : 2 ^ (e - 1) ∣ patternMag b
  · obtain ⟨d, rfl⟩ : (2 : Int) ^ (e - 1) ∣ c := by
      rw [← Int.dvd_natAbs, hc]
      exact_mod_cast hdvd
    have hmul : 2 ^ (e - 1) * d * 2 ^ 149 = d * (2 : Int) ^ (e + 148) := by rw [hstep]; ring
    obtain ⟨hnear, htie⟩ := nearest_multiple hle hge hp (c := d)
    rw [hmul]
    refine ⟨hnear, fun heq hne => heven ?_⟩
    have hd : d ≠ r := by
      rintro rfl
      exact hne rfl
    exact_mod_cast htie heq hd
  · have hsmall := (patternMag_lt_or_dvd b e).resolve_right hdvd
    have hnormal : (2 : Int) ^ 23 * 2 ^ (e + 148) ≤ n := by
      have hn := h.normal.resolve_left (by rintro rfl; exact hdvd (one_dvd _))
      exact_mod_cast hn
    have hcabs : c < 2 ^ 23 * 2 ^ (e - 1) := by
      have : (c.natAbs : Int) < 2 ^ 23 * 2 ^ (e - 1) := by exact_mod_cast hc ▸ hsmall
      omega
    have hbelow : c * 2 ^ 149 < 2 ^ 23 * 2 ^ (e + 148) := by
      rw [hstep, ← mul_assoc]
      exact mul_lt_mul_of_pos_right hcabs (by positivity)
    obtain ⟨hnear, -⟩ := nearest_multiple hle hge hp (c := 2 ^ 23)
    have hlt : |(r * 2 ^ (e + 148) : Int) - n| < |c * 2 ^ 149 - n| := by
      refine lt_of_le_of_lt hnear ?_
      rw [abs_of_nonpos (by omega), abs_of_nonpos (by omega)]
      omega
    exact ⟨hlt.le, fun heq => absurd heq hlt.ne'⟩

end Rounding

/-! ### The rounded value -/

/-- A number with a sign. -/
def signed (neg : Bool) (n : Int) : Int := if neg then -n else n

theorem abs_signed_sub_signed (neg : Bool) (a b : Int) : |signed neg a - signed neg b| = |a - b| := by
  cases neg
  case false => rfl
  case true =>
    show |-a - -b| = |a - b|
    rw [← abs_neg (a - b)]
    congr 1
    ring

theorem signed_signed (neg : Bool) (a : Int) : signed neg (signed neg a) = a := by
  cases neg
  case false => rfl
  case true => exact neg_neg a

theorem abs_signed (neg : Bool) (a : Int) : |signed neg a| = |a| := by
  cases neg
  case false => rfl
  case true => exact abs_neg a

theorem signed_mul (neg : Bool) (a b : Int) : signed neg (a * b) = signed neg a * b := by
  cases neg
  case false => rfl
  case true => exact (neg_mul a b).symm

/-- A pattern is even where its fields without the sign are. -/
theorem getLsbD_zero_f32Pack (neg : Bool) {bits : Nat} (h : bits < 2 ^ 31) (heven : bits % 2 = 0) :
    (f32Pack neg bits).getLsbD 0 = false := by
  rw [BitVec.getLsbD, f32Pack_toNat neg h, Nat.testBit_zero, decide_eq_false_iff_not]
  omega

/-- `roundMag` is one rounding to nearest of `n · 2^−298`, ties to the even pattern, overflow to infinity. -/
theorem roundsTo_roundMag (neg : Bool) (n : Nat) : RoundsTo (f32Pack neg (roundMag n)) (signed neg n) 149 := by
  obtain ⟨e, r, h, hround⟩ := exists_rounding n
  have habs : |signed neg n| = (n : Int) := (abs_signed neg n).trans (Nat.abs_cast n)
  have hthreshold : (2 : Int) ^ (277 + 149) - 2 ^ (252 + 149) ≤ n ↔ (2 ^ 25 - 1) * 2 ^ (252 + 149) ≤ n := by
    have hsplit : (2 : Int) ^ (277 + 149) - 2 ^ (252 + 149) = ((2 ^ 25 - 1) * 2 ^ (252 + 149) : Nat) := by
      rw [show 277 + 149 = 25 + (252 + 149) from rfl, pow_add, ← sub_one_mul, Nat.cast_mul, Nat.cast_pow, Nat.cast_ofNat]
      exact congrArg (· * (2 : Int) ^ (252 + 149)) (by norm_num)
    rw [hsplit, Nat.cast_le]
  refine ⟨fun hsmall => ?_, fun hlarge => ?_⟩
  · have hbits : (e - 1) * 2 ^ 23 + r < 0x7F800000 := by
      rw [habs, ← not_le, hthreshold, h.overflow_iff rfl, not_le] at hsmall
      exact hsmall
    rw [hround, min_eq_left hbits.le]
    have hlt : (e - 1) * 2 ^ 23 + r < 2 ^ 31 := hbits.trans (by decide)
    have hvalue : f32Int (f32Pack neg ((e - 1) * 2 ^ 23 + r)) * 2 ^ 149 = signed neg (r * 2 ^ (e + 148)) := by
      have hmag : (patternMag ((e - 1) * 2 ^ 23 + r) : Int) * 2 ^ 149 = r * 2 ^ (e + 148) := by
        exact_mod_cast h.patternMag_eq
      rw [f32Int_f32Pack neg hlt, ← hmag, signed_mul]
      rfl
    refine ⟨f32Finite_iff.mpr (by rwa [magBits_f32Pack neg hlt]), fun c _ => ?_⟩
    have hc : (signed neg (f32Int c)).natAbs = patternMag (magBits c) := by
      rw [← natAbs_f32Int, signed]
      split
      case isTrue => exact Int.natAbs_neg _
      case isFalse => rfl
    have hcvalue : f32Int c * 2 ^ 149 = signed neg (signed neg (f32Int c) * 2 ^ 149) := by
      rw [← signed_mul, signed_signed]
    obtain ⟨hnear, htie⟩ := h.nearest _ hc
    rw [hvalue, hcvalue, abs_signed_sub_signed, abs_signed_sub_signed]
    refine ⟨hnear, fun heq hne => getLsbD_zero_f32Pack neg hlt ?_⟩
    have heven := htie heq fun hsame => hne ?_
    · omega
    · rw [hsame, ← hvalue] at hcvalue
      exact mul_right_cancel₀ (by positivity) hcvalue
  · rw [habs, hthreshold, h.overflow_iff rfl] at hlarge
    rw [hround, min_eq_right hlarge]
    have hn := (h.overflow_iff rfl).mpr hlarge
    have hpos : (0 : Int) < n := Int.natCast_pos.mpr (lt_of_lt_of_le (by positivity) hn)
    cases neg
    case false => exact (if_neg (not_lt.mpr hpos.le)).symm
    case true => exact (if_pos (neg_neg_of_pos hpos)).symm

/-- Rounding does not depend on the unit the exact value is written in. -/
theorem roundsTo_of_scaled {r : F32} {exact : Int} {u : Nat} (h : RoundsTo r (exact * 2 ^ u) u) :
    RoundsTo r exact 0 := by
  obtain ⟨hfinite, hinfinite⟩ := h
  have hu : (0 : Int) < 2 ^ u := by positivity
  have habs : |exact * 2 ^ u| = |exact| * 2 ^ u := by rw [abs_mul, abs_of_pos hu]
  have hthreshold : (2 : Int) ^ (277 + u) - 2 ^ (252 + u) = (2 ^ (277 + 0) - 2 ^ (252 + 0)) * 2 ^ u := by
    rw [pow_add, pow_add, sub_mul, add_zero, add_zero]
  have hdist : ∀ c : F32, |f32Int c * 2 ^ u - exact * 2 ^ u| = |f32Int c * 2 ^ 0 - exact| * 2 ^ u := fun c => by
    rw [← sub_mul, abs_mul, abs_of_pos hu, pow_zero, mul_one]
  have hneg : exact * 2 ^ u < 0 ↔ exact < 0 :=
    ⟨fun h => neg_of_mul_neg_left h hu.le, fun h => mul_neg_of_neg_of_pos h hu⟩
  refine ⟨fun hsmall => ?_, fun hlarge => ?_⟩
  · obtain ⟨hf, hnear⟩ := hfinite (by rw [habs, hthreshold]; exact mul_lt_mul_of_pos_right hsmall hu)
    refine ⟨hf, fun c hc => ?_⟩
    obtain ⟨hle, htie⟩ := hnear c hc
    rw [hdist, hdist] at hle htie
    exact ⟨le_of_mul_le_mul_right hle hu, fun heq => htie (congrArg (· * 2 ^ u) heq)⟩
  · have hr := hinfinite (by rw [habs, hthreshold]; exact mul_le_mul_of_nonneg_right hlarge hu.le)
    simpa only [hneg] using hr

/-! ### The operations on finite values -/

theorem f32Int_eq_signed (a : F32) : f32Int a = signed (f32Sign a) (f32Mag a) := rfl

theorem getLsbD_eq_testBit (a : F32) (n : Nat) : a.getLsbD n = a.toNat.testBit n := rfl

/-- Negation keeps the magnitude. -/
theorem magBits_fneg (a : F32) : magBits (fneg a) = magBits a := by
  refine Nat.eq_of_testBit_eq fun i => ?_
  rw [magBits, magBits, Nat.testBit_mod_two_pow, Nat.testBit_mod_two_pow]
  by_cases hi : i < 31
  · rw [← getLsbD_eq_testBit, ← getLsbD_eq_testBit, getLsbD_fneg_of_ne a (by omega)]
  · rw [decide_eq_false hi, Bool.false_and, Bool.false_and]

theorem f32Sign_fneg (a : F32) : f32Sign (fneg a) = !f32Sign a := by
  rw [f32Sign, f32Sign, BitVec.msb_eq_getLsbD_last, BitVec.msb_eq_getLsbD_last]
  exact getLsbD_fneg_sign a

theorem f32Mag_fneg (a : F32) : f32Mag (fneg a) = f32Mag a := by rw [f32Mag_eq, f32Mag_eq, magBits_fneg]

theorem f32Int_fneg (a : F32) : f32Int (fneg a) = -f32Int a := by
  rw [f32Int_eq_signed, f32Int_eq_signed, f32Sign_fneg, f32Mag_fneg]
  cases f32Sign a
  case false => rfl
  case true => exact (neg_neg _).symm

/-- A finite value is neither a NaN nor an infinity. -/
theorem not_special_of_finite {a : F32} (h : f32Finite a = true) : f32IsNaN a = false ∧ f32IsInf a = false := by
  have hexp : (f32Exp a == 255) = false := by simpa [f32Finite] using h
  simp [f32IsNaN, f32IsInf, hexp]

theorem fadd_of_finite {a b : F32} (ha : f32Finite a = true) (hb : f32Finite b = true) :
    fadd a b = addFinite a b := by
  obtain ⟨hna, hia⟩ := not_special_of_finite ha
  obtain ⟨hnb, hib⟩ := not_special_of_finite hb
  simp [fadd, hna, hia, hnb, hib]

theorem fsub_of_finite {a b : F32} (ha : f32Finite a = true) (hb : f32Finite b = true) :
    fsub a b = addFinite a (fneg b) := by
  obtain ⟨hna, hia⟩ := not_special_of_finite ha
  obtain ⟨hnb, hib⟩ := not_special_of_finite hb
  simp [fsub, hna, hia, hnb, hib]

theorem fmul_of_finite {a b : F32} (ha : f32Finite a = true) (hb : f32Finite b = true) :
    fmul a b = f32Pack (f32Sign a != f32Sign b) (roundMag (f32Mag a * f32Mag b)) := by
  obtain ⟨hna, hia⟩ := not_special_of_finite ha
  obtain ⟨hnb, hib⟩ := not_special_of_finite hb
  simp [fmul, hna, hia, hnb, hib]

theorem roundMag_zero : roundMag 0 = 0 := by decide

/-- The sum of finite values is the exact sum rounded, whatever sign an exact zero takes. -/
theorem roundsTo_addFinite (a b : F32) : RoundsTo (addFinite a b) (f32Int a + f32Int b) 0 := by
  refine roundsTo_of_scaled (u := 149) ?_
  unfold addFinite
  dsimp only
  split
  case isTrue h0 =>
    have h := roundsTo_roundMag (f32Sign a && f32Sign b) 0
    rw [roundMag_zero] at h
    rw [h0, zero_mul]
    have hzero : signed (f32Sign a && f32Sign b) ((0 : Nat) : Int) = 0 := by
      cases f32Sign a && f32Sign b <;> rfl
    rwa [hzero] at h
  case isFalse =>
    generalize f32Int a + f32Int b = t
    have h := roundsTo_roundMag (decide (t < 0)) (t.natAbs * 2 ^ 149)
    have hvalue : signed (decide (t < 0)) ((t.natAbs * 2 ^ 149 : Nat) : Int) = t * 2 ^ 149 := by
      rw [Nat.cast_mul, signed_mul, Nat.cast_pow, Nat.cast_ofNat]
      congr 1
      by_cases hneg : t < 0
      · rw [decide_eq_true hneg, signed, if_pos rfl]
        omega
      · rw [decide_eq_false hneg, signed, if_neg (by decide)]
        omega
    rwa [hvalue] at h

/-- Settles O17: both operations are one rounding of the exact sum (`roundsTo_addFinite`), the difference by the negated
operand. -/
theorem finiteSumIsCorrectlyRounded : Obligations.FiniteSumIsCorrectlyRounded := by
  intro a b ha hb
  rw [fadd_of_finite ha hb, fsub_of_finite ha hb]
  refine ⟨roundsTo_addFinite a b, ?_⟩
  have h := roundsTo_addFinite a (fneg b)
  rwa [f32Int_fneg, ← sub_eq_add_neg] at h

/-- Settles O18: the product of the magnitudes under the sign of the factors is rounded once (`roundsTo_roundMag`). -/
theorem finiteProductIsCorrectlyRounded : Obligations.FiniteProductIsCorrectlyRounded := by
  intro a b ha hb
  have h := roundsTo_roundMag (f32Sign a != f32Sign b) (f32Mag a * f32Mag b)
  have hvalue : signed (f32Sign a != f32Sign b) ((f32Mag a * f32Mag b : Nat) : Int) = f32Int a * f32Int b := by
    rw [f32Int_eq_signed, f32Int_eq_signed, Nat.cast_mul]
    cases f32Sign a <;> cases f32Sign b <;> simp [signed]
  rwa [hvalue, ← fmul_of_finite ha hb] at h

/-- Settles O20: for each of the 21 values of `K`, and the listed patterns, by evaluation. -/
theorem scaleConstantIsTheReciprocalOfTheLength : Obligations.ScaleConstantIsTheReciprocalOfTheLength := by
  refine ⟨fun k hlo hhi => ?_, by decide⟩
  have hall : ∀ k, k < 25 → 4 ≤ k → f32Finite (scaleConstant (BitVec.ofNat 5 k)) = true ∧
      f32Int (scaleConstant (BitVec.ofNat 5 k)) * 2 ^ k = 2 ^ 149 := by decide
  exact hall k (by omega) hlo

end Sys2Proof.Machine
end

section
/-! PROOF. Zeros, infinities and NaNs of `fadd`, `fsub` and `fmul` (00_scope.md R17, R19). -/

namespace Sys2Proof.Machine

/-! ### The three classes of special values -/

theorem not_nan_of_inf {a : F32} (h : f32IsInf a = true) : f32IsNaN a = false := by
  simp_all [f32IsInf, f32IsNaN]

theorem not_nan_of_zero {a : F32} (h : f32IsZero a = true) : f32IsNaN a = false := by
  simp_all [f32IsZero, f32IsNaN]

theorem not_inf_of_zero {a : F32} (h : f32IsZero a = true) : f32IsInf a = false := by
  simp_all [f32IsZero, f32IsInf]

theorem f32Exp_fneg (a : F32) : f32Exp (fneg a) = f32Exp a := by
  have h := magBits_fneg a
  rw [f32Exp_eq, f32Exp_eq]
  unfold magBits at h
  omega

theorem f32Frac_fneg (a : F32) : f32Frac (fneg a) = f32Frac a := by
  have h := magBits_fneg a
  rw [f32Frac_eq, f32Frac_eq]
  unfold magBits at h
  omega

theorem f32IsInf_fneg (a : F32) : f32IsInf (fneg a) = f32IsInf a := by
  rw [f32IsInf, f32IsInf, f32Exp_fneg, f32Frac_fneg]

theorem f32Mag_of_zero {a : F32} (h : f32IsZero a = true) : f32Mag a = 0 := by
  simp_all [f32IsZero, f32Mag]

theorem roundMag_lt (n : Nat) : roundMag n < 2 ^ 31 := lt_of_le_of_lt (min_le_right _ _) (by decide)

theorem f32IsZero_f32Pack_zero (neg : Bool) : f32IsZero (f32Pack neg 0) = true := by
  cases neg <;> decide

/-! ### Zeros -/

theorem f32Zero_eq (neg : Bool) : f32Zero neg = if neg then 0x80000000#32 else 0x00000000#32 := by
  cases neg <;> decide

/-- An exact zero is `−0.0` only where both operands are negative. -/
theorem addFinite_of_zero {a b : F32} (h : f32Int a + f32Int b = 0) :
    addFinite a b = if f32Sign a && f32Sign b then 0x80000000#32 else 0x00000000#32 := by
  rw [addFinite, h, if_pos rfl, f32Zero_eq]

theorem fadd_of_zero_sum {a b : F32} (ha : f32Finite a = true) (hb : f32Finite b = true)
    (h : f32Int a + f32Int b = 0) : fadd a b = if f32Sign a && f32Sign b then 0x80000000#32 else 0x00000000#32 := by
  rw [fadd_of_finite ha hb, addFinite_of_zero h]

theorem fsub_of_zero_difference {a b : F32} (ha : f32Finite a = true) (hb : f32Finite b = true)
    (h : f32Int a - f32Int b = 0) : fsub a b = if f32Sign a && !f32Sign b then 0x80000000#32 else 0x00000000#32 := by
  rw [fsub_of_finite ha hb, addFinite_of_zero (by rw [f32Int_fneg]; exact h), f32Sign_fneg]

theorem f32Sign_fmul {a b : F32} (ha : f32Finite a = true) (hb : f32Finite b = true) :
    f32Sign (fmul a b) = (f32Sign a != f32Sign b) := by
  rw [fmul_of_finite ha hb, f32Sign_f32Pack _ (roundMag_lt _)]

theorem f32IsZero_fmul {a b : F32} (ha : f32Finite a = true) (hb : f32Finite b = true)
    (h : f32IsZero a = true ∨ f32IsZero b = true) : f32IsZero (fmul a b) = true := by
  have hmag : f32Mag a * f32Mag b = 0 := by
    obtain h | h := h
    · rw [f32Mag_of_zero h, Nat.zero_mul]
    · rw [f32Mag_of_zero h, Nat.mul_zero]
  rw [fmul_of_finite ha hb, hmag, roundMag_zero]
  exact f32IsZero_f32Pack_zero _

/-! ### Infinities -/

section
variable {a b : F32} (ha : f32IsInf a = true)
include ha

/-- An infinity absorbs a finite operand, and another infinity of its sign. -/
theorem fadd_of_inf (hb : f32Finite b = true ∨ b = a) : fadd a b = a ∧ fadd b a = a := by
  have hna := not_nan_of_inf ha
  obtain hb | rfl := hb
  · obtain ⟨hnb, hib⟩ := not_special_of_finite hb
    simp [fadd, hna, hnb, ha, hib]
  · simp [fadd, hna, ha]

theorem fsub_of_inf (hb : f32Finite b = true ∨ b = fneg a) : fsub a b = a ∧ fsub b a = fneg a := by
  have hna := not_nan_of_inf ha
  obtain hb | rfl := hb
  · obtain ⟨hnb, hib⟩ := not_special_of_finite hb
    simp [fsub, hna, hnb, ha, hib]
  · have hin : f32IsInf (fneg a) = true := (f32IsInf_fneg a).trans ha
    have hsign := f32Sign_fneg a
    cases hs : f32Sign a <;> simp [fsub, hna, not_nan_of_inf hin, ha, hin, hsign, hs]

/-- The product of an infinity and a value that is neither a NaN nor a zero is the infinity of the product's sign. -/
theorem fmul_of_inf (hnan : f32IsNaN b = false) (hzero : f32IsZero b = false) :
    fmul a b = f32Inf (f32Sign a != f32Sign b) ∧ fmul b a = f32Inf (f32Sign b != f32Sign a) := by
  have hza : f32IsZero a = false := Bool.eq_false_iff.mpr fun h =>
    Bool.false_ne_true ((not_inf_of_zero h).symm.trans ha)
  simp [fmul, not_nan_of_inf ha, hnan, ha, hza, hzero]

/-- The invalid sums: infinities of opposite signs. -/
theorem fadd_of_opposite_inf (hb : f32IsInf b = true) (hs : f32Sign a ≠ f32Sign b) :
    fadd a b = nanResult .add a b := by
  simp [fadd, not_nan_of_inf ha, not_nan_of_inf hb, ha, hb, hs]

/-- The invalid differences: infinities of one sign. -/
theorem fsub_of_same_inf (hb : f32IsInf b = true) (hs : f32Sign a = f32Sign b) :
    fsub a b = nanResult .sub a b := by
  simp [fsub, not_nan_of_inf ha, not_nan_of_inf hb, ha, hb, hs]

/-- The invalid products: an infinity and a zero. -/
theorem fmul_of_inf_zero (hb : f32IsZero b = true) :
    fmul a b = nanResult .mul a b ∧ fmul b a = nanResult .mul b a := by
  simp [fmul, not_nan_of_inf ha, not_nan_of_zero hb, ha, hb]

end

theorem f32Inf_eq (x y : Bool) : f32Inf (x != y) = if x = y then 0x7F800000#32 else 0xFF800000#32 := by
  cases x <;> cases y <;> decide

/-! ### NaNs -/

theorem nan_of_operand {a b : F32} (h : f32IsNaN a = true ∨ f32IsNaN b = true) :
    fadd a b = nanResult .add a b ∧ fsub a b = nanResult .sub a b ∧ fmul a b = nanResult .mul a b := by
  have hor : (f32IsNaN a || f32IsNaN b) = true := (Bool.or_eq_true _ _).mpr h
  exact ⟨if_pos hor, if_pos hor, if_pos hor⟩

/-- What an operation generates is a quiet NaN. -/
theorem quietNaN_of_eq {r : F32} {op : NumOp} {a b : F32} (h : r = nanResult op a b) :
    f32IsNaN r = true ∧ r.getLsbD 22 = true :=
  h ▸ ⟨nanResult_isNaN op a b, nanResult_quiet op a b⟩

/-- Settles O19: zeros, infinities and NaNs, each by the branch of the operation it takes. -/
theorem zerosAndNaNsOfTheArithmetic : Obligations.ZerosAndNaNsOfTheArithmetic := by
  refine ⟨fun x hx => ?_, by decide, by decide, fun a b ha hb => ⟨fadd_of_zero_sum ha hb,
    fsub_of_zero_difference ha hb, f32Sign_fmul ha hb, f32IsZero_fmul ha hb⟩,
    fun a b ha => ⟨fadd_of_inf ha, fsub_of_inf ha, fun hnan hzero => ?_⟩, fun a b h => ?_, fun a b ha hb =>
    ⟨fun hs => quietNaN_of_eq (fadd_of_opposite_inf ha hb hs), fun hs => quietNaN_of_eq (fsub_of_same_inf ha hb hs)⟩,
    fun a b ha hb => ?_⟩
  · rw [fsub_of_zero_difference hx hx (sub_self _), Bool.and_not_self]
    rfl
  · obtain ⟨hab, hba⟩ := fmul_of_inf ha hnan hzero
    rw [hab, hba, f32Inf_eq, f32Inf_eq]
    exact ⟨rfl, if_congr eq_comm rfl rfl⟩
  · obtain ⟨hadd, hsub, hmul⟩ := nan_of_operand h
    simp only [List.forall_mem_cons, List.not_mem_nil, false_implies, implies_true, and_true]
    exact ⟨quietNaN_of_eq hadd, quietNaN_of_eq hsub, quietNaN_of_eq hmul⟩
  · obtain ⟨hab, hba⟩ := fmul_of_inf_zero ha hb
    obtain ⟨h1, h2⟩ := quietNaN_of_eq hab
    obtain ⟨h3, h4⟩ := quietNaN_of_eq hba
    exact ⟨h1, h2, h3, h4⟩

end Sys2Proof.Machine
end

section
/-! PROOF. The butterflies of one pass: their element maps are injective inside the buffer, and the kernels read and store
the elements of their maps (40_r4f.md R123, 41_r4t.md R132, 42_r8.md R143, 43_sequencer.md R168). -/

namespace Sys2Proof.Machine

/-! ### The element maps as two digits of one number -/

/-- A number below `w` and a multiple of `w` are told apart in their sum. -/
theorem add_mul_injective {w a a' p p' : Nat} (ha : a < w) (ha' : a' < w) (h : a + p * w = a' + p' * w) :
    a = a' ∧ p = p' := by
  have hw : 0 < w := by omega
  have hmod := congrArg (· % w) h
  have hdiv := congrArg (· / w) h
  simp only [Nat.add_mul_mod_self_right, Nat.mod_eq_of_lt ha, Nat.mod_eq_of_lt ha', Nat.add_mul_div_right _ _ hw,
    Nat.div_eq_of_lt ha, Nat.div_eq_of_lt ha', Nat.zero_add] at hmod hdiv
  exact ⟨hmod, hdiv⟩

theorem add_mul_lt {w a p c : Nat} (ha : a < w) (hp : p < c) : a + p * w < c * w :=
  calc a + p * w < (p + 1) * w := by rw [Nat.succ_mul]; omega
    _ ≤ c * w := Nat.mul_le_mul_right w hp

/-- The strided elements of butterfly `b` start at `b` and are `m·F` apart. -/
theorem r4tStrided_eq (q : Sequencer) (b p : Nat) : r4tStrided q b p = b + p * (stageM q * stageF q) := by
  rw [r4tStrided_eq_add_mul, Nat.div_add_mod' b (stageM q)]

/-- The blocked elements: the offset in the block, and block and output as one number. -/
theorem r4tBlocked_eq (q : Sequencer) (b u : Nat) :
    r4tBlocked q b u = b % stageM q + (u + b / stageM q * 4) * stageM q := by
  rw [r4tBlocked_eq_add_mul]
  ring

theorem r4tBlocked_injective {q : Sequencer} {b u b' u' : Nat} (hm : 1 ≤ stageM q) (hu : u < 4) (hu' : u' < 4)
    (h : r4tBlocked q b u = r4tBlocked q b' u') : b = b' ∧ u = u' := by
  rw [r4tBlocked_eq, r4tBlocked_eq] at h
  obtain ⟨hmod, hrest⟩ := add_mul_injective (Nat.mod_lt b hm) (Nat.mod_lt b' hm) h
  obtain ⟨hout, hdiv⟩ := add_mul_injective hu hu' hrest
  refine ⟨?_, hout⟩
  rw [← Nat.div_add_mod b (stageM q), ← Nat.div_add_mod b' (stageM q), hmod, hdiv]

theorem r4tBlocked_lt {q : Sequencer} {b u : Nat} (hm : 1 ≤ stageM q) (hb : b < stageM q * stageF q) (hu : u < 4) :
    r4tBlocked q b u < 4 * (stageM q * stageF q) := by
  have hdiv : b / stageM q < stageF q := Nat.div_lt_of_lt_mul hb
  calc r4tBlocked q b u < stageF q * 4 * stageM q := by
        rw [r4tBlocked_eq]
        exact add_mul_lt (Nat.mod_lt b hm) (add_mul_lt hu hdiv)
    _ = 4 * (stageM q * stageF q) := by ring

theorem firstBlocked_eq (r f u : Nat) : firstBlocked r f u = u + f * r := by
  unfold firstBlocked
  ring

/-! ### What the kernels store -/

theorem storesInElements_lanes (base : Word) {us : List Nat} {count : Nat} (e : Nat → Nat) (v : Nat → Nat → Cplx)
    (hus : ∀ u ∈ us, u < count) :
    StoresInElements base e count (lanes.flatMap fun q => us.flatMap fun u => storeV base (e u) q (v q u)) := by
  intro st hst
  obtain ⟨q, hq, hst⟩ := List.mem_flatMap.mp hst
  obtain ⟨u, hu, hst⟩ := List.mem_flatMap.mp hst
  simp only [storeV, storeC, List.mem_cons, List.not_mem_nil, or_false] at hst
  exact ⟨u, q, hus u hu, mem_lanes.mp hq, hst.imp (congrArg Store.addr) (congrArg Store.addr)⟩

theorem storesInRealElements_lanes (base : Word) {us : List Nat} {count : Nat} (e : Nat → Nat) (v : Nat → Nat → F32)
    (hus : ∀ u ∈ us, u < count) :
    StoresInRealElements base e count (lanes.flatMap fun q => us.flatMap fun u => storeR base (e u) q (v q u)) := by
  intro st hst
  obtain ⟨q, hq, hst⟩ := List.mem_flatMap.mp hst
  obtain ⟨u, hu, hst⟩ := List.mem_flatMap.mp hst
  exact ⟨u, q, hus u hu, mem_lanes.mp hq, congrArg Store.addr (List.mem_singleton.mp hst)⟩

/-! ### What the stores depend on -/

theorem quadOf_congr {α : Type} {g g' : Nat → α} (h : ∀ p, p < 4 → g p = g' p) : quadOf g = quadOf g' := by
  rw [quadOf, quadOf, h 0 (by decide), h 1 (by decide), h 2 (by decide), h 3 (by decide)]

theorem bfly8Fwd_congr {a a' : Nat → Cplx} (h : ∀ p, p < 8 → a p = a' p) (v : Nat) : bfly8Fwd a v = bfly8Fwd a' v := by
  have hsum : quadOf (fun p => cadd (a p) (a (p + 4))) = quadOf fun p => cadd (a' p) (a' (p + 4)) :=
    quadOf_congr fun p hp => by rw [h p (by omega), h (p + 4) (by omega)]
  have hdiff : quadOf (fun p => csub (a p) (a (p + 4))) = quadOf fun p => csub (a' p) (a' (p + 4)) :=
    quadOf_congr fun p hp => by rw [h p (by omega), h (p + 4) (by omega)]
  simp only [bfly8Fwd, hsum, hdiff]

theorem bfly8Inv_congr {c c' : Nat → Cplx} (h : ∀ u, u < 8 → c u = c' u) (v : Nat) : bfly8Inv c v = bfly8Inv c' v := by
  have heven : quadOf (fun u => c (2 * u)) = quadOf fun u => c' (2 * u) :=
    quadOf_congr fun u hu => h _ (by omega)
  have hodd : quadOf (fun u => c (2 * u + 1)) = quadOf fun u => c' (2 * u + 1) :=
    quadOf_congr fun u hu => h _ (by omega)
  simp only [bfly8Inv, heven, hodd]

/-- Samples read alike where their words do. -/
theorem loadR_congr {s t : State} {base : Word} {e : Nat → Nat} {count : Nat} (h : SameRealElements base e count s t)
    {p q : Nat} (hp : p < count) (hq : q < 4) : t.loadR base (e p) q = s.loadR base (e p) q :=
  congrArg (fun w => Cplx.mk w 0) (h p q hp hq)

section
variable {s t : State} (hsq : t.sq = s.sq) (b : Nat) (g : F32 → F32)
include hsq

theorem r4tForwardStores_congr (h : SameElements s.sq.srcsel (r4tStrided s.sq b) 4 s t)
    (htw : r4tTwiddle t t.cr.twf b = r4tTwiddle s s.cr.twf b) : r4tForwardStores t b = r4tForwardStores s b := by
  unfold r4tForwardStores
  refine List.flatMap_congr fun q hq => List.flatMap_congr fun u _ => ?_
  have htree : r4tForwardTree t b q = r4tForwardTree s b q := by
    rw [r4tForwardTree, r4tForwardTree, htw, hsq]
    exact congrArg (fun x => bfly4Fwd (rotateQuad x _)) (quadOf_congr fun p hp => h p q hp (mem_lanes.mp hq))
  rw [htree, hsq]

theorem r4tInverseStores_congr (h : SameElements s.sq.srcsel (r4tBlocked s.sq b) 4 s t)
    (htw : r4tTwiddle t t.cr.twb b = r4tTwiddle s s.cr.twb b) : r4tInverseStores t b = r4tInverseStores s b := by
  unfold r4tInverseStores
  refine List.flatMap_congr fun q hq => List.flatMap_congr fun u _ => ?_
  have htree : r4tInverseTree t b q = r4tInverseTree s b q := by
    rw [r4tInverseTree, r4tInverseTree, htw, hsq]
    exact congrArg (fun x => rotateQuad (bfly4Inv x) _) (quadOf_congr fun p hp => h p q hp (mem_lanes.mp hq))
  rw [htree, hsq]

theorem r4fForwardStores_congr (h : SameRealElements s.sq.srcsel (firstStrided s.sq b) 4 s t) :
    r4fForwardStores t b = r4fForwardStores s b := by
  unfold r4fForwardStores
  refine List.flatMap_congr fun q hq => List.flatMap_congr fun u _ => ?_
  have hsamples : r4fSamples t b q = r4fSamples s b q := by
    rw [r4fSamples, r4fSamples, hsq]
    exact quadOf_congr fun p hp => loadR_congr h hp (mem_lanes.mp hq)
  rw [hsamples, hsq]

theorem r4fInverseStores_congr (h : SameElements s.sq.srcsel (firstBlocked 4 b) 4 s t) :
    r4fInverseStores t b g = r4fInverseStores s b g := by
  unfold r4fInverseStores
  refine List.flatMap_congr fun q hq => List.flatMap_congr fun u _ => ?_
  have htree : r4fInverseTree t b q = r4fInverseTree s b q := by
    rw [r4fInverseTree, r4fInverseTree, hsq]
    exact congrArg bfly4Inv (quadOf_congr fun p hp => h p q hp (mem_lanes.mp hq))
  rw [htree, hsq]

theorem r8ForwardStores_congr (h : SameRealElements s.sq.srcsel (firstStrided s.sq b) 8 s t) :
    r8ForwardStores t b = r8ForwardStores s b := by
  unfold r8ForwardStores
  refine List.flatMap_congr fun q hq => List.flatMap_congr fun v _ => ?_
  have hout : r8ForwardOut t b q v = r8ForwardOut s b q v := by
    rw [r8ForwardOut, r8ForwardOut, hsq]
    exact bfly8Fwd_congr (fun p hp => loadR_congr h hp (mem_lanes.mp hq)) v
  rw [hout, hsq]

theorem r8InverseStores_congr (h : SameElements s.sq.srcsel (firstBlocked 8 b) 8 s t) :
    r8InverseStores t b g = r8InverseStores s b g := by
  unfold r8InverseStores
  refine List.flatMap_congr fun q hq => List.flatMap_congr fun v _ => ?_
  have hout : r8InverseOut t b q v = r8InverseOut s b q v := by
    rw [r8InverseOut, r8InverseOut, hsq]
    exact bfly8Inv_congr (fun u hu => h u q hu (mem_lanes.mp hq)) v
  rw [hout, hsq]

end

/-- Settles O41: the maps by their two digits, the stores by the shape all kernels share, and what they depend on kernel by
kernel. -/
theorem butterfliesOfAPassAreDisjoint : Obligations.ButterfliesOfAPassAreDisjoint := by
  have hfour : ∀ u ∈ lanes, u < 4 := fun _ => mem_lanes.mp
  have height : ∀ u ∈ eightElements, u < 8 := fun _ => mem_eightElements.mp
  refine ⟨fun q b p b' p' hm hb hb' hp hp' => ⟨fun h => ?_, r4tBlocked_injective hm hp hp', ?_,
    r4tBlocked_lt hm hb hp⟩, fun q r f p f' p' hr => ?_, fun s b g => ?_, fun s t b g hsq => ?_⟩
  · rw [r4tStrided_eq, r4tStrided_eq] at h
    exact add_mul_injective hb hb' h
  · rw [r4tStrided_eq]
    exact add_mul_lt hb hp
  · intro F hf hf' hp hp'
    refine ⟨fun h => add_mul_injective hf hf' h, fun h => ?_, add_mul_lt hf hp, ?_⟩
    · rw [firstBlocked_eq, firstBlocked_eq] at h
      exact (add_mul_injective hp hp' h).symm
    · rw [firstBlocked_eq, Nat.mul_comm r F]
      exact add_mul_lt hp hf
  · exact ⟨storesInElements_lanes _ _ _ hfour, storesInElements_lanes _ _ _ hfour, storesInElements_lanes _ _ _ hfour,
      storesInRealElements_lanes _ _ _ hfour, storesInElements_lanes _ _ _ height,
      storesInRealElements_lanes _ _ _ height⟩
  · exact ⟨r4tForwardStores_congr hsq b, r4tInverseStores_congr hsq b, r4fForwardStores_congr hsq b,
      r4fInverseStores_congr hsq b g, r8ForwardStores_congr hsq b, r8InverseStores_congr hsq b g⟩

end Sys2Proof.Machine
end

section
/-! PROOF. The Edge and Interior uops of the finalizer, in both directions (44_finalizer.md R181 to R193): what a uop stores
as one list of slots and values, no slot twice, so every column reads back and no other byte changes. -/

namespace Sys2Proof.Machine

/-! ### Stores given by slots -/

/-- The stores of several columns are the stores of their slots together. -/
theorem slotStores_flatMap {α : Type} (base : Word) (l : List α) (f : α → List (Nat × Cplx)) :
    slotStores base (l.flatMap f) = l.flatMap fun a => slotStores base (f a) := by
  simp only [slotStores, List.flatMap_assoc]

/-- Slots of one buffer, none twice, read back what the uop stores there. -/
theorem complexAt_slotStores_advance (s : State) (base : Word) {l : List (Nat × Cplx)}
    (hbound : ∀ n ∈ l.map Prod.fst, n < 2 ^ 29) (hnodup : (l.map Prod.fst).Nodup) :
    ∀ p ∈ l, (s.storeWords (slotStores base l)).advance.complexAt (slot base p.1) = p.2 := fun p hp =>
  (complexAt_advance _ _).trans <| complexAt_slotStores s base 0
    (fun r hr => ⟨Nat.zero_le _, by simpa using hbound r.1 (List.mem_map_of_mem hr)⟩) hnodup hp

/-- A byte of slot `4e + q` is a byte of element `e`. -/
theorem inBytes_element_of_inBytes_slot {base x : Word} {n : Nat} (h : inBytes (slot base n) 8 x) :
    inBytes (ea base (n / 4) 0) 32 x := by
  unfold inBytes at h ⊢
  have hshift : x - ea base (n / 4) 0 = (x - slot base n) + BitVec.ofNat 32 (8 * (n % 4)) := by
    unfold ea slot
    have hsplit : 8 * n = 8 * (4 * (n / 4) + 0) + 8 * (n % 4) := by omega
    generalize hlow : 8 * (n % 4) = low at hsplit ⊢
    generalize 8 * (4 * (n / 4) + 0) = high at hsplit ⊢
    rw [hsplit]
    bv_omega
  rw [hshift, BitVec.toNat_add, BitVec.toNat_ofNat]
  omega

/-- Stores at lanes of a set of elements reach no byte outside the elements of the set. -/
theorem untouched_slotStores_of_not_inElements {base x : Word} {l : List (Nat × Cplx)} {written : Nat → Prop}
    (hl : ∀ n ∈ l.map Prod.fst, written (n / 4)) (hx : ¬ inElements base written x) :
    Untouched (slotStores base l) x :=
  untouched_slotStores base x fun p hp => Nat.le_of_not_lt fun hlt =>
    hx ⟨p.1 / 4, hl p.1 (List.mem_map_of_mem hp), inBytes_element_of_inBytes_slot hlt⟩

/-! ### The slots of a forward column -/

/-- The two outputs of `FZ` by their slots (R181). -/
def finFZSlots (s : State) : List (Nat × Cplx) :=
  let a := sourceReal s 0
  [(0, ⟨fadd (fadd (a 0) (a 2)) (fadd (a 1) (a 3)), fsub (fadd (a 0) (a 2)) (fadd (a 1) (a 3))⟩),
   (s.columns, ⟨fsub (a 0) (a 2), fneg (fsub (a 1) (a 3))⟩)]

theorem finFZ_eq_slotStores (s : State) : finFZ s = slotStores s.sq.dstsel (finFZSlots s) := rfl

/-- The four outputs of `FG` by their slots (R183). -/
def finFGSlots (s : State) (j : Nat) : List (Nat × Cplx) :=
  [(j, (finFGTree s j).x0), (s.columns + j, (finFGTree s j).x1), (2 * s.columns - j, conj (finFGTree s j).x2),
   (s.columns - j, conj (finFGTree s j).x3)]

theorem finFG_eq_slotStores (s : State) : finFG s = fun j => slotStores s.sq.dstsel (finFGSlots s j) := rfl

/-- The slots of G columns: those of one column lie mirrored about `m`, and no two columns `1 ≤ j < m/2` meet. -/
def gSlots (m : Nat) (js : List Nat) : List Nat := js.flatMap fun j => [j, m + j, 2 * m - j, m - j]

theorem finFGSlots_map_fst (s : State) (js : List Nat) :
    (js.flatMap (finFGSlots s)).map Prod.fst = gSlots s.columns js := by
  rw [List.map_flatMap]
  rfl

theorem mem_gSlots {m : Nat} {js : List Nat} {n : Nat} :
    n ∈ gSlots m js ↔ ∃ j ∈ js, n = j ∨ n = m + j ∨ n = 2 * m - j ∨ n = m - j := by
  simp [gSlots]

theorem gSlots_nodup {m : Nat} {js : List Nat} (hjs : js.Nodup) (hin : ∀ j ∈ js, 1 ≤ j ∧ 2 * j < m) :
    (gSlots m js).Nodup := by
  refine List.nodup_flatMap.mpr ⟨fun j hj => ?_, hjs.imp_of_mem fun {j j'} hj hj' hne => ?_⟩
  · obtain ⟨hpos, hlt⟩ := hin j hj
    simp only [List.nodup_cons, List.mem_cons, List.not_mem_nil, or_false, not_false_iff, List.nodup_nil, and_true]
    omega
  · obtain ⟨hpos, hlt⟩ := hin j hj
    obtain ⟨hpos', hlt'⟩ := hin j' hj'
    intro n hn hn'
    simp only [List.mem_cons, List.not_mem_nil, or_false] at hn hn'
    omega

/-- A state holds column 0 where its outputs read back at their slots. -/
theorem forwardZ_of_slots {s t : State} (h : ∀ p ∈ finFZSlots s, t.complexAt (slot s.sq.dstsel p.1) = p.2) :
    ForwardZ s t := by
  obtain ⟨hlow, hrest⟩ := List.forall_mem_cons.mp h
  obtain ⟨hhigh, -⟩ := List.forall_mem_cons.mp hrest
  exact ⟨hlow, hhigh⟩

/-- A state holds a G column where its outputs read back at their slots. -/
theorem forwardG_of_slots {s t : State} {j : Nat}
    (h : ∀ p ∈ finFGSlots s j, t.complexAt (slot s.sq.dstsel p.1) = p.2) : ForwardG s t j := by
  obtain ⟨h0, h⟩ := List.forall_mem_cons.mp h
  obtain ⟨h1, h⟩ := List.forall_mem_cons.mp h
  obtain ⟨h2, h⟩ := List.forall_mem_cons.mp h
  obtain ⟨h3, -⟩ := List.forall_mem_cons.mp h
  exact ⟨h0, h1, h2, h3⟩

/-! ### The columns of a uop -/

theorem mem_edgeColumns {m j : Nat} : j ∈ edgeColumns m ↔ 1 ≤ j ∧ j ≤ min 3 (m / 2 - 1) := by
  simp only [edgeColumns, List.mem_map, List.mem_range]
  constructor
  · rintro ⟨i, hi, rfl⟩
    omega
  · rintro ⟨hpos, hle⟩
    exact ⟨j - 1, by omega, by omega⟩

theorem edgeColumns_nodup (m : Nat) : (edgeColumns m).Nodup :=
  List.nodup_range.map fun _ _ => Nat.succ.inj

theorem mem_interiorColumns {i j : Nat} : j ∈ interiorColumns i ↔ 4 + 4 * i ≤ j ∧ j ≤ 4 + 4 * i + 3 := by
  simp only [interiorColumns, lanes, List.mem_map, List.mem_cons, List.not_mem_nil, or_false, exists_eq_or_imp,
    exists_eq_left]
  omega

theorem interiorColumns_nodup (i : Nat) : (interiorColumns i).Nodup :=
  List.Nodup.map (fun _ _ => Nat.add_left_cancel) (by decide)

/-- Every column of an interior iteration lies strictly between 0 and `m/2`. -/
theorem interiorColumns_bounds {m i : Nat} (hi : i < (m - 8) / 8) :
    ∀ j ∈ interiorColumns i, 1 ≤ j ∧ 2 * j < m := by
  intro j hj
  have := mem_interiorColumns.mp hj
  omega

theorem edgeColumns_bounds {m : Nat} : ∀ j ∈ edgeColumns m, 1 ≤ j ∧ 2 * j < m := by
  intro j hj
  have := mem_edgeColumns.mp hj
  omega

/-! ### `FIN.INT.F` -/

theorem exec_finIntF_of_legal {s : State} {i : BitVec 24} (hdir : s.sq.dir = .forward)
    (hstage : s.sq.stage.toNat = s.sq.l.toNat + 1) (hm : 16 ≤ s.sq.m.toNat) (hi : i.toNat < (s.sq.m.toNat - 8) / 8) :
    exec (.finIntF i) s = .next (s.storeWords (finInteriorForwardStores s i.toNat)).advance :=
  issue_of_legal hdir (decide_eq_true hi)
    (Bool.and_eq_true_iff.mpr ⟨inFinalizerPass_iff.mpr hstage, decide_eq_true hm⟩)

theorem finInteriorForwardStores_eq_slotStores (s : State) (i : Nat) :
    finInteriorForwardStores s i = slotStores s.sq.dstsel ((interiorColumns i).flatMap (finFGSlots s)) := by
  rw [finInteriorForwardStores, finFG_eq_slotStores, slotStores_flatMap]

/-- Settles O46: the uop is legal and its effect is the stores of its four columns; their sixteen slots differ, so they
read back, and they hold every byte the stores reach. -/
theorem finInteriorForwardResult : Obligations.FinInteriorForwardResult := by
  intro s i hdir hstage hm hi m c
  refine ⟨uopWord_toNat _ i, _, exec_finIntF_of_legal hdir hstage hm hi, onlyMemoryAndUpc_storeWords_advance s _,
    fun hmax l hl => ?_, sameMemoryOutside_storeWords_advance fun x hx => ?_⟩
  all_goals rw [finInteriorForwardStores_eq_slotStores]
  · have hread := complexAt_slotStores_advance s s.sq.dstsel (l := (interiorColumns i.toNat).flatMap (finFGSlots s))
      (fun n hn => by
        obtain ⟨j, hj, hn⟩ := mem_gSlots.mp (finFGSlots_map_fst s _ ▸ hn)
        have := interiorColumns_bounds hi j hj
        rw [State.columns] at hn
        omega)
      (finFGSlots_map_fst s _ ▸ gSlots_nodup (interiorColumns_nodup _) (interiorColumns_bounds hi))
    have hcolumn : c + l ∈ interiorColumns i.toNat := mem_interiorColumns.mpr (by omega)
    exact forwardG_of_slots fun p hp => hread p (List.mem_flatMap.mpr ⟨_, hcolumn, hp⟩)
  · refine untouched_slotStores_of_not_inSlots (fun p hp => ?_) hx
    obtain ⟨j, hj, hn⟩ := mem_gSlots.mp (finFGSlots_map_fst s _ ▸ List.mem_map_of_mem (f := Prod.fst) hp)
    have := mem_interiorColumns.mp hj
    rw [State.columns] at hn
    omega

/-! ### `FIN.EDGE.F` -/

theorem exec_finEdgeF_of_legal {s : State} (hdir : s.sq.dir = .forward)
    (hstage : s.sq.stage.toNat = s.sq.l.toNat + 1) :
    exec .finEdgeF s = .next (s.storeWords (finEdgeForwardStores s)).advance :=
  issue_of_legal hdir rfl (inFinalizerPass_iff.mpr hstage)

/-- What `FIN.EDGE.F` stores, by slots (R184). -/
def finEdgeForwardSlots (s : State) : List (Nat × Cplx) :=
  finFZSlots s ++ (edgeColumns s.columns).flatMap (finFGSlots s) ++ (if s.columns = 4 then finFHSlots s else [])

theorem finEdgeForwardStores_eq_slotStores (s : State) :
    finEdgeForwardStores s = slotStores s.sq.dstsel (finEdgeForwardSlots s) := by
  rw [finEdgeForwardStores, finEdgeForwardSlots, slotStores_append, slotStores_append, slotStores_flatMap,
    finFZ_eq_slotStores, finFG_eq_slotStores, finFH_eq_slotStores]
  split <;> rfl

/-- The slots of the Edge uop by their numbers. -/
def edgeSlots (m : Nat) : List Nat := [0, m] ++ gSlots m (edgeColumns m) ++ (if m = 4 then [2, 6] else [])

theorem finEdgeForwardSlots_map_fst (s : State) : (finEdgeForwardSlots s).map Prod.fst = edgeSlots s.columns := by
  rw [finEdgeForwardSlots, List.map_append, List.map_append, finFGSlots_map_fst, edgeSlots]
  congr 1
  by_cases hfour : s.columns = 4
  · rw [if_pos hfour, if_pos hfour, finFHSlots_map_fst, ← State.columns, hfour]
  · rw [if_neg hfour, if_neg hfour]
    rfl

theorem mem_edgeSlots {m n : Nat} (hn : n ∈ edgeSlots m) :
    n = 0 ∨ n = m ∨ (∃ j ∈ edgeColumns m, n = j ∨ n = m + j ∨ n = 2 * m - j ∨ n = m - j) ∨ m = 4 ∧ (n = 2 ∨ n = 6) := by
  simp only [edgeSlots, List.mem_append, mem_gSlots, List.mem_cons, List.not_mem_nil, or_false] at hn
  obtain (hz | hg) | hh := hn
  · exact hz.elim .inl fun h => .inr (.inl h)
  · exact .inr (.inr (.inl hg))
  · split at hh
    case isTrue hfour => exact .inr (.inr (.inr ⟨hfour, by simpa using hh⟩))
    case isFalse => cases hh

/-- With `m = 4` there is one G column; from `m = 8` on the columns lie below `m/2`; so no slot is written twice. -/
theorem edgeSlots_nodup {m : Nat} (hm : m = 4 ∨ 8 ≤ m) : (edgeSlots m).Nodup := by
  obtain rfl | hm := hm
  · decide
  · have hfour : m ≠ 4 := by omega
    rw [edgeSlots, if_neg hfour, List.append_nil]
    refine List.nodup_append'.mpr ⟨by simp; omega, gSlots_nodup (edgeColumns_nodup m) edgeColumns_bounds, ?_⟩
    intro n hz hg
    obtain ⟨j, hj, hn⟩ := mem_gSlots.mp hg
    have := edgeColumns_bounds j hj
    simp only [List.mem_cons, List.not_mem_nil, or_false] at hz
    omega

theorem edgeSlots_written {m n : Nat} (hm : m = 4 ∨ 8 ≤ m) (hn : n ∈ edgeSlots m) :
    if m = 4 then n ≤ 7 else n ≤ 3 ∨ (m - 3 ≤ n ∧ n ≤ m + 3) ∨ (2 * m - 3 ≤ n ∧ n ≤ 2 * m - 1) := by
  obtain rfl | rfl | ⟨j, hj, hn⟩ | ⟨rfl, hn⟩ := mem_edgeSlots hn
  · split <;> omega
  · split <;> omega
  · have := mem_edgeColumns.mp hj
    split <;> omega
  · rw [if_pos rfl]
    omega

/-- Settles O44: the uop is legal and its effect is the stores of its columns; `M` of 4 or of 8 to `2^22` keeps their slots
apart, so the columns read back, and the slots hold every byte the stores reach. -/
theorem finEdgeForwardResult : Obligations.FinEdgeForwardResult := by
  intro s hdir hstage m
  refine ⟨by decide, _, exec_finEdgeF_of_legal hdir hstage, onlyMemoryAndUpc_storeWords_advance s _, fun hm hmax => ?_⟩
  rw [finEdgeForwardStores_eq_slotStores]
  have hread := complexAt_slotStores_advance s s.sq.dstsel (l := finEdgeForwardSlots s)
    (fun n hn => by
      obtain rfl | rfl | ⟨j, hj, hn⟩ | ⟨hfour, hn⟩ := mem_edgeSlots (finEdgeForwardSlots_map_fst s ▸ hn)
      · omega
      · rw [State.columns]
        omega
      · have := mem_edgeColumns.mp hj
        rw [State.columns] at hn
        omega
      · omega)
    (finEdgeForwardSlots_map_fst s ▸ edgeSlots_nodup hm)
  refine ⟨forwardZ_of_slots fun p hp => hread p ?_, fun j hpos hle => forwardG_of_slots fun p hp => hread p ?_,
    fun hfour => forwardH_of_slots fun p hp => hread p ?_, sameMemoryOutside_storeWords_advance fun x hx => ?_⟩
  · exact List.mem_append_left _ (List.mem_append_left _ hp)
  · exact List.mem_append_left _ (List.mem_append_right _
      (List.mem_flatMap.mpr ⟨j, mem_edgeColumns.mpr ⟨hpos, hle⟩, hp⟩))
  · exact List.mem_append_right _ ((if_pos hfour : (if s.columns = 4 then finFHSlots s else []) = _).symm ▸ hp)
  · refine untouched_slotStores_of_not_inSlots (fun p hp => ?_) hx
    exact edgeSlots_written hm (finEdgeForwardSlots_map_fst s ▸ List.mem_map_of_mem (f := Prod.fst) hp)

/-! ### The lanes of an inverse column -/

/-- Four real results by their slots: the lanes of element `e` (R187, R188). -/
def realLaneSlots (e : Nat) (y : Quad F32) : List (Nat × Cplx) := lanes.map fun q => (4 * e + q, ⟨y.nth q, 0⟩)

theorem storeRealLanes_eq_slotStores (base : Word) (e : Nat) (y : Quad F32) :
    storeRealLanes base e y = slotStores base (realLaneSlots e y) := rfl

/-- The eight results of `IG` by their slots: the lanes of element `j` and of its mirror `m − j` (R190). -/
def finIGSlots (s : State) (j : Nat) : List (Nat × Cplx) :=
  lanes.flatMap fun q =>
    [(4 * j + q, (finIGLanes s j).nth q), (4 * (s.columns - j) + q, conj ((finIGLanes s j).nth q))]

theorem finIG_eq_slotStores (s : State) : finIG s = fun j => slotStores s.sq.dstsel (finIGSlots s j) := rfl

/-- The lanes of element `e`. -/
def laneNumbers (e : Nat) : List Nat := lanes.map (4 * e + ·)

/-- The lanes of elements `j` and `m − j`, for the G columns of a list. -/
def gLanes (m : Nat) (js : List Nat) : List Nat :=
  js.flatMap fun j => lanes.flatMap fun q => [4 * j + q, 4 * (m - j) + q]

theorem realLaneSlots_map_fst (e : Nat) (y : Quad F32) : (realLaneSlots e y).map Prod.fst = laneNumbers e := rfl

theorem finIGSlots_map_fst (s : State) (js : List Nat) :
    (js.flatMap (finIGSlots s)).map Prod.fst = gLanes s.columns js := by
  rw [List.map_flatMap]
  rfl

theorem mem_laneNumbers {e n : Nat} : n ∈ laneNumbers e ↔ n / 4 = e := by
  simp only [laneNumbers, List.mem_map, mem_lanes]
  constructor
  · rintro ⟨q, hq, rfl⟩
    omega
  · rintro rfl
    exact ⟨n % 4, by omega, by omega⟩

theorem mem_gLanes {m : Nat} {js : List Nat} {n : Nat} : n ∈ gLanes m js ↔ ∃ j ∈ js, n / 4 = j ∨ n / 4 = m - j := by
  simp only [gLanes, List.mem_flatMap, mem_lanes, List.mem_cons, List.not_mem_nil, or_false]
  refine exists_congr fun j => and_congr_right fun _ => ⟨?_, fun h => ⟨n % 4, by omega, by omega⟩⟩
  rintro ⟨q, hq, hn⟩
  omega

theorem laneNumbers_nodup (e : Nat) : (laneNumbers e).Nodup :=
  List.Nodup.map (fun _ _ => Nat.add_left_cancel) (by decide)

/-- An element and its mirror differ where `j` is below `m/2`, and no two columns meet. -/
theorem gLanes_nodup {m : Nat} {js : List Nat} (hjs : js.Nodup) (hin : ∀ j ∈ js, 1 ≤ j ∧ 2 * j < m) :
    (gLanes m js).Nodup := by
  refine List.nodup_flatMap.mpr ⟨fun j hj => ?_, hjs.imp_of_mem fun {j j'} hj hj' hne => ?_⟩
  · obtain ⟨hpos, hlt⟩ := hin j hj
    refine List.nodup_flatMap.mpr ⟨fun q _ => ?_, List.Pairwise.imp_of_mem ?_ (show lanes.Nodup by decide)⟩
    · simp only [List.nodup_cons, List.mem_cons, List.not_mem_nil, or_false, not_false_iff, List.nodup_nil, and_true]
      omega
    · intro q q' hq hq' hne n hn hn'
      have := mem_lanes.mp hq
      have := mem_lanes.mp hq'
      simp only [List.mem_cons, List.not_mem_nil, or_false] at hn hn'
      omega
  · obtain ⟨hpos, hlt⟩ := hin j hj
    obtain ⟨hpos', hlt'⟩ := hin j' hj'
    intro n hn hn'
    obtain ⟨_, hone, hn⟩ := mem_gLanes.mp (show n ∈ gLanes m [j] by simpa [gLanes] using hn)
    obtain ⟨_, hone', hn'⟩ := mem_gLanes.mp (show n ∈ gLanes m [j'] by simpa [gLanes] using hn')
    rw [List.mem_singleton] at hone hone'
    omega

theorem mem_realLaneSlots {e q : Nat} {y : Quad F32} (hq : q < 4) : (4 * e + q, ⟨y.nth q, 0⟩) ∈ realLaneSlots e y :=
  List.mem_map_of_mem (mem_lanes.mpr hq)

/-- A state holds element 0 where each result of `IZ` reads back in its lane. -/
theorem inverseZ_of_lanes {s t : State}
    (h : ∀ q, q < 4 → t.complexAt (ea s.sq.dstsel 0 q) = ⟨(finIZLanes s).nth q, 0⟩) : InverseZ s t :=
  ⟨h 0 (by decide), h 1 (by decide), h 2 (by decide), h 3 (by decide)⟩

/-- A state holds a G column and its mirror where each result of `IG` reads back in its lane. -/
theorem inverseG_of_slots {s t : State} {j : Nat}
    (h : ∀ p ∈ finIGSlots s j, t.complexAt (slot s.sq.dstsel p.1) = p.2) : InverseG s t j := by
  intro q hq
  have hlane : ∀ p ∈ [(4 * j + q, (finIGLanes s j).nth q), (4 * (s.columns - j) + q, conj ((finIGLanes s j).nth q))],
      t.complexAt (slot s.sq.dstsel p.1) = p.2 := fun p hp =>
    h p (List.mem_flatMap.mpr ⟨q, mem_lanes.mpr hq, hp⟩)
  obtain ⟨hfirst, hrest⟩ := List.forall_mem_cons.mp hlane
  obtain ⟨hmirror, -⟩ := List.forall_mem_cons.mp hrest
  exact ⟨hfirst, hmirror⟩

/-! ### `FIN.INT.I` -/

theorem exec_finIntI_of_legal {s : State} {i : BitVec 24} (hdir : s.sq.dir = .inverse)
    (hstage : s.sq.stage.toNat = s.sq.l.toNat + 1) (hm : 16 ≤ s.sq.m.toNat) (hi : i.toNat < (s.sq.m.toNat - 8) / 8) :
    exec (.finIntI i) s = .next (s.storeWords (finInteriorInverseStores s i.toNat)).advance :=
  issue_of_legal hdir (decide_eq_true hi)
    (Bool.and_eq_true_iff.mpr ⟨inFinalizerPass_iff.mpr hstage, decide_eq_true hm⟩)

theorem finInteriorInverseStores_eq_slotStores (s : State) (i : Nat) :
    finInteriorInverseStores s i = slotStores s.sq.dstsel ((interiorColumns i).flatMap (finIGSlots s)) := by
  rw [finInteriorInverseStores, finIG_eq_slotStores, slotStores_flatMap]

/-- Settles O49: the uop is legal and its effect is the stores of its four columns; their eight elements differ, so their
lanes read back, and they hold every byte the stores reach. -/
theorem finInteriorInverseResult : Obligations.FinInteriorInverseResult := by
  intro s i hdir hstage hm hi m c
  refine ⟨uopWord_toNat _ i, _, exec_finIntI_of_legal hdir hstage hm hi, onlyMemoryAndUpc_storeWords_advance s _,
    fun hmax l hl => ?_, sameMemoryOutside_storeWords_advance fun x hx => ?_⟩
  all_goals rw [finInteriorInverseStores_eq_slotStores]
  · have hread := complexAt_slotStores_advance s s.sq.dstsel (l := (interiorColumns i.toNat).flatMap (finIGSlots s))
      (fun n hn => by
        obtain ⟨j, hj, hn⟩ := mem_gLanes.mp (finIGSlots_map_fst s _ ▸ hn)
        have := interiorColumns_bounds hi j hj
        rw [State.columns] at hn
        omega)
      (finIGSlots_map_fst s _ ▸ gLanes_nodup (interiorColumns_nodup _) (interiorColumns_bounds hi))
    have hcolumn : c + l ∈ interiorColumns i.toNat := mem_interiorColumns.mpr (by omega)
    exact inverseG_of_slots fun p hp => hread p (List.mem_flatMap.mpr ⟨_, hcolumn, hp⟩)
  · refine untouched_slotStores_of_not_inElements (fun n hn => ?_) hx
    obtain ⟨j, hj, hn⟩ := mem_gLanes.mp (finIGSlots_map_fst s _ ▸ hn)
    have := mem_interiorColumns.mp hj
    rw [State.columns] at hn
    omega

/-! ### `FIN.EDGE.I` -/

theorem exec_finEdgeI_of_legal {s : State} (hdir : s.sq.dir = .inverse)
    (hstage : s.sq.stage.toNat = s.sq.l.toNat + 1) :
    exec .finEdgeI s = .next (s.storeWords (finEdgeInverseStores s)).advance :=
  issue_of_legal hdir rfl (inFinalizerPass_iff.mpr hstage)

/-- What `FIN.EDGE.I` stores, by lanes (R191). -/
def finEdgeInverseSlots (s : State) : List (Nat × Cplx) :=
  realLaneSlots 0 (finIZLanes s) ++ (edgeColumns s.columns).flatMap (finIGSlots s) ++
    (if s.columns = 4 then realLaneSlots (s.columns / 2) (finIHLanes s) else [])

theorem finEdgeInverseStores_eq_slotStores (s : State) :
    finEdgeInverseStores s = slotStores s.sq.dstsel (finEdgeInverseSlots s) := by
  rw [finEdgeInverseStores, finEdgeInverseSlots, slotStores_append, slotStores_append, slotStores_flatMap, finIZ, finIH,
    storeRealLanes_eq_slotStores, storeRealLanes_eq_slotStores, finIG_eq_slotStores]
  split <;> rfl

/-- The lanes of the Edge uop by their numbers. -/
def edgeLanes (m : Nat) : List Nat :=
  laneNumbers 0 ++ gLanes m (edgeColumns m) ++ (if m = 4 then laneNumbers 2 else [])

theorem finEdgeInverseSlots_map_fst (s : State) : (finEdgeInverseSlots s).map Prod.fst = edgeLanes s.columns := by
  rw [finEdgeInverseSlots, List.map_append, List.map_append, finIGSlots_map_fst, realLaneSlots_map_fst, edgeLanes]
  congr 1
  by_cases hfour : s.columns = 4
  · rw [if_pos hfour, if_pos hfour, realLaneSlots_map_fst, hfour]
  · rw [if_neg hfour, if_neg hfour]
    rfl

theorem mem_edgeLanes {m n : Nat} (hn : n ∈ edgeLanes m) :
    n / 4 = 0 ∨ (∃ j ∈ edgeColumns m, n / 4 = j ∨ n / 4 = m - j) ∨ m = 4 ∧ n / 4 = 2 := by
  simp only [edgeLanes, List.mem_append, mem_gLanes, mem_laneNumbers] at hn
  obtain (hz | hg) | hh := hn
  · exact .inl hz
  · exact .inr (.inl hg)
  · split at hh
    case isTrue hfour => exact .inr (.inr ⟨hfour, mem_laneNumbers.mp hh⟩)
    case isFalse => cases hh

theorem edgeLanes_nodup {m : Nat} (hm : m = 4 ∨ 8 ≤ m) : (edgeLanes m).Nodup := by
  obtain rfl | hm := hm
  · decide
  · have hfour : m ≠ 4 := by omega
    rw [edgeLanes, if_neg hfour, List.append_nil]
    refine List.nodup_append'.mpr
      ⟨laneNumbers_nodup 0, gLanes_nodup (edgeColumns_nodup m) edgeColumns_bounds, fun n hz hg => ?_⟩
    obtain ⟨j, hj, hn⟩ := mem_gLanes.mp hg
    have := edgeColumns_bounds j hj
    have := mem_laneNumbers.mp hz
    omega

/-- Settles O47: the uop is legal and its effect is the stores of its columns; `M` of 4 or of 8 to `2^22` keeps their
elements apart, so their lanes read back, and the elements hold every byte the stores reach. -/
theorem finEdgeInverseResult : Obligations.FinEdgeInverseResult := by
  intro s hdir hstage m
  refine ⟨by decide, _, exec_finEdgeI_of_legal hdir hstage, onlyMemoryAndUpc_storeWords_advance s _, fun hm hmax => ?_⟩
  rw [finEdgeInverseStores_eq_slotStores]
  have hread := complexAt_slotStores_advance s s.sq.dstsel (l := finEdgeInverseSlots s)
    (fun n hn => by
      obtain hz | ⟨j, hj, hn⟩ | ⟨-, hh⟩ := mem_edgeLanes (finEdgeInverseSlots_map_fst s ▸ hn)
      · omega
      · have := mem_edgeColumns.mp hj
        rw [State.columns] at hn
        omega
      · omega)
    (finEdgeInverseSlots_map_fst s ▸ edgeLanes_nodup hm)
  refine ⟨inverseZ_of_lanes fun q hq => hread (4 * 0 + q, _) ?_, fun j hpos hle => inverseG_of_slots fun p hp => hread p ?_,
    fun hfour => inverseH_of_lanes fun q hq => hread (4 * (s.columns / 2) + q, _) ?_,
    sameMemoryOutside_storeWords_advance fun x hx => ?_⟩
  · exact List.mem_append_left _ (List.mem_append_left _ (mem_realLaneSlots hq))
  · exact List.mem_append_left _ (List.mem_append_right _
      (List.mem_flatMap.mpr ⟨j, mem_edgeColumns.mpr ⟨hpos, hle⟩, hp⟩))
  · have hcolumns : s.columns = 4 := hfour
    refine List.mem_append_right _ ?_
    rw [if_pos hcolumns]
    exact mem_realLaneSlots hq
  · refine untouched_slotStores_of_not_inElements (fun n hn => ?_) hx
    obtain hz | ⟨j, hj, hn⟩ | ⟨hfour, hh⟩ := mem_edgeLanes (finEdgeInverseSlots_map_fst s ▸ hn)
    · omega
    · have := mem_edgeColumns.mp hj
      rw [State.columns] at hn
      omega
    · rw [State.columns] at hfour
      omega

end Sys2Proof.Machine
end

section
/-! PROOF. The finalizer uops of a pass process every column once (44_finalizer.md R180, R196). -/

namespace Sys2Proof.Machine

/-! ### The columns of Edge and Interior together -/

theorem interiorColumns_eq (i : Nat) : interiorColumns i = (List.range' (4 * i) 4).map (4 + ·) := by
  simp [interiorColumns, lanes, List.range']
  omega

/-- The first `c` interior iterations take the `4·c` columns from 4 up, in order. -/
theorem flatMap_interiorColumns (c : Nat) :
    (List.range c).flatMap interiorColumns = (List.range (4 * c)).map (4 + ·) := by
  induction c with
  | zero => rfl
  | succ c ih =>
    rw [List.range_succ, List.flatMap_append, ih, List.flatMap_singleton, interiorColumns_eq, ← List.map_append,
      Nat.mul_succ, List.range_eq_range', List.range_eq_range', ← List.range'_append_1]
    simp

/-- A power of two from 4 up is 4 or a multiple of 8. -/
theorem two_pow_eq_four_or_mul_eight {n : Nat} (hn : 2 ≤ n) : 2 ^ n = 4 ∨ ∃ c, 2 ^ n = 8 * (c + 1) := by
  obtain rfl | hn := hn.eq_or_lt
  · exact .inl rfl
  · have hpos : 0 < 2 ^ (n - 3) := Nat.two_pow_pos _
    refine .inr ⟨2 ^ (n - 3) - 1, ?_⟩
    rw [Nat.sub_add_cancel hpos, show 8 = 2 ^ 3 from rfl, ← pow_add, Nat.add_sub_cancel' hn]

/-- Edge takes the first columns, at most three, and the interior iterations the rest up to `m/2 − 1`. -/
theorem edgeColumns_append_interior {m : Nat} (hm : m = 4 ∨ ∃ c, m = 8 * (c + 1)) :
    edgeColumns m ++ (List.range ((m - 8) / 8)).flatMap interiorColumns = (List.range (m / 2 - 1)).map (· + 1) := by
  obtain rfl | ⟨c, rfl⟩ := hm
  · rfl
  · have hedge : min 3 (8 * (c + 1) / 2 - 1) = 3 := by omega
    have hcount : (8 * (c + 1) - 8) / 8 = c := by omega
    have hall : 8 * (c + 1) / 2 - 1 = 3 + 4 * c := by omega
    rw [edgeColumns, hedge, hcount, hall, flatMap_interiorColumns, List.range_add, List.map_append, List.map_map]
    congr 1
    exact List.map_congr_left fun i _ => by simp only [Function.comp_apply]; omega

/-! ### The stores of a pass -/

/-- What the uops of a pass store, Edge with column 0 and the small columns, Second with column `m/2` unless Edge has it, and
Interior with the rest, is what the columns store, in another order. -/
theorem finalizerStores_perm {m : Nat} (hm : m = 4 ∨ ∃ c, m = 8 * (c + 1)) (z h : List Store) (g : Nat → List Store) :
    ((z ++ (edgeColumns m).flatMap g ++ (if m = 4 then h else [])) ++ (if 8 ≤ m then h else []) ++
        (List.range ((m - 8) / 8)).flatMap fun i => (interiorColumns i).flatMap g).Perm
      (z ++ ((List.range (m / 2 - 1)).map (· + 1)).flatMap g ++ h) := by
  rw [← edgeColumns_append_interior hm, List.flatMap_append, List.flatMap_assoc]
  obtain rfl | ⟨c, rfl⟩ := hm
  · simp
  · have hfour : 8 * (c + 1) ≠ 4 := by omega
    have height : 8 ≤ 8 * (c + 1) := by omega
    rw [if_neg hfour, if_pos height]
    simp only [List.append_nil, List.append_assoc]
    exact (List.perm_append_comm.append_left _).append_left _

/-- Settles O50: the columns of Edge and Interior follow one another without a gap; in either direction the uops store
these columns, column 0 and column `m/2`. -/
theorem everyColumnIsProcessedOnce : Obligations.EveryColumnIsProcessedOnce := by
  intro n hn m gColumns
  have hm := two_pow_eq_four_or_mul_eight hn
  refine ⟨edgeColumns_append_interior hm, fun s hs => ?_⟩
  have hcolumns : s.columns = m := hs
  have hforward := finalizerStores_perm hm (finFZ s) (finFH s) (finFG s)
  have hinverse := finalizerStores_perm hm (finIZ s) (finIH s) (finIG s)
  rw [finEdgeForwardStores, finEdgeInverseStores, hcolumns]
  exact ⟨hforward, hinverse⟩

end Sys2Proof.Machine
end

section
/-! PROOF. Pack, unpack and restore in pairs (45_pack_scale.md R205). -/

namespace Sys2Proof.Machine

/-! ### A word and its bytes -/

theorem byteOfWord_wordOfBytes (b0 b1 b2 b3 : Byte) :
    byteOfWord (wordOfBytes b0 b1 b2 b3) 0 = b0 ∧ byteOfWord (wordOfBytes b0 b1 b2 b3) 1 = b1 ∧
      byteOfWord (wordOfBytes b0 b1 b2 b3) 2 = b2 ∧ byteOfWord (wordOfBytes b0 b1 b2 b3) 3 = b3 := by
  unfold byteOfWord wordOfBytes
  refine ⟨?_, ?_, ?_, ?_⟩
  all_goals
    refine BitVec.eq_of_getLsbD_eq fun i hi => ?_
    simp only [BitVec.getLsbD_extractLsb', BitVec.getLsbD_append]
    grind

/-- The bytes of a word read are those of memory. -/
theorem byteOfWord_readWord (m : Memory) {a x : Word} (hx : (x - a).toNat < 4) :
    byteOfWord (Memory.readWord m a) (x - a).toNat = Memory.byteAt m x.toNat := by
  obtain ⟨h0, h1, h2, h3⟩ := byteOfWord_wordOfBytes (Memory.byteAt m a.toNat) (Memory.byteAt m (a + 1).toNat)
    (Memory.byteAt m (a + 2).toNat) (Memory.byteAt m (a + 3).toNat)
  have hsplit : x = a + BitVec.ofNat 32 (x - a).toNat := by bv_omega
  unfold Memory.readWord
  generalize (x - a).toNat = n at hx hsplit ⊢
  subst hsplit
  obtain rfl | rfl | rfl | rfl : n = 0 ∨ n = 1 ∨ n = 2 ∨ n = 3 := by omega
  · simpa using h0
  · simpa using h1
  · simpa using h2
  · simpa using h3

/-- A word overwritten and then written back leaves every byte as it was. -/
theorem byteAt_writeWord_readWord (m : Memory) (a v x : Word) :
    Memory.byteAt (Memory.writeWord (Memory.writeWord m a v) a (Memory.readWord m a)) x.toNat =
      Memory.byteAt m x.toNat := by
  rw [byteAt_writeWord]
  split
  case isTrue hin => exact byteOfWord_readWord m hin
  case isFalse hout => exact byteAt_writeWord_other m v (Nat.le_of_not_lt hout)

/-! ### Where the words of slot 0 and of slot `h` lie -/

/-- The two words of slot 0 lie apart, as words 0 and 1 of their region. -/
theorem apart_slot_zero (base : Word) : Apart base (base + 4) := by
  simpa using apart_of_offsets base (x := 0) (y := 1) (by decide) (by decide) (by decide)

/-- The stores of `PACK.F` leave the real word of slot 0 alone: `h` of 1 to `2^23` keeps slot `h` away from it. -/
theorem word_packStores_dst (s : State) (hpos : 1 ≤ (s.sq.n >>> 1).toNat) (hmax : (s.sq.n >>> 1).toNat ≤ 2 ^ 23) :
    (s.storeWords (packStores s)).word s.cr.dst = s.word s.cr.dst := by
  refine readWord_storeWords_other s.mem _ fun st hst => ?_
  rw [packStores_eq_storesAt] at hst
  generalize (s.sq.n >>> 1).toNat = h at hpos hmax hst
  obtain ⟨p, hp, rfl⟩ := List.mem_map.mp hst
  have hbounds : p.1 ≠ 0 ∧ p.1 < 2 ^ 30 := by
    simp only [List.mem_cons, List.not_mem_nil, or_false] at hp
    obtain rfl | rfl | rfl := hp <;> dsimp only <;> omega
  simpa using apart_of_offsets s.cr.dst (x := 0) (y := p.1) (by omega) (by omega) (by omega)

/-! ### The pairs -/

/-- The state after `PACK.F`: its three stores and the advance. -/
theorem eq_of_exec_packF {s t : State} (h : exec .packF s = .next t) : t = (s.storeWords (packStores s)).advance := by
  obtain ⟨-, -, -, rfl⟩ := issue_eq_next_iff.mp h
  rfl

/-- The state after `UNPACK.I`: the saved word, its store and the advance. -/
theorem eq_of_exec_unpackI {s t : State} (h : exec .unpackI s = .next t) :
    t = ((s.saveWord (s.word (s.cr.src + 4))).storeWords
      [⟨s.cr.src + 4, s.word (nyquistSlot s.cr.src s.sq)⟩]).advance := by
  obtain ⟨-, -, -, rfl⟩ := issue_eq_next_iff.mp h
  rfl

/-- The state after `RESTORE.I`: its store and the advance. -/
theorem eq_of_exec_restoreI {s t : State} (h : exec .restoreI s = .next t) :
    t = (s.storeWords [⟨s.cr.src + 4, s.sq.save0i⟩]).advance := by
  obtain ⟨-, -, -, rfl⟩ := issue_eq_next_iff.mp h
  rfl

/-- Settles O54: `PACK.F` moved the imaginary word of slot 0 to slot `h` and left its real word, and `UNPACK.I` brings it back;
`RESTORE.I` writes the word `UNPACK.I` saved over the one it stored. -/
theorem packUnpackRestorePairs : Obligations.PackUnpackRestorePairs := by
  refine ⟨fun s t s' u hpack hpos hmax hmem hsrc hn hunpack => ?_, fun s t s' u hunpack hmem hsrc hsave hrestore x => ?_⟩
  · cases eq_of_exec_packF hpack
    cases eq_of_exec_unpackI hunpack
    obtain ⟨hmoved, -⟩ := List.forall_mem_cons.mp (word_packStores s hpos hmax)
    have hreal : s'.word s.cr.dst = s.word s.cr.dst :=
      (congrArg (Memory.readWord · _) hmem).trans (word_packStores_dst s hpos hmax)
    have himag : s'.word (nyquistSlot s.cr.dst s'.sq) = s.word (s.cr.dst + 4) := by
      rw [nyquistSlot, hn]
      exact (congrArg (Memory.readWord · _) hmem).trans hmoved
    rw [hsrc, complexAt_advance]
    refine congrArg₂ Cplx.mk ?_ ?_
    · exact (readWord_writeWord_other _ _ (apart_slot_zero _)).trans hreal
    · exact (word_storeWords_singleton _ _ _).trans himag
  · cases eq_of_exec_unpackI hunpack
    cases eq_of_exec_restoreI hrestore
    have hsrc' : s'.cr.src = s.cr.src := hsrc
    have hsave' : s'.sq.save0i = s.word (s.cr.src + 4) := hsave
    have hmem' : s'.mem = Memory.writeWord s.mem (s.cr.src + 4) (s.word (nyquistSlot s.cr.src s.sq)) := hmem
    calc _ = Memory.byteAt (Memory.writeWord s'.mem (s'.cr.src + 4) s'.sq.save0i) x.toNat := rfl
      _ = s.byteAt x := by
        rw [hmem', hsrc', hsave']
        exact byteAt_writeWord_readWord s.mem _ _ x

end Sys2Proof.Machine
end

section
/-! PROOF. The uops of a pass of a launched call: each is legal in its pass, and stores inside the destination buffer only
(20_memory.md R83, R91; 30_encoding.md R106). -/

namespace Sys2Proof.Machine

/-! ### Stores inside a buffer -/

/-- Every word stored lies in the `size` bytes from `base` up. -/
def StoresWithin (base : Word) (size : Nat) (l : List Store) : Prop := ∀ st ∈ l, (st.addr - base).toNat + 4 ≤ size

theorem toNat_add_ofNat_sub (base : Word) {n : Nat} (hn : n < 2 ^ 32) : (base + BitVec.ofNat 32 n - base).toNat = n := by
  rw [BitVec.add_comm, BitVec.add_sub_cancel, BitVec.toNat_ofNat, Nat.mod_eq_of_lt hn]

/-- Where the buffer does not pass `2^32`, such stores reach no byte outside it. -/
theorem untouched_of_storesWithin {base x : Word} {size : Nat} {l : List Store} (h : StoresWithin base size l)
    (hfit : base.toNat + size ≤ 2 ^ 32) (hx : (Region.mk base.toNat size).holds x.toNat = false) : Untouched l x := by
  intro st hst
  have hwithin := h st hst
  have hout : ¬ (base.toNat ≤ x.toNat ∧ x.toNat < base.toNat + size) := fun hin => by
    rw [holds_iff.mpr hin] at hx
    cases hx
  rw [BitVec.toNat_sub] at hwithin ⊢
  omega

theorem storesWithin_of_storesInElements {base : Word} {e : Nat → Nat} {count m : Nat} {l : List Store}
    (h : StoresInElements base e count l) (he : ∀ u, u < count → e u < m) (hm : m ≤ 2 ^ 22) :
    StoresWithin base (32 * m) l := by
  intro st hst
  obtain ⟨u, q, hu, hq, haddr | haddr⟩ := h st hst
  all_goals
    have := he u hu
    rw [haddr, ea_eq_slot]
  · rw [slot, toNat_add_ofNat_sub base (by omega)]
    omega
  · rw [slot_add_four, toNat_add_ofNat_sub base (by omega)]
    omega

theorem storesWithin_of_storesInRealElements {base : Word} {e : Nat → Nat} {count m : Nat} {l : List Store}
    (h : StoresInRealElements base e count l) (he : ∀ u, u < count → e u < m) (hm : m ≤ 2 ^ 22) :
    StoresWithin base (32 * m) l := by
  intro st hst
  obtain ⟨u, q, hu, hq, haddr⟩ := h st hst
  have := he u hu
  rw [haddr, ra_eq, toNat_add_ofNat_sub base (by omega)]
  omega

/-- `m` columns take `4·m` slots. -/
theorem storesWithin_slotStores (base : Word) {l : List (Nat × Cplx)} {m : Nat}
    (h : ∀ n ∈ l.map Prod.fst, n < 4 * m) (hm : m ≤ 2 ^ 22) : StoresWithin base (32 * m) (slotStores base l) := by
  intro st hst
  obtain ⟨p, hp, hst⟩ := List.mem_flatMap.mp hst
  have := h p.1 (List.mem_map_of_mem hp)
  simp only [storeC, List.mem_cons, List.not_mem_nil, or_false] at hst
  obtain rfl | rfl := hst
  · rw [slot, toNat_add_ofNat_sub base (by omega)]
    omega
  · rw [slot_add_four, toNat_add_ofNat_sub base (by omega)]
    omega

/-! ### The canonical plan in a pass -/

/-- The sequencer without the registers that move during a call: the counter, the stage, the buffers and the saved word. -/
def latchesOf (q : Sequencer) : Sequencer := { q with upc := 0, stage := 0, srcsel := 0, dstsel := 0, save0i := 0 }

/-- The plan speaks of the latches only. -/
theorem canonicalPlan_congr {k : Nat} {p q : Sequencer} (hp : CanonicalPlan k p) (h : latchesOf q = latchesOf p) :
    CanonicalPlan k q := by
  have hlatches : CanonicalPlan k (latchesOf q) := h ▸ ⟨hp.k_eq, hp.m_eq, hp.l_eq, hp.r1_eq, hp.stM_one, hp.stF_eq,
    hp.stM_eq, hp.stTW_eq⟩
  exact ⟨hlatches.k_eq, hlatches.m_eq, hlatches.l_eq, hlatches.r1_eq, hlatches.stM_one, hlatches.stF_eq,
    hlatches.stM_eq, hlatches.stTW_eq⟩

/-- So does the listing. -/
theorem uprogLines_congr {p q : Sequencer} (h : latchesOf q = latchesOf p) : uprogLines q = uprogLines p := by
  have hlatches : ∀ r : Sequencer, uprogLines r = uprogLines (latchesOf r) := fun _ => rfl
  rw [hlatches q, h, ← hlatches p]

section
variable {k : Nat} {q : Sequencer} (hk : 4 ≤ k) (hmax : k ≤ 24) (hplan : CanonicalPlan k q)
include hk hplan

/-- `N = 4·M`. -/
theorem CanonicalPlan.size_eq : 8 * 2 ^ k = 32 * q.m.toNat := by
  have hpow : 2 ^ k = 4 * 2 ^ (k - 2) := by
    rw [show 4 = 2 ^ 2 from rfl, ← pow_add, Nat.add_sub_cancel' (by omega)]
  rw [hplan.m_eq, hpow]
  ring

/-- `M = r_1·F_1`. -/
theorem CanonicalPlan.columns_eq_first (hmax : k ≤ 24) : q.m.toNat = q.r1.toNat * (q.stFAt 1).toNat := by
  rw [hplan.m_eq, hplan.r1_eq, hplan.stF_eq 1 le_rfl (driverPasses_bounds hk hmax).1]
  exact columns_eq hk

/-- `M` is 4 or a multiple of 8. -/
theorem CanonicalPlan.columns_cases : q.m.toNat = 4 ∨ ∃ c, q.m.toNat = 8 * (c + 1) := by
  rw [hplan.m_eq]
  exact two_pow_eq_four_or_mul_eight (by omega)

/-- `M = 4·m_s·F_s` in the outer stages. -/
theorem CanonicalPlan.columns_eq_outer {n : Nat} (h2 : 2 ≤ n) (hL : n ≤ q.l.toNat) :
    4 * ((q.stMAt n).toNat * (q.stFAt n).toNat) = q.m.toNat := by
  rw [hplan.l_eq] at hL
  rw [hplan.stM_eq n h2 hL, hplan.stF_eq n (by omega) hL, mstride_mul_fstride hk h2 hL, ← hplan.m_eq]
  have hcases := CanonicalPlan.columns_cases hk hplan
  omega

theorem CanonicalPlan.mstride_pos {n : Nat} (h2 : 2 ≤ n) (hL : n ≤ q.l.toNat) : 1 ≤ (q.stMAt n).toNat := by
  have hcolumns := CanonicalPlan.columns_eq_outer hk hplan h2 hL
  have hcases := CanonicalPlan.columns_cases hk hplan
  by_contra hzero
  rw [Nat.eq_zero_of_not_pos hzero, Nat.zero_mul] at hcolumns
  omega

include hmax

theorem CanonicalPlan.columns_le : q.m.toNat ≤ 2 ^ 22 := by
  rw [hplan.m_eq]
  exact Nat.pow_le_pow_right (by decide) (by omega)

theorem CanonicalPlan.passes_bounds : 1 ≤ q.l.toNat ∧ q.l.toNat ≤ 11 := by
  rw [hplan.l_eq]
  exact driverPasses_bounds hk hmax

end

theorem CanonicalPlan.radix_cases {k : Nat} {q : Sequencer} (hplan : CanonicalPlan k q) : q.r1 = 4 ∨ q.r1 = 8 := by
  have hr1 := hplan.r1_eq
  obtain hr | hr := firstRadix_eq_or k
  · exact .inl (BitVec.eq_of_toNat_eq (hr1.trans hr))
  · exact .inr (BitVec.eq_of_toNat_eq (hr1.trans hr))

/-! ### A uop at work in its pass -/

/-- The uop is legal but for the direction bit, sets no register of its own, and stores inside the destination buffer of a
call of size `2^k`. -/
structure WorksInPass (k : Nat) (i : Instr) (u : State) : Prop where
  notEnd : ¬ IsEnd i
  inRange : uopInRange i u = true
  inPass : uopInPass i u = true
  registers : uopRegisters i u = u
  within : StoresWithin u.sq.dstsel (8 * 2 ^ k) (uopStores i u)

/-- The index of a uop survives its 24 bits. -/
theorem toNat_ofNat_of_lt {n m : Nat} (hn : n < m) (hm : m ≤ 2 ^ 22) : (BitVec.ofNat 24 n).toNat = n := by
  rw [BitVec.toNat_ofNat, Nat.mod_eq_of_lt (by omega)]

/-! ### The kernels of stage 1 -/

theorem firstBlocked_lt {r f v F : Nat} (hf : f < F) (hv : v < r) : firstBlocked r f v < r * F := by
  rw [firstBlocked_eq, Nat.mul_comm r F]
  exact add_mul_lt hv hf

theorem firstStrided_lt {q : Sequencer} {r f v : Nat} (hf : f < (q.stFAt 1).toNat) (hv : v < r) :
    firstStrided q f v < r * (q.stFAt 1).toNat := add_mul_lt hf hv

section
variable {k : Nat} {u : State} (hk : 4 ≤ k) (hmax : k ≤ 24) (hplan : CanonicalPlan k u.sq)
include hk hmax hplan

/-- The forward kernels of stage 1 store the contiguous elements `r·f` to `r·f + r − 1`, all below `r·F_1 = M`. -/
theorem worksInPass_firstKernelForward (hstage : u.sq.stage = 1) {f : Nat} (hf : f < firstCount u.sq) :
    WorksInPass k ((firstKernelForward u.sq).uop (BitVec.ofNat 24 f)) u := by
  have hcolumns := hplan.columns_eq_first hk hmax
  have hle := hplan.columns_le hk hmax
  rw [firstCount_eq] at hf
  obtain hr | hr := hplan.radix_cases
  · have hm : u.sq.m.toNat = 4 * (u.sq.stFAt 1).toNat := by rw [hcolumns, hr]; rfl
    have hindex := toNat_ofNat_of_lt (show f < u.sq.m.toNat by omega) hle
    have hkernel : firstKernelForward u.sq = .r4fF := by rw [firstKernelForward, hr]; rfl
    rw [hkernel]
    refine ⟨nofun, decide_eq_true (by omega), inFirstStage_iff.mpr ⟨hstage, hr⟩, rfl, ?_⟩
    have hstores : StoresInElements u.sq.dstsel (firstBlocked 4 (BitVec.ofNat 24 f).toNat) 4
        (r4fForwardStores u (BitVec.ofNat 24 f).toNat) := storesInElements_lanes _ _ _ fun _ => mem_lanes.mp
    rw [hplan.size_eq hk, hm]
    exact storesWithin_of_storesInElements hstores (fun v hv => firstBlocked_lt (by omega) hv) (hm ▸ hle)
  · have hm : u.sq.m.toNat = 8 * (u.sq.stFAt 1).toNat := by rw [hcolumns, hr]; rfl
    have hindex := toNat_ofNat_of_lt (show f < u.sq.m.toNat by omega) hle
    have hkernel : firstKernelForward u.sq = .r8F := by rw [firstKernelForward, hr]; rfl
    rw [hkernel]
    refine ⟨nofun, decide_eq_true (by omega), inFirstStage_iff.mpr ⟨hstage, hr⟩, rfl, ?_⟩
    have hstores : StoresInElements u.sq.dstsel (firstBlocked 8 (BitVec.ofNat 24 f).toNat) 8
        (r8ForwardStores u (BitVec.ofNat 24 f).toNat) := storesInElements_lanes _ _ _ fun _ => mem_eightElements.mp
    rw [hplan.size_eq hk, hm]
    exact storesWithin_of_storesInElements hstores (fun v hv => firstBlocked_lt (by omega) hv) (hm ▸ hle)

/-- The inverse kernels of stage 1, scaled or not, store the real elements `f + p·F_1`, all below `M`. -/
theorem worksInPass_firstKernelInverse (hstage : u.sq.stage = 1) {f : Nat} (hf : f < firstCount u.sq) :
    WorksInPass k ((firstKernelInverse u.sq).uop (BitVec.ofNat 24 f)) u := by
  have hcolumns := hplan.columns_eq_first hk hmax
  have hle := hplan.columns_le hk hmax
  rw [firstCount_eq] at hf
  obtain hr | hr := hplan.radix_cases
  · have hm : u.sq.m.toNat = 4 * (u.sq.stFAt 1).toNat := by rw [hcolumns, hr]; rfl
    have hindex := toNat_ofNat_of_lt (show f < u.sq.m.toNat by omega) hle
    have hrange : inRadix4Range u.sq (BitVec.ofNat 24 f) = true := decide_eq_true (by omega)
    have hfirst : inFirstStage u.sq 4 = true := inFirstStage_iff.mpr ⟨hstage, hr⟩
    have hwithin : ∀ g, StoresWithin u.sq.dstsel (8 * 2 ^ k) (r4fInverseStores u (BitVec.ofNat 24 f).toNat g) := by
      intro g
      rw [hplan.size_eq hk, hm]
      refine storesWithin_of_storesInRealElements (storesInRealElements_lanes _ _ _ fun _ => mem_lanes.mp)
        (fun v hv => ?_) (hm ▸ hle)
      exact firstStrided_lt (by omega) hv
    cases hscale : u.sq.scalef with
    | false =>
      have hpass : (inFirstStage u.sq 4 && !u.sq.scalef) = true := by rw [hfirst, hscale]; rfl
      have hkernel : firstKernelInverse u.sq = .r4fI := by rw [firstKernelInverse, hr, hscale]; rfl
      rw [hkernel]
      exact ⟨nofun, hrange, hpass, rfl, hwithin id⟩
    | true =>
      have hpass : (inFirstStage u.sq 4 && u.sq.scalef) = true := by rw [hfirst, hscale]; rfl
      have hkernel : firstKernelInverse u.sq = .r4fIS := by rw [firstKernelInverse, hr, hscale]; rfl
      rw [hkernel]
      exact ⟨nofun, hrange, hpass, rfl, hwithin (scaleUnit u.sq)⟩
  · have hm : u.sq.m.toNat = 8 * (u.sq.stFAt 1).toNat := by rw [hcolumns, hr]; rfl
    have hindex := toNat_ofNat_of_lt (show f < u.sq.m.toNat by omega) hle
    have hrange : inRadix8Range u.sq (BitVec.ofNat 24 f) = true := decide_eq_true (by omega)
    have hfirst : inFirstStage u.sq 8 = true := inFirstStage_iff.mpr ⟨hstage, hr⟩
    have hwithin : ∀ g, StoresWithin u.sq.dstsel (8 * 2 ^ k) (r8InverseStores u (BitVec.ofNat 24 f).toNat g) := by
      intro g
      rw [hplan.size_eq hk, hm]
      refine storesWithin_of_storesInRealElements (storesInRealElements_lanes _ _ _ fun _ => mem_eightElements.mp)
        (fun v hv => ?_) (hm ▸ hle)
      exact firstStrided_lt (by omega) hv
    cases hscale : u.sq.scalef with
    | false =>
      have hpass : (inFirstStage u.sq 8 && !u.sq.scalef) = true := by rw [hfirst, hscale]; rfl
      have hkernel : firstKernelInverse u.sq = .r8I := by rw [firstKernelInverse, hr, hscale]; rfl
      rw [hkernel]
      exact ⟨nofun, hrange, hpass, rfl, hwithin id⟩
    | true =>
      have hpass : (inFirstStage u.sq 8 && u.sq.scalef) = true := by rw [hfirst, hscale]; rfl
      have hkernel : firstKernelInverse u.sq = .r8IS := by rw [firstKernelInverse, hr, hscale]; rfl
      rw [hkernel]
      exact ⟨nofun, hrange, hpass, rfl, hwithin (scaleUnit u.sq)⟩

/-! ### The kernels of the outer stages -/

/-- Both kernels of an outer stage keep to the elements below `4·m·F = M`. -/
theorem worksInPass_r4t (h2 : 2 ≤ u.sq.stage.toNat) (hL : u.sq.stage.toNat ≤ u.sq.l.toNat) {b : Nat}
    (hb : b < u.sq.m.toNat / 4) :
    WorksInPass k (.r4tF (BitVec.ofNat 24 b)) u ∧ WorksInPass k (.r4tI (BitVec.ofNat 24 b)) u := by
  have hle := hplan.columns_le hk hmax
  have hcolumns : 4 * (stageM u.sq * stageF u.sq) = u.sq.m.toNat := hplan.columns_eq_outer hk h2 hL
  have hm : 1 ≤ stageM u.sq := hplan.mstride_pos hk h2 hL
  have hindex := toNat_ofNat_of_lt (show b < u.sq.m.toNat by omega) hle
  have hrange : inRadix4Range u.sq (BitVec.ofNat 24 b) = true := decide_eq_true (by omega)
  have hdepth : u.sq.stage.toNat ≤ Config.stageDepth :=
    hL.trans ((hplan.passes_bounds hk hmax).2.trans (by decide))
  have hpass : inOuterStage u.sq = true := inOuterStage_iff.mpr ⟨h2, hL, hdepth⟩
  have hbutterfly : (BitVec.ofNat 24 b).toNat < stageM u.sq * stageF u.sq := by omega
  have hforward : StoresInElements u.sq.dstsel (r4tBlocked u.sq (BitVec.ofNat 24 b).toNat) 4
      (r4tForwardStores u (BitVec.ofNat 24 b).toNat) := storesInElements_lanes _ _ _ fun _ => mem_lanes.mp
  have hinverse : StoresInElements u.sq.dstsel (r4tStrided u.sq (BitVec.ofNat 24 b).toNat) 4
      (r4tInverseStores u (BitVec.ofNat 24 b).toNat) := storesInElements_lanes _ _ _ fun _ => mem_lanes.mp
  refine ⟨⟨nofun, hrange, hpass, rfl, ?_⟩, ⟨nofun, hrange, hpass, rfl, ?_⟩⟩
  all_goals rw [hplan.size_eq hk]
  · exact storesWithin_of_storesInElements hforward (fun v hv => hcolumns ▸ r4tBlocked_lt hm hbutterfly hv) hle
  · refine storesWithin_of_storesInElements hinverse (fun v hv => ?_) hle
    rw [r4tStrided_eq, ← hcolumns]
    exact add_mul_lt hbutterfly hv

/-! ### The finalizer -/

theorem worksInPass_finEdge (hstage : u.sq.stage.toNat = u.sq.l.toNat + 1) :
    WorksInPass k .finEdgeF u ∧ WorksInPass k .finEdgeI u := by
  have hle := hplan.columns_le hk hmax
  have hcases := hplan.columns_cases hk
  have hpass := inFinalizerPass_iff.mpr hstage
  refine ⟨⟨nofun, rfl, hpass, rfl, ?_⟩, ⟨nofun, rfl, hpass, rfl, ?_⟩⟩
  · change StoresWithin _ _ (finEdgeForwardStores u)
    rw [hplan.size_eq hk, finEdgeForwardStores_eq_slotStores]
    refine storesWithin_slotStores _ (fun n hn => ?_) hle
    obtain rfl | rfl | ⟨j, hj, hn⟩ | ⟨hfour, hn⟩ := mem_edgeSlots (finEdgeForwardSlots_map_fst u ▸ hn)
    · omega
    · rw [State.columns]
      omega
    · have := edgeColumns_bounds j hj
      rw [State.columns] at this hn
      omega
    · rw [State.columns] at hfour
      omega
  · change StoresWithin _ _ (finEdgeInverseStores u)
    rw [hplan.size_eq hk, finEdgeInverseStores_eq_slotStores]
    refine storesWithin_slotStores _ (fun n hn => ?_) hle
    obtain hz | ⟨j, hj, hn⟩ | ⟨hfour, hn⟩ := mem_edgeLanes (finEdgeInverseSlots_map_fst u ▸ hn)
    · omega
    · have := edgeColumns_bounds j hj
      rw [State.columns] at this hn
      omega
    · rw [State.columns] at hfour
      omega

theorem worksInPass_finSec (hstage : u.sq.stage.toNat = u.sq.l.toNat + 1) (hm : 8 ≤ u.sq.m.toNat) :
    WorksInPass k .finSecF u ∧ WorksInPass k .finSecI u := by
  have hle := hplan.columns_le hk hmax
  have hpass := inSecondPass_iff.mpr ⟨hstage, hm⟩
  refine ⟨⟨nofun, rfl, hpass, rfl, ?_⟩, ⟨nofun, rfl, hpass, rfl, ?_⟩⟩
  · change StoresWithin _ _ (finFH u)
    rw [hplan.size_eq hk, finFH_eq_slotStores]
    refine storesWithin_slotStores _ (fun n hn => ?_) hle
    rw [finFHSlots_map_fst] at hn
    simp only [List.mem_cons, List.not_mem_nil, or_false] at hn
    omega
  · change StoresWithin _ _ (finIH u)
    rw [hplan.size_eq hk, finIH, storeRealLanes_eq_slotStores]
    refine storesWithin_slotStores _ (fun n hn => ?_) hle
    have hlane := mem_laneNumbers.mp (realLaneSlots_map_fst _ _ ▸ hn)
    rw [State.columns] at hlane
    omega

theorem worksInPass_finInt (hstage : u.sq.stage.toNat = u.sq.l.toNat + 1) {i : Nat}
    (hi : i < interiorCount u.sq.m.toNat) :
    WorksInPass k (.finIntF (BitVec.ofNat 24 i)) u ∧ WorksInPass k (.finIntI (BitVec.ofNat 24 i)) u := by
  have hle := hplan.columns_le hk hmax
  rw [interiorCount] at hi
  have hindex := toNat_ofNat_of_lt (show i < u.sq.m.toNat by omega) hle
  have hin : (BitVec.ofNat 24 i).toNat < (u.sq.m.toNat - 8) / 8 := by omega
  have hrange : inInteriorRange u.sq (BitVec.ofNat 24 i) = true := decide_eq_true hin
  have hsixteen : 16 ≤ u.columns := by rw [State.columns]; omega
  have hpass : (inFinalizerPass u.sq && decide (16 ≤ u.columns)) = true :=
    Bool.and_eq_true_iff.mpr ⟨inFinalizerPass_iff.mpr hstage, decide_eq_true hsixteen⟩
  refine ⟨⟨nofun, hrange, hpass, rfl, ?_⟩, ⟨nofun, hrange, hpass, rfl, ?_⟩⟩
  · change StoresWithin _ _ (finInteriorForwardStores u (BitVec.ofNat 24 i).toNat)
    rw [hplan.size_eq hk, finInteriorForwardStores_eq_slotStores]
    refine storesWithin_slotStores _ (fun n hn => ?_) hle
    obtain ⟨j, hj, hn⟩ := mem_gSlots.mp (finFGSlots_map_fst u _ ▸ hn)
    have := interiorColumns_bounds hin j hj
    rw [State.columns] at hn
    omega
  · change StoresWithin _ _ (finInteriorInverseStores u (BitVec.ofNat 24 i).toNat)
    rw [hplan.size_eq hk, finInteriorInverseStores_eq_slotStores]
    refine storesWithin_slotStores _ (fun n hn => ?_) hle
    obtain ⟨j, hj, hn⟩ := mem_gLanes.mp (finIGSlots_map_fst u _ ▸ hn)
    have := interiorColumns_bounds hin j hj
    rw [State.columns] at hn
    omega

end

end Sys2Proof.Machine
end

section
/-! PROOF. A state of a launched call: what stays of the launch while the call runs, and that each uop keeps it
(43_sequencer.md R158, R161; 20_memory.md R91; 45_pack_scale.md R205). -/

namespace Sys2Proof.Machine

/-! ### What the launch gives -/

/-- What the proofs below use of a command whose contract holds (R153), for `N = 2^k` and an undisturbed core. -/
structure LaunchedCall (s : State) (dir : Direction) (k : Nat) : Prop where
  lo : 4 ≤ k
  hi : k ≤ 24
  size : s.cr.nfft.toNat = 2 ^ k
  fit : RegionsFit s.cr dir k
  apart : NoByteShared s.cr dir k
  list : ListHolds (s.startCall dir) k
  events : s.events = []

/-- A word whose four bytes memory holds reads as them. -/
theorem readWord_of_word? {m : Memory} {a v : Word} (h : Memory.word? m a = some v) : Memory.readWord m a = v := by
  unfold Memory.word? at h
  split at h
  case h_1 h0 h1 h2 h3 =>
    cases h
    simp only [Memory.readWord, Memory.byteAt, h0, h1, h2, h3, Option.getD_some]
  case h_2 => cases h

theorem launchedCall_of_launchable {s : State} {dir : Direction} (he : s.events = []) (h : launchable dir s = true) :
    LaunchedCall s dir (Nat.log2 s.cr.nfft.toNat) := by
  obtain ⟨k, hlo, hhi, hsize, -, -, hfit, hapart, hlist, -⟩ := (launchContractItemByItem dir s).mp h
  rw [hsize, Nat.log2_two_pow]
  exact ⟨hlo, hhi, hsize, hfit, hapart, fun n v hv => readWord_of_word? (hlist n v hv), he⟩

/-- The byte belongs to neither working buffer of the call. -/
def OutsideBuffers (c : Control) (k : Nat) (x : Word) : Prop :=
  (destinationRegion c k).holds x.toNat = false ∧ (scratchRegion c k).holds x.toNat = false

section
variable {s : State} {dir : Direction} {k : Nat} (hcall : LaunchedCall s dir k)
include hcall

theorem LaunchedCall.dst_fits : s.cr.dst.toNat + 8 * 2 ^ k ≤ 2 ^ 32 :=
  hcall.fit _ (.tail _ (.head _))

theorem LaunchedCall.scratch_fits : s.cr.scratch.toNat + 8 * 2 ^ k ≤ 2 ^ 32 :=
  hcall.fit _ (.tail _ (.tail _ (.head _)))

theorem LaunchedCall.src_fits : s.cr.src.toNat + sourceBytes dir k ≤ 2 ^ 32 :=
  hcall.fit _ (.head _)

/-- The input lies outside both working buffers. -/
theorem LaunchedCall.source_outside {x : Word} (hx : (sourceRegion s.cr dir k).holds x.toNat = true) :
    OutsideBuffers s.cr k x := by
  obtain ⟨hdst, hscratch, -⟩ := hcall.apart x.toNat
  exact ⟨Bool.eq_false_iff.mpr fun h => hdst ⟨hx, h⟩, Bool.eq_false_iff.mpr fun h => hscratch ⟨hx, h⟩⟩

/-- Stores inside either working buffer touch no byte outside both. -/
theorem LaunchedCall.untouched {base x : Word} {l : List Store} (hbase : base = s.cr.dst ∨ base = s.cr.scratch)
    (hl : StoresWithin base (8 * 2 ^ k) l) (hx : OutsideBuffers s.cr k x) : Untouched l x := by
  obtain ⟨hdst, hscratch⟩ := hx
  obtain rfl | rfl := hbase
  · exact untouched_of_storesWithin hl hcall.dst_fits hdst
  · exact untouched_of_storesWithin hl hcall.scratch_fits hscratch

/-- The borrowed word is a word of the input of an inverse call. -/
theorem LaunchedCall.borrowed_outside (hdir : dir = .inverse) {x : Word} (hx : inBytes (s.cr.src + 4) 4 x) :
    OutsideBuffers s.cr k x := by
  refine hcall.source_outside (holds_iff.mpr ?_)
  have hfit := hcall.src_fits
  have hpow : 2 ^ 4 ≤ 2 ^ k := Nat.pow_le_pow_right (by decide) hcall.lo
  subst hdir
  unfold inBytes at hx
  simp only [sourceRegion, sourceBytes] at hfit ⊢
  bv_omega

end

/-! ### The latches of the call -/

/-- The state after the latch of the call's `SEQ.BEGIN`, before the counter moves. -/
def latchedState (dir : Direction) (s : State) : State := uopRegisters (beginOf dir) (s.startCall dir)

/-- The latches of the call. -/
def callLatches (dir : Direction) (s : State) : Sequencer := (latchedState dir s).sq

/-- The stage of the first pass: the driver's first forward, the finalizer's inverse. -/
def firstPass (q : Sequencer) : Nat :=
  match q.dir with
  | .forward => 1
  | .inverse => q.l.toNat + 1

theorem callLatches_dir (dir : Direction) (s : State) : (callLatches dir s).dir = dir := by
  cases dir <;> rfl

theorem callLatches_busy (dir : Direction) (s : State) : (callLatches dir s).busy = true := by
  cases dir <;> rfl

theorem callLatches_n (dir : Direction) (s : State) : (callLatches dir s).n = s.cr.nfft := by
  cases dir <;> rfl

theorem callLatches_dstsel (dir : Direction) (s : State) :
    (callLatches dir s).dstsel = s.cr.dst ∨ (callLatches dir s).dstsel = s.cr.scratch := by
  have hlatch : ∀ scalef stage, ((s.startCall dir).latchPlan scalef stage).sq.dstsel = s.cr.dst ∨
      ((s.startCall dir).latchPlan scalef stage).sq.dstsel = s.cr.scratch := by
    intro scalef stage
    rw [dstsel_latchPlan]
    split
    case isTrue => exact .inr rfl
    case isFalse => exact .inl rfl
  cases dir
  case forward => exact hlatch _ _
  case inverse => exact hlatch _ _

theorem LaunchedCall.plan {s : State} {dir : Direction} {k : Nat} (hcall : LaunchedCall s dir k) :
    CanonicalPlan k (callLatches dir s) := by
  have hlatch := canonicalPlan_latchPlan hcall.list hcall.lo hcall.hi hcall.size
  cases dir
  case forward => exact hlatch _ _
  case inverse => exact hlatch _ _

theorem LaunchedCall.stage_latched {s : State} {dir : Direction} {k : Nat} (hcall : LaunchedCall s dir k) :
    (callLatches dir s).stage.toNat = firstPass (callLatches dir s) := by
  rw [firstPass, callLatches_dir]
  have hL := (hcall.plan.passes_bounds hcall.lo hcall.hi).2
  cases dir with
  | forward => rfl
  | inverse =>
    have hstage : (callLatches .inverse s).stage = (callLatches .inverse s).l + 1 := rfl
    rw [hstage]
    bv_omega

/-! ### A state of the running call -/

/-- `u` stands at position `n` of the call started from `s`, in stage `st`; `lent` says that the borrowed word holds the
Nyquist value. -/
structure Running (s : State) (dir : Direction) (k n st : Nat) (lent : Bool) (u : State) : Prop where
  events : u.events = []
  control : u.cr = s.cr
  latches : latchesOf u.sq = latchesOf (callLatches dir s)
  upc : u.sq.upc.toNat = n
  stage : u.sq.stage.toNat = st
  destination : u.sq.dstsel = s.cr.dst ∨ u.sq.dstsel = s.cr.scratch
  memory : ∀ x, OutsideBuffers s.cr k x → ¬ (lent = true ∧ inBytes (s.cr.src + 4) 4 x) → u.byteAt x = s.byteAt x
  saved : lent = true → u.sq.save0i = s.word (s.cr.src + 4)
  inverse : lent = true → dir = .inverse

section
variable {s u : State} {dir : Direction} {k n st : Nat} {lent : Bool}

/-- What depends on the latches only is as `SEQ.BEGIN` left it. -/
theorem Running.latch_eq (h : Running s dir k n st lent u) {α : Type} (f : Sequencer → α)
    (hf : ∀ q, f (latchesOf q) = f q) : f u.sq = f (callLatches dir s) := by
  rw [← hf u.sq, h.latches, hf]

theorem Running.busy (h : Running s dir k n st lent u) : u.sq.busy = true :=
  (h.latch_eq Sequencer.busy fun _ => rfl).trans (callLatches_busy dir s)

theorem Running.l_eq (h : Running s dir k n st lent u) : u.sq.l = (callLatches dir s).l :=
  h.latch_eq Sequencer.l fun _ => rfl

theorem Running.m_eq (h : Running s dir k n st lent u) : u.sq.m = (callLatches dir s).m :=
  h.latch_eq Sequencer.m fun _ => rfl

theorem Running.n_eq (h : Running s dir k n st lent u) : u.sq.n = s.cr.nfft :=
  (h.latch_eq Sequencer.n fun _ => rfl).trans (callLatches_n dir s)

theorem Running.firstCount_eq (h : Running s dir k n st lent u) :
    firstCount u.sq = firstCount (callLatches dir s) :=
  h.latch_eq firstCount fun _ => rfl

theorem Running.firstKernelForward_eq (h : Running s dir k n st lent u) :
    firstKernelForward u.sq = firstKernelForward (callLatches dir s) :=
  h.latch_eq firstKernelForward fun _ => rfl

theorem Running.firstKernelInverse_eq (h : Running s dir k n st lent u) :
    firstKernelInverse u.sq = firstKernelInverse (callLatches dir s) :=
  h.latch_eq firstKernelInverse fun _ => rfl

theorem Running.lines_eq (h : Running s dir k n st lent u) :
    uprogLines u.sq = uprogLines (callLatches dir s) :=
  uprogLines_congr h.latches

theorem Running.plan (hcall : LaunchedCall s dir k) (h : Running s dir k n st lent u) : CanonicalPlan k u.sq :=
  canonicalPlan_congr hcall.plan h.latches

/-- The uop of the position is on the bus. -/
theorem Running.busWord (h : Running s dir k n st lent u) {i : Instr}
    (hat : uopAt (uprogLines (callLatches dir s)) n = some i) : u.busWord = some (encode i) :=
  busWord_of_uopAt (h.lines_eq ▸ hat) h.upc

/-- A uop that is legal but for its direction is the step: its direction is that of the call. -/
theorem Running.step_eq (h : Running s dir k n st lent u) {i : Instr}
    (hat : uopAt (uprogLines (callLatches dir s)) n = some i) (hrange : uopInRange i u = true)
    (hpass : uopInPass i u = true) : step u = .next (uopEffect i u) := by
  obtain ⟨hi, hdirection⟩ := isUop_of_uopAt hat
  have hdir : u.sq.dir = uopDirection i := (h.latch_eq Sequencer.dir fun _ => rfl).trans hdirection.symm
  rw [step_of_no_events h.events, coreStep_of_busWord h.busy hi (h.busWord hat)]
  exact (exec_eq_next_iff hi).mpr ⟨hdir, hrange, hpass, rfl⟩

/-! ### What the uops keep -/

/-- The first state of the call after `SEQ.BEGIN`. -/
theorem LaunchedCall.running_latchedState (hcall : LaunchedCall s dir k) :
    Running s dir k 1 (firstPass (callLatches dir s)) false (latchedState dir s).advance where
  events := by
    obtain ⟨-, -, hevents, -, -⟩ := sameOutside_uopRegisters (beginOf dir) (s.startCall dir)
    exact hevents.trans hcall.events
  control := by
    obtain ⟨hcr, -, -, -, -⟩ := sameOutside_uopRegisters (beginOf dir) (s.startCall dir)
    exact hcr
  latches := rfl
  upc := by
    rw [advance_sq_upc, latchedState, uopRegisters_upc]
    rfl
  stage := hcall.stage_latched
  destination := callLatches_dstsel dir s
  memory := fun x _ _ => congrArg (Memory.byteAt · x.toNat) (uopRegisters_mem (beginOf dir) (s.startCall dir))
  saved := nofun
  inverse := nofun

theorem toNat_add_one_of_lt {a : Word} {n : Nat} (ha : a.toNat = n) (hn : n + 1 < 2 ^ 32) : (a + 1).toNat = n + 1 := by
  bv_omega

/-- Stores outside the input keep the call where it was, one position on. -/
theorem Running.store (h : Running s dir k n st lent u) (hn : n + 1 < 2 ^ 32) {l : List Store}
    (hl : ∀ x, OutsideBuffers s.cr k x → Untouched l x) :
    Running s dir k (n + 1) st lent (u.storeWords l).advance where
  events := h.events
  control := h.control
  latches := h.latches
  upc := toNat_add_one_of_lt h.upc hn
  stage := h.stage
  destination := h.destination
  memory := fun x hx hlent => (byteAt_storeWords_untouched u (hl x hx)).trans (h.memory x hx hlent)
  saved := h.saved
  inverse := h.inverse

theorem Running.work (hcall : LaunchedCall s dir k) (h : Running s dir k n st lent u) (hn : n + 1 < 2 ^ 32) {i : Instr}
    (hi : WorksInPass k i u) : Running s dir k (n + 1) st lent (uopEffect i u) := by
  rw [uopEffect_of_not_isEnd hi.notEnd, uopBody, hi.registers]
  exact h.store hn fun x hx => hcall.untouched h.destination hi.within hx

/-- The swap of the buffers moves on to the stage it is given. -/
theorem Running.swap (h : Running s dir k n st lent u) (hn : n + 1 < 2 ^ 32) (stage : BitVec 4) :
    Running s dir k (n + 1) stage.toNat lent (u.swapBuffers stage).advance where
  events := h.events
  control := h.control
  latches := h.latches
  upc := toNat_add_one_of_lt h.upc hn
  stage := rfl
  destination := by
    rw [advance_sq_dstsel, swapBuffers_sq_dstsel, h.control]
    split
    case isTrue => exact .inr rfl
    case isFalse => exact .inl rfl
  memory := h.memory
  saved := h.saved
  inverse := h.inverse

/-- The stores of `PACK.F` are slots 0 and `N/2` of the output buffer. -/
theorem Running.packStores_within (hcall : LaunchedCall s dir k) (h : Running s dir k n st lent u) :
    StoresWithin s.cr.dst (8 * 2 ^ k) (packStores u) := by
  have hhalf : (u.sq.n >>> 1).toNat = 2 ^ k / 2 := by
    rw [h.n_eq, BitVec.toNat_ushiftRight, hcall.size, Nat.shiftRight_eq_div_pow]
  have hlo : 2 ^ 4 ≤ 2 ^ k := Nat.pow_le_pow_right (by decide) hcall.lo
  have hhi : 2 ^ k ≤ 2 ^ 24 := Nat.pow_le_pow_right (by decide) hcall.hi
  rw [packStores_eq_storesAt, hhalf, h.control]
  intro st hst
  obtain ⟨p, hp, rfl⟩ := List.mem_map.mp hst
  have hword : p.1 < 2 * 2 ^ k := by
    simp only [List.mem_cons, List.not_mem_nil, or_false] at hp
    obtain rfl | rfl | rfl := hp <;> dsimp only <;> omega
  rw [toNat_add_ofNat_sub _ (by omega)]
  omega

/-- `UNPACK.I` saves the word of the input that it overwrites. -/
theorem Running.unpack (hcall : LaunchedCall s dir k) (h : Running s dir k n st false u) (hdir : dir = .inverse)
    (hn : n + 1 < 2 ^ 32) : Running s dir k (n + 1) st true (uopEffect .unpackI u) where
  events := h.events
  control := h.control
  latches := h.latches
  upc := toNat_add_one_of_lt h.upc hn
  stage := h.stage
  destination := h.destination
  memory := fun x hx hlent => by
    have hout : ¬ inBytes (u.cr.src + 4) 4 x := fun hin => hlent ⟨rfl, h.control ▸ hin⟩
    have hu : u.byteAt x = s.byteAt x := h.memory x hx nofun
    exact (byteAt_storeWords_untouched (u.saveWord _) (untouched_singleton_of_not_inBytes _ hout)).trans hu
  saved := fun _ => by
    have hsaved : u.word (s.cr.src + 4) = s.word (s.cr.src + 4) :=
      readWord_congr fun x hin => h.memory x (hcall.borrowed_outside hdir hin) nofun
    exact h.control ▸ hsaved
  inverse := fun _ => hdir

/-- `RESTORE.I` gives the borrowed word back. -/
theorem Running.restore (h : Running s dir k n st true u) (hn : n + 1 < 2 ^ 32) :
    Running s dir k (n + 1) st false (uopEffect .restoreI u) where
  events := h.events
  control := h.control
  latches := h.latches
  upc := toNat_add_one_of_lt h.upc hn
  stage := h.stage
  destination := h.destination
  memory := fun x hx _ => by
    have hmem : (uopEffect .restoreI u).byteAt x =
        Memory.byteAt (Memory.writeWord u.mem (s.cr.src + 4) (s.word (s.cr.src + 4))) x.toNat := by
      rw [← h.saved rfl, ← h.control]
      rfl
    rw [hmem, byteAt_writeWord]
    split
    case isTrue hin => exact byteOfWord_readWord s.mem hin
    case isFalse hout => exact h.memory x hx fun hlent => hout hlent.2
  saved := nofun
  inverse := nofun

end

end Sys2Proof.Machine
end

section
/-! PROOF. The run of a launched call: it goes through its listing to the end, and writes its working regions only
(43_sequencer.md R158, R162 to R164; 20_memory.md R91; 60_exceptions.md R210). -/

namespace Sys2Proof.Machine

/-! ### Runs of the machine -/

/-- One step more. -/
theorem run_succ (core : Host.Core) {n : Nat} {s u : core.State} (h : core.run n s = .next u) :
    core.run (n + 1) s = core.step u := by
  induction n generalizing s with
  | zero =>
    cases h
    rw [Host.Core.run]
    cases core.step u <;> rfl
  | succ n ih =>
    rw [Host.Core.run] at h ⊢
    split at h
    case h_1 => exact ih h
    case h_2 => cases h
    case h_3 => cases h

/-- An undisturbed idle core stays as it is. -/
theorem run_add_of_idle {n : Nat} {s u : State} (h : Host.Core.run Sys2Proof.core n s = .next u)
    (hidle : u.sq.busy = false) (he : u.events = []) (d : Nat) :
    Host.Core.run Sys2Proof.core (n + d) s = .next u := by
  induction d with
  | zero => exact h
  | succ d ih => exact (run_succ _ ih).trans (step_of_idle hidle he)

/-! ### The length of a listing -/

/-- A listing has a uop at every position below its length and nowhere else. -/
theorem isSome_uopAt_iff {l : List Line} {n : Nat} : (uopAt l n).isSome = true ↔ n < uopCount l := by
  induction l generalizing n with
  | nil => simp [uopAt]
  | cons ln l ih =>
    rw [uopAt, uopCount_cons]
    split
    case isTrue hlt => exact ⟨fun _ => by omega, fun _ => rfl⟩
    case isFalse hge =>
      rw [ih]
      omega

/-- What is left of a listing ends where the listing ends. -/
theorem Follows.length {l rest : List Line} {n : Nat} (h : Follows l n rest) (hpos : 0 < uopCount rest) :
    n + uopCount rest = uopCount l := by
  have hiff : ∀ m, n + m < uopCount l ↔ m < uopCount rest := fun m => by
    rw [← isSome_uopAt_iff, h m, isSome_uopAt_iff]
  have hlast := (hiff (uopCount rest - 1)).mpr (by omega)
  have hpast := mt (hiff (uopCount rest)).mp (by omega)
  omega

section
variable {s : State} {dir : Direction} {k : Nat} (hcall : LaunchedCall s dir k)
include hcall

/-- The length of the call by its formula (R164). -/
theorem LaunchedCall.length_eq : uopCount (uprogLines (callLatches dir s)) = callLength dir k := by
  have hplan := hcall.plan
  have hL := hplan.passes_bounds hcall.lo hcall.hi
  have hfirst : 2 ^ (k - 2) / firstRadix k = 4 ^ (driverPasses k - 1) := by
    have hpos : 0 < firstRadix k := by
      obtain hr | hr := firstRadix_eq_or k <;> omega
    rw [columns_eq hcall.lo, Nat.mul_div_cancel_left _ hpos]
  have hlength := uprogHasTheStatedLength (callLatches dir s) hL.1
  dsimp only at hlength
  rw [← interiorCount_eq, interiorCount, callLatches_dir, hplan.m_eq,
    hplan.l_eq, hplan.stF_eq 1 le_rfl (hplan.l_eq ▸ hL.1), ← hfirst] at hlength
  exact hlength


theorem LaunchedCall.length_lt : uopCount (uprogLines (callLatches dir s)) < 2 ^ 32 := by
  have hplan := hcall.plan
  obtain ⟨hlo, hhi⟩ := driverPasses_bounds hcall.lo hcall.hi
  have hm : 2 ^ (k - 2) ≤ 2 ^ 22 := hplan.m_eq ▸ hplan.columns_le hcall.lo hcall.hi
  have hpasses : (driverPasses k - 1) * (2 ^ (k - 2) / 4 + 1) ≤ 10 * (2 ^ 20 + 1) :=
    Nat.mul_le_mul (by omega) (by omega)
  have hfirst : 2 ^ (k - 2) / firstRadix k ≤ 2 ^ (k - 2) := Nat.div_le_self _ _
  rw [hcall.length_eq]
  unfold callLength
  cases dir
  all_goals
    dsimp only
    split <;> omega

end

/-! ### How far the call has run -/

/-- The call runs up to position `n` without a refusal, and passes through states of the call only. -/
def RunsUpTo (s : State) (dir : Direction) (k n st : Nat) (lent : Bool) : Prop :=
  ∃ u : State, Host.Core.run Sys2Proof.core n (s.startCall dir) = .next u ∧ Running s dir k n st lent u ∧
    ∀ (j : Nat) (v : State), 1 ≤ j → j < n → Host.Core.run Sys2Proof.core j (s.startCall dir) = .next v →
      ∃ st' lent', Running s dir k j st' lent' v

section
variable {s : State} {dir : Direction} {k n st : Nat} {lent : Bool} (hcall : LaunchedCall s dir k)
include hcall

/-- The first uop is `SEQ.BEGIN`, whatever the latches held. -/
theorem LaunchedCall.runsUpTo_one : RunsUpTo s dir k 1 (firstPass (callLatches dir s)) false := by
  have hword : (s.startCall dir).busWord = some (encode (beginOf dir)) := busWord_of_upc_zero (s := s.startCall dir) rfl
  have hbegin : IsUop (beginOf dir) ∧ uopDirection (beginOf dir) = dir ∧ uopInRange (beginOf dir) (s.startCall dir) = true ∧
      uopInPass (beginOf dir) (s.startCall dir) = true ∧
      uopEffect (beginOf dir) (s.startCall dir) = (latchedState dir s).advance := by
    cases dir
    case forward => exact ⟨⟨nofun, nofun⟩, by decide, rfl, rfl, rfl⟩
    case inverse => exact ⟨⟨nofun, nofun⟩, by decide, rfl, rfl, rfl⟩
  obtain ⟨hi, hdir, hrange, hpass, heffect⟩ := hbegin
  have hstep : step (s.startCall dir) = .next (latchedState dir s).advance := by
    rw [step_of_no_events (s := s.startCall dir) hcall.events, coreStep_of_busWord rfl hi hword]
    exact (exec_eq_next_iff hi).mpr ⟨hdir.symm, hrange, hpass, heffect⟩
  exact ⟨_, (run_succ Sys2Proof.core (n := 0) rfl).trans hstep, hcall.running_latchedState, fun j _ h1 h2 => by omega⟩

/-- A legal uop that keeps the call takes it one position on. -/
theorem RunsUpTo.next (h : RunsUpTo s dir k n st lent) {i : Instr} {st' : Nat} {lent' : Bool}
    (hat : uopAt (uprogLines (callLatches dir s)) n = some i)
    (hi : ∀ u, Running s dir k n st lent u → n + 1 < 2 ^ 32 →
      uopInRange i u = true ∧ uopInPass i u = true ∧ Running s dir k (n + 1) st' lent' (uopEffect i u)) :
    RunsUpTo s dir k (n + 1) st' lent' := by
  obtain ⟨u, hrun, hu, hbefore⟩ := h
  have hlength := hcall.length_lt
  have hn : n < uopCount (uprogLines (callLatches dir s)) := isSome_uopAt_iff.mp (by rw [hat]; rfl)
  obtain ⟨hrange, hpass, hnext⟩ := hi u hu (by omega)
  refine ⟨_, (run_succ _ hrun).trans (hu.step_eq hat hrange hpass), hnext, fun j v h1 hj hv => ?_⟩
  obtain hlt | rfl : j < n ∨ j = n := by omega
  · exact hbefore j v h1 hlt hv
  · cases hrun.symm.trans hv
    exact ⟨st, lent, hu⟩

/-- One uop at work. -/
theorem RunsUpTo.work (h : RunsUpTo s dir k n st lent) {i : Instr}
    (hat : uopAt (uprogLines (callLatches dir s)) n = some i)
    (hi : ∀ u, Running s dir k n st lent u → WorksInPass k i u) : RunsUpTo s dir k (n + 1) st lent :=
  h.next hcall hat fun u hu hn => ⟨(hi u hu).inRange, (hi u hu).inPass, hu.work hcall hn (hi u hu)⟩

/-- A repeated uop at work, index by index. -/
theorem RunsUpTo.rep (h : RunsUpTo s dir k n st lent) {stage c : Nat} {x : Indexed} {rest : List Line}
    (hfollows : Follows (uprogLines (callLatches dir s)) n (.rep stage x c :: rest))
    (hx : ∀ b n' u, b < c → Running s dir k n' st lent u → WorksInPass k (x.uop (BitVec.ofNat 24 b)) u) :
    RunsUpTo s dir k (n + c) st lent := by
  have hupTo : ∀ b, b ≤ c → RunsUpTo s dir k (n + b) st lent := by
    intro b
    induction b with
    | zero => exact fun _ => h
    | succ b ih => exact fun hb => (ih (by omega)).work hcall (hfollows.rep hb) fun u hu => hx b _ u hb hu
  exact hupTo c le_rfl

/-- `SEQ.NEXT.F` moves on to the next stage. -/
theorem RunsUpTo.nextForward (h : RunsUpTo s dir k n st lent)
    (hat : uopAt (uprogLines (callLatches dir s)) n = some .seqNextF) (hst : st < 15) :
    RunsUpTo s dir k (n + 1) (st + 1) lent := by
  refine h.next hcall hat fun u hu hn => ⟨rfl, rfl, ?_⟩
  have hstage : (u.sq.stage + 1).toNat = st + 1 := by
    have := hu.stage
    bv_omega
  exact hstage ▸ hu.swap hn (u.sq.stage + 1)

/-- `SEQ.NEXT.I` moves back to the stage before. -/
theorem RunsUpTo.nextInverse (h : RunsUpTo s dir k n (st + 1) lent)
    (hat : uopAt (uprogLines (callLatches dir s)) n = some .seqNextI) : RunsUpTo s dir k (n + 1) st lent := by
  refine h.next hcall hat fun u hu hn => ⟨rfl, rfl, ?_⟩
  have hstage : (u.sq.stage - 1).toNat = st := by
    have := hu.stage
    bv_omega
  exact hstage ▸ hu.swap hn (u.sq.stage - 1)

/-- The finalizer pass of either direction: Edge, Second where there is one, and Interior. -/
theorem RunsUpTo.finalizer (h : RunsUpTo s dir k n ((callLatches dir s).l.toNat + 1) lent) {edge second : Instr}
    {interior : Indexed} {st₁ st₂ : Nat} {rest : List Line}
    (hfollows : Follows (uprogLines (callLatches dir s)) n (.one st₁ edge :: (secondLine (callLatches dir s) second ++
      .rep st₂ interior (interiorCount (callLatches dir s).m.toNat) :: rest)))
    (hworks : ∀ u, CanonicalPlan k u.sq → u.sq.stage.toNat = u.sq.l.toNat + 1 → WorksInPass k edge u ∧
      (8 ≤ u.sq.m.toNat → WorksInPass k second u) ∧
      ∀ i, i < interiorCount u.sq.m.toNat → WorksInPass k (interior.uop (BitVec.ofNat 24 i)) u) :
    ∃ n', RunsUpTo s dir k n' ((callLatches dir s).l.toNat + 1) lent ∧
      Follows (uprogLines (callLatches dir s)) n' rest := by
  have hworksHere : ∀ n' u, Running s dir k n' ((callLatches dir s).l.toNat + 1) lent u → WorksInPass k edge u ∧
      (8 ≤ (callLatches dir s).m.toNat → WorksInPass k second u) ∧
      ∀ i, i < interiorCount (callLatches dir s).m.toNat → WorksInPass k (interior.uop (BitVec.ofNat 24 i)) u := by
    intro n' u hu
    rw [← hu.m_eq]
    exact hworks u (hu.plan hcall) (by rw [hu.stage, hu.l_eq])
  simp only [forall_and] at hworksHere
  obtain ⟨hedgeWorks, hsecondWorks, hinteriorWorks⟩ := hworksHere
  have hedge := h.work hcall hfollows.one (hedgeWorks n)
  have hsecondLine := hfollows.next
  have hsecond : RunsUpTo s dir k (n + 1 + uopCount (secondLine (callLatches dir s) second))
      ((callLatches dir s).l.toNat + 1) lent := by
    by_cases hm : 8 ≤ (callLatches dir s).m.toNat
    · rw [secondLine, if_pos hm] at hsecondLine ⊢
      exact hedge.work hcall hsecondLine.one fun u hu => hsecondWorks _ u hu hm
    · rw [secondLine, if_neg hm]
      exact hedge
  have hinterior := hsecondLine.skip
  exact ⟨_, hsecond.rep hcall hinterior fun b n' u hb hu => hinteriorWorks n' u hu b hb, hinterior.next⟩

end

end Sys2Proof.Machine
end

section
/-! PROOF. A launched call runs through its listing to its end, and what it writes (43_sequencer.md R158, R162, R164;
20_memory.md R91; 70_reset_and_hazards.md R238). -/

namespace Sys2Proof.Machine

section
variable {s : State} {dir : Direction} {k n : Nat} {lent : Bool} (hcall : LaunchedCall s dir k)
include hcall

/-! ### The driver stages -/

/-- The later stages of a forward call, from stage 2 to the finalizer pass. -/
theorem RunsUpTo.forwardPasses (h : RunsUpTo s dir k n 2 lent) {rest : List Line}
    (hfollows : Follows (uprogLines (callLatches dir s)) n
      ((List.range ((callLatches dir s).l.toNat - 1)).flatMap (forwardPass (callLatches dir s)) ++ rest)) :
    RunsUpTo s dir k (n + ((callLatches dir s).l.toNat - 1) * ((callLatches dir s).m.toNat / 4 + 1))
      ((callLatches dir s).l.toNat + 1) lent := by
  obtain ⟨hlo, hhi⟩ := hcall.plan.passes_bounds hcall.lo hcall.hi
  have hupTo : ∀ t, t ≤ (callLatches dir s).l.toNat - 1 →
      RunsUpTo s dir k (n + t * ((callLatches dir s).m.toNat / 4 + 1)) (t + 2) lent := by
    intro t
    induction t with
    | zero => exact fun _ => by rwa [Nat.zero_mul]
    | succ t ih =>
      intro ht
      obtain ⟨rest', hpass⟩ := hfollows.pass (uopCount_forwardPass (callLatches dir s)) ht
      have hkernels := (ih (by omega)).rep hcall hpass fun b _ u hb hu => by
        have hstage := hu.stage
        have hl := congrArg BitVec.toNat hu.l_eq
        obtain ⟨hworks, -⟩ := worksInPass_r4t hcall.lo hcall.hi (hu.plan hcall) (by omega) (by omega)
          (hu.m_eq ▸ hb : b < u.sq.m.toNat / 4)
        exact hworks
      have hnext := hkernels.nextForward hcall hpass.next.one (by omega)
      rwa [Nat.succ_mul, ← Nat.add_assoc, ← Nat.add_assoc]
  have hall := hupTo _ le_rfl
  rwa [show (callLatches dir s).l.toNat - 1 + 2 = (callLatches dir s).l.toNat + 1 by omega] at hall

/-- The later stages of an inverse call, from stage `L` down to stage 1. -/
theorem RunsUpTo.inversePasses (h : RunsUpTo s dir k n (callLatches dir s).l.toNat lent) {rest : List Line}
    (hfollows : Follows (uprogLines (callLatches dir s)) n
      ((List.range ((callLatches dir s).l.toNat - 1)).flatMap (inversePass (callLatches dir s)) ++ rest)) :
    RunsUpTo s dir k (n + ((callLatches dir s).l.toNat - 1) * ((callLatches dir s).m.toNat / 4 + 1)) 1 lent := by
  obtain ⟨hlo, hhi⟩ := hcall.plan.passes_bounds hcall.lo hcall.hi
  have hupTo : ∀ t, t ≤ (callLatches dir s).l.toNat - 1 →
      RunsUpTo s dir k (n + t * ((callLatches dir s).m.toNat / 4 + 1)) ((callLatches dir s).l.toNat - t) lent := by
    intro t
    induction t with
    | zero => exact fun _ => by rwa [Nat.zero_mul]
    | succ t ih =>
      intro ht
      obtain ⟨rest', hpass⟩ := hfollows.pass (uopCount_inversePass (callLatches dir s)) ht
      have hkernels := (ih (by omega)).rep hcall hpass fun b _ u hb hu => by
        have hstage := hu.stage
        have hl := congrArg BitVec.toNat hu.l_eq
        obtain ⟨-, hworks⟩ := worksInPass_r4t hcall.lo hcall.hi (hu.plan hcall) (by omega) (by omega)
          (hu.m_eq ▸ hb : b < u.sq.m.toNat / 4)
        exact hworks
      rw [show (callLatches dir s).l.toNat - t = (callLatches dir s).l.toNat - (t + 1) + 1 by omega] at hkernels
      have hnext := hkernels.nextInverse hcall hpass.next.one
      rwa [Nat.succ_mul, ← Nat.add_assoc, ← Nat.add_assoc]
  have hall := hupTo _ le_rfl
  rwa [show (callLatches dir s).l.toNat - ((callLatches dir s).l.toNat - 1) = 1 by omega] at hall

/-! ### The two uops before the end -/

omit hcall in
/-- Two uops before the end of the listing the counter stands at the place of `PACK.F` and `RESTORE.I`. -/
theorem Running.beforeTheEnd {u : State} {st : Nat} (h : Running s dir k n st lent u) {st₁ st₂ : Nat} {i j : Instr}
    (hfollows : Follows (uprogLines (callLatches dir s)) n [.one st₁ i, .one st₂ j]) : beforeTheEnd u.sq = true := by
  have hlength := hfollows.length (Nat.succ_pos _)
  have hlines : uprogLength u.sq = uopCount (uprogLines u.sq) := rfl
  rw [beforeTheEnd_iff, hlines, h.lines_eq, h.upc]
  exact hlength

theorem RunsUpTo.pack {st st₁ st₂ : Nat} {j : Instr} (h : RunsUpTo s dir k n st lent)
    (hst : st = (callLatches dir s).l.toNat + 1)
    (hfollows : Follows (uprogLines (callLatches dir s)) n [.one st₁ .packF, .one st₂ j]) :
    RunsUpTo s dir k (n + 1) st lent := by
  refine h.next hcall hfollows.one fun u hu hn => ⟨rfl, ?_, ?_⟩
  · refine Bool.and_eq_true_iff.mpr ⟨inFinalizerPass_iff.mpr ?_, hu.beforeTheEnd hfollows⟩
    rw [hu.stage, hu.l_eq, hst]
  · exact hu.store hn fun x hx => hcall.untouched (.inl rfl) (hu.packStores_within hcall) hx

theorem RunsUpTo.restore {st st₁ st₂ : Nat} {j : Instr} (h : RunsUpTo s dir k n st true)
    (hfollows : Follows (uprogLines (callLatches dir s)) n [.one st₁ .restoreI, .one st₂ j]) :
    RunsUpTo s dir k (n + 1) st false :=
  h.next hcall hfollows.one fun _ hu hn => ⟨rfl, hu.beforeTheEnd hfollows, hu.restore hn⟩

/-! ### From the first uop to the last -/

/-- The call has come to `SEQ.END`, the last uop of its listing, with the borrowed word given back. -/
def ReachesTheEnd (s : State) (dir : Direction) (k : Nat) : Prop :=
  ∃ n st i, RunsUpTo s dir k n st false ∧ IsEnd i ∧ uopAt (uprogLines (callLatches dir s)) n = some i ∧
    n + 1 = uopCount (uprogLines (callLatches dir s))

omit hcall in
/-- At the last line of the listing. -/
theorem reachesTheEnd_of_follows {st st' : Nat} {i : Instr} (h : RunsUpTo s dir k n st false) (hi : IsEnd i)
    (hfollows : Follows (uprogLines (callLatches dir s)) n [.one st' i]) : ReachesTheEnd s dir k :=
  ⟨n, st, i, h, hi, hfollows.one, hfollows.length (Nat.succ_pos _)⟩

omit hcall in
/-- Stage 1 as the uops read it. -/
theorem Running.stage_eq_one {u : State} (h : Running s dir k n 1 lent u) : u.sq.stage = 1 :=
  BitVec.eq_of_toNat_eq h.stage

end

theorem LaunchedCall.forward_reachesTheEnd {s : State} {k : Nat} (hcall : LaunchedCall s .forward k) :
    ReachesTheEnd s .forward k := by
  obtain ⟨hlo, hhi⟩ := hcall.plan.passes_bounds hcall.lo hcall.hi
  have hdir : (callLatches .forward s).dir = .forward := callLatches_dir .forward s
  have hbegin := Follows.start (uprogLines (callLatches .forward s))
  nth_rw 2 [uprogLines_of_forward hdir] at hbegin
  rw [forwardLines_eq] at hbegin
  have hfirst := hbegin.next
  have hnext := hfirst.next
  have hpasses := hnext.next
  have hfinalizer := hpasses.skip
  rw [uopCount_flatMap_range (uopCount_forwardPass (callLatches .forward s))] at hfinalizer
  have hstage : firstPass (callLatches .forward s) = 1 := by rw [firstPass, hdir]
  have hstart : RunsUpTo s .forward k 1 1 false := hstage ▸ hcall.runsUpTo_one
  have hkernels := hstart.rep hcall hfirst fun b _ u hb hu => by
    rw [← hu.firstCount_eq] at hb
    rw [← hu.firstKernelForward_eq]
    exact worksInPass_firstKernelForward hcall.lo hcall.hi (hu.plan hcall) hu.stage_eq_one hb
  have houter := (hkernels.nextForward hcall hnext.one (by decide)).forwardPasses hcall hpasses
  obtain ⟨n', hpacking, hpack⟩ := houter.finalizer hcall hfinalizer fun u hplan hstage =>
    ⟨(worksInPass_finEdge hcall.lo hcall.hi hplan hstage).1,
      fun hm => (worksInPass_finSec hcall.lo hcall.hi hplan hstage hm).1,
      fun i hi => (worksInPass_finInt hcall.lo hcall.hi hplan hstage hi).1⟩
  exact reachesTheEnd_of_follows (hpacking.pack hcall rfl hpack) (.inl rfl) hpack.next

theorem LaunchedCall.inverse_reachesTheEnd {s : State} {k : Nat} (hcall : LaunchedCall s .inverse k) :
    ReachesTheEnd s .inverse k := by
  have hdir : (callLatches .inverse s).dir = .inverse := callLatches_dir .inverse s
  have hbegin := Follows.start (uprogLines (callLatches .inverse s))
  nth_rw 2 [uprogLines_of_inverse hdir] at hbegin
  rw [inverseLines_eq] at hbegin
  have hunpack := hbegin.next
  have hfinalizer := hunpack.next
  have hstage : firstPass (callLatches .inverse s) = (callLatches .inverse s).l.toNat + 1 := by rw [firstPass, hdir]
  have hstart : RunsUpTo s .inverse k 1 ((callLatches .inverse s).l.toNat + 1) false := hstage ▸ hcall.runsUpTo_one
  have hunpacked : RunsUpTo s .inverse k (0 + 1 + 1) ((callLatches .inverse s).l.toNat + 1) true :=
    hstart.next hcall hunpack.one fun u hu hn =>
      ⟨rfl, beq_iff_eq.mpr (BitVec.eq_of_toNat_eq hu.upc), hu.unpack hcall rfl hn⟩
  obtain ⟨n', hturning, hnext⟩ := hunpacked.finalizer hcall hfinalizer fun u hplan hstage =>
    ⟨(worksInPass_finEdge hcall.lo hcall.hi hplan hstage).2,
      fun hm => (worksInPass_finSec hcall.lo hcall.hi hplan hstage hm).2,
      fun i hi => (worksInPass_finInt hcall.lo hcall.hi hplan hstage hi).2⟩
  have hpasses := hnext.next
  have hfirst := hpasses.skip
  rw [uopCount_flatMap_range (uopCount_inversePass (callLatches .inverse s))] at hfirst
  have houter := (hturning.nextInverse hcall hnext.one).inversePasses hcall hpasses
  have hkernels := houter.rep hcall hfirst fun b _ u hb hu => by
    rw [← hu.firstCount_eq] at hb
    rw [← hu.firstKernelInverse_eq]
    exact worksInPass_firstKernelInverse hcall.lo hcall.hi (hu.plan hcall) hu.stage_eq_one hb
  have hrestore := hfirst.next
  exact reachesTheEnd_of_follows (hkernels.restore hcall hrestore) (.inr rfl) hrestore.next

/-- The whole run of a launched call: every state before the end is one of the call, and `SEQ.END` finishes it. -/
theorem LaunchedCall.run {s : State} {dir : Direction} {k : Nat} (hcall : LaunchedCall s dir k) :
    ∃ (n st : Nat) (u : State), n + 1 = callLength dir k ∧ Running s dir k n st false u ∧
      Host.Core.run Sys2Proof.core (callLength dir k) (s.startCall dir) = .next u.finishCall.endUop ∧
      ∀ (j : Nat) (v : State), 1 ≤ j → j < callLength dir k → Host.Core.run Sys2Proof.core j (s.startCall dir) = .next v →
        ∃ st' lent', Running s dir k j st' lent' v := by
  have hend : ReachesTheEnd s dir k := by
    cases dir
    case forward => exact hcall.forward_reachesTheEnd
    case inverse => exact hcall.inverse_reachesTheEnd
  obtain ⟨n, st, i, ⟨u, hrun, hu, hbefore⟩, hi, hat, hn⟩ := hend
  rw [hcall.length_eq] at hn
  have hrange : uopInRange i u = true := by obtain rfl | rfl := hi <;> rfl
  have hpass : uopInPass i u = true := by obtain rfl | rfl := hi <;> rfl
  have hstep := hu.step_eq hat hrange hpass
  rw [uopEffect_of_isEnd hi] at hstep
  refine ⟨n, st, u, hn, hu, hn ▸ (run_succ _ hrun).trans hstep, fun j v h1 hj hv => ?_⟩
  obtain hlt | rfl : j < n ∨ j = n := by omega
  · exact hbefore j v h1 hlt hv
  · cases hrun.symm.trans hv
    exact ⟨st, false, hu⟩

/-- Settles O58: the walk along the listing (`LaunchedCall.run`), whose length is that of R164. -/
theorem launchedCallRunsToItsEnd : Obligations.LaunchedCallRunsToItsEnd := by
  intro s dir he hlaunch len
  obtain ⟨n, st, u, hn, hu, hrun, hbefore⟩ := (launchedCall_of_launchable he hlaunch).run
  refine ⟨_, hrun, rfl, rfl, ?_, hu.control, fun j v hj hv => ?_⟩
  · rw [endUop_sq, finishCall_sq_upc, hu.upc]
    exact hn
  · obtain rfl | hpos := Nat.eq_zero_or_pos j
    · cases hv
      rfl
    · obtain ⟨st', lent', hv⟩ := hbefore j v hpos hj hv
      exact hv.busy

/-- Settles O59: while the call runs its states keep every byte outside the buffers but for the borrowed word of an inverse
call (`Running.memory`); at the end the word is back, and the idle core leaves all as it is. -/
theorem aCallWritesOnlyItsWorkingRegions : Obligations.ACallWritesOnlyItsWorkingRegions := by
  intro s dir he hlaunch k n v hv
  have hcall := launchedCall_of_launchable he hlaunch
  obtain ⟨last, st, u, hlast, hu, hrun, hbefore⟩ := hcall.run
  have hfinal : ∀ x, OutsideBuffers s.cr k x → u.byteAt x = s.byteAt x := fun x hx => hu.memory x hx nofun
  have hafter : callLength dir k ≤ n → v = u.finishCall.endUop := fun hn => by
    obtain ⟨d, rfl⟩ := Nat.exists_eq_add_of_le hn
    cases hv.symm.trans (run_add_of_idle hrun rfl hu.events d)
    rfl
  refine ⟨fun x hdst hscratch hborrowed => ?_, fun hn x hx => ?_⟩
  · obtain hbusy | hend := Nat.lt_or_ge n (callLength dir k)
    · obtain rfl | hpos := Nat.eq_zero_or_pos n
      · cases hv
        rfl
      · obtain ⟨st', lent', hv⟩ := hbefore n v hpos hbusy hv
        exact hv.memory x ⟨hdst, hscratch⟩ fun hlent => hborrowed (hv.inverse hlent.1) hlent.2
    · rw [hafter hend]
      exact hfinal x ⟨hdst, hscratch⟩
  · rw [hafter hn.ge]
    exact hfinal x (hcall.source_outside hx)

end Sys2Proof.Machine
end
